-- ==== Sys2Proof/Word.lean ====
section
/-! DEFINITION. The word types of the engine (spec/00_scope.md R9: every value is unsigned, of 8, 32 or 64 bits). -/

namespace Sys2Proof

/-- A byte of memory, `u8`. -/
abbrev Byte := BitVec 8

/-- A register, address or table entry, `u32` (00_scope.md R7 `REG_W`, `ADDR_W`, `HT_ENTRY_W`). -/
abbrev Word := BitVec 32

/-- A 64-bit quantity, `u64`: the content size and the stream's byte count. -/
abbrev DWord := BitVec 64

end Sys2Proof
end

