-- ==== Sys2Proof/Machine/Bits.lean ====
section
/-! DEFINITION. Byte order and bit helpers (spec/20_memory.md R62: little-endian; spec/00_scope.md R9, R10). -/

namespace Sys2Proof.Machine

/-- A one-bit field. -/
abbrev bit (b : Bool) : BitVec 1 := BitVec.ofBool b

/-- `LE32` of four bytes in address order (00_scope.md R10). -/
def le32 (b0 b1 b2 b3 : Byte) : Word := b3 ++ b2 ++ b1 ++ b0

/-- `LE(v, n)`: the `n` low bytes of `v`, the least significant first (00_scope.md R10). -/
def leBytes : Nat → Nat → List Byte
  | 0, _ => []
  | n + 1, v => BitVec.ofNat 8 v :: leBytes n (v / 256)

/-- `rotl32(x, r)` for `1 ≤ r ≤ 31` (00_scope.md R9). -/
def rotl32 (x : Word) (r : Nat) : Word := (x <<< r) ||| (x >>> (32 - r))

end Sys2Proof.Machine
end

