-- ==== Sys2Proof/Config.lean ====
section
/-! DEFINITION. The parameters of the engine (spec/00_scope.md R7) and the values the spec leaves open
(spec/93_implementation_defined.md), which have no body: no proof can see what they are. -/

namespace Sys2Proof.Config

/-- Entries of the hash table, `HT_SIZE = 2^14` (R7). -/
abbrev htSize : Nat := 16384

/-- `HASH_MUL` (R7, 41_hash_match.md R121). -/
def hashMul : Word := 2654435761#32

/-- `HASH_SHIFT = 32 − HT_LOG` (R7). -/
abbrev hashShift : Nat := 18

/-- `MINMATCH` (R7). -/
abbrev minMatch : Nat := 4

/-- `MFLIMIT` (R7). -/
abbrev mfLimit : Nat := 12

/-- `LASTLITERALS` (R7). -/
abbrev lastLiterals : Nat := 5

/-- `MAX_DISTANCE` (R7). -/
abbrev maxDistance : Nat := 65535

/-- `SKIP_TRIGGER` (R7). -/
abbrev skipTrigger : Nat := 6

/-- `ACCEL_MIN` (R7). -/
abbrev accelMin : Nat := 1

/-- `ACCEL_MAX` (R7). -/
abbrev accelMax : Nat := 65537

/-- `MAX_INPUT` (R7). -/
abbrev maxInput : Nat := 0x7E000000

/-- The number of byte addresses of the memory port, `2^ADDR_W` (R7). -/
abbrev addrSpace : Nat := 0x100000000

/-- `FRAME_MAGIC` (R7). -/
def frameMagic : Word := 0x184D2204#32

/-- `SKIP_MAGIC_LO` (R7). -/
def skipMagicLo : Word := 0x184D2A50#32

/-- `SKIP_MAGIC_HI` (R7). -/
def skipMagicHi : Word := 0x184D2A5F#32

/-- The constant of register `ID` (R2, 10_state.md R25). -/
def idValue : Word := 0x4C5A3401#32

/-- The platform's address of the register window, `ENGINE_BASE` (92_eei_decisions.md D3, I-ENGINE-BASE):
a parameter; no rule depends on it. DESIGN CHOICE: the spec gives the host's bus addresses no width (`ADDR_W` is the memory
port's); they have 32 bits here. Assumption log 1. -/
opaque engineBase : Word

/-- The bus address of a window offset (20_memory.md R69). DESIGN CHOICE: the spec does not say what becomes of a sum past the
top of the host's address map; it wraps at `2^32` here, and no step uses it. Assumption log 1. -/
def busAddress (off : BitVec 8) : Word := engineBase + off.setWidth 32

/-- FREE VALUE: entry `i` of a hash table that draw `k` leaves unspecified (I-HT-RESET, I-HT-ERR, I-ABORT).
Assumption log 3, 4, 5. -/
opaque freeEntry : Nat → Nat → Word

/-- FREE VALUE: the byte at address `a` that draw `k` leaves unspecified (I-DST-ERR, I-ABORT). Assumption log 4, 5. -/
opaque freeByte : Nat → Nat → Byte

/-- FREE VALUE: which of the racing values the engine's read number `tag` of address `a` takes, in draw `k`
(20_memory.md R73, I-RACE-SRC). Assumption log 6. -/
opaque readPick : Nat → Nat → Nat → Nat

/-- FREE VALUE: whether a byte that host and engine both write keeps the host's value, at address `a` in draw `k`
(20_memory.md R73, I-RACE-SRC). Assumption log 6. -/
opaque writePick : Nat → Nat → Bool

/-- FREE VALUE: whether a host's read of address `a` during a command still sees the value before it, in draw `k`
(20_memory.md R73). Assumption log 7. -/
opaque loadPick : Nat → Nat → Bool

end Sys2Proof.Config
end

