-- ==== Sys2Proof/Syntax.lean ====
section
/-! DEFINITION. The commands of the engine (spec/30_encoding.md R81, spec/opcode_table.json), the register map
(spec/10_state.md R22), and the actions of the agents outside the engine (spec/30_encoding.md R95). -/

namespace Sys2Proof

/-- A command. It has no operand field: every operand is in a register (R80, R84). -/
inductive Instr
  | nop
  | hmtClear
  | hmtHash
  | hmtProbe
  | hmtRead
  | hmtCompress
  | hmtBound
  | tencSeq
  | tencLast
  | fhPack
  | fhParse
  | fhSize
  | bhPack
  | bhEnd
  | bhParse
  | xxhInit
  | xxhUpdate
  | xxhDigest
  | xxhOneshot
  | xxhCheckBlock
  | xxhCheckContent
  deriving DecidableEq, Repr

/-- The registers of 10_state.md R22. -/
inductive Reg
  | id
  | ctrl
  | status
  | cmd
  | srcAddr
  | srcLen
  | dstAddr
  | dstCap
  | accel
  | opA
  | opB
  | r0
  | r1
  | r2
  | xxhSeed
  | fiCfg
  | fiCsizeLo
  | fiCsizeHi
  | fiDictId
  | fiDesc
  | fiBlockMax
  | fiSkipLen
  | fiMagic
  deriving DecidableEq, Repr

/-- One action of the host (R95). A register access names its width in bits and its offset in the window, so that the
accesses the spec does not define (10_state.md R21) can be written down and refused. Memory actions are single bytes
(20_memory.md R65): `mwr` and `mcp` of several bytes are several actions. Assumption log 21. -/
inductive HostAct
  | write (width : Nat) (off : BitVec 8) (value : Word)
  | read (width : Nat) (off : BitVec 8)
  | storeByte (addr : Word) (value : Byte)
  | loadByte (addr : Word)
  | copyByte (dst src : Word)
  | waitDone
  deriving DecidableEq, Repr

/-- One turn of the machine: the host acts, the engine completes the command in flight, the engine is reset by hardware
(70_reset_and_hazards.md R280), or the memory system answers the engine with a bus error (93 I-BUSERR). -/
inductive Turn
  | host (a : HostAct)
  | engine
  | hardReset
  | busError
  deriving DecidableEq, Repr

end Sys2Proof
end

