-- ==== Sys2Proof/Machine/State.lean ====
section
/-! DEFINITION. The state of the machine (spec/10_state.md R20 to R46): the engine's registers, `HT`, `XS` and the command
in flight, the memory it shares with the host, and the turns still to come. -/

namespace Sys2Proof.Machine

/-- The status codes (spec/60_exceptions.md R261). The engine never raises `corruptedData`, `decompressionFailed`,
`allocationFailed` or `invalidState`. -/
inductive StatusCode
  | ok
  | outputTooSmall
  | inputTooLarge
  | corruptedData
  | decompressionFailed
  | frameHeaderIncomplete
  | frameTypeUnknown
  | frameSizeWrong
  | headerVersionWrong
  | reservedFlagSet
  | maxBlockSizeInvalid
  | headerChecksumInvalid
  | blockChecksumInvalid
  | contentChecksumInvalid
  | allocationFailed
  | invalidState
  | illegalCommand
  | badOperand
  deriving DecidableEq, Repr

/-- `FI_CFG` (10_state.md R34), its fields; the reserved bits are not stored (R23). -/
structure FrameCfg where
  /-- bit 0, RW: blocks independent -/
  bindep : Bool
  /-- bit 1, RW: block checksum flag -/
  bchk : Bool
  /-- bit 2, RW: content checksum flag -/
  cchk : Bool
  /-- bit 3, RO: content size present in the last header parsed -/
  csizeP : Bool
  /-- bit 4, RO: dictionary ID present in the last header parsed -/
  dictIdP : Bool
  /-- bits 10..8, RW: block-size id -/
  bsid : BitVec 3
  /-- bit 12, RO: the last header parsed was a skippable frame's -/
  ftype : Bool
  deriving DecidableEq, Repr

/-- `XS`, the XXH32 stream state (10_state.md R42). -/
structure Stream where
  /-- the seed `XXH_INIT` latched -/
  seed : Word
  /-- stripe accumulator 1 -/
  v1 : Word
  /-- stripe accumulator 2 -/
  v2 : Word
  /-- stripe accumulator 3 -/
  v3 : Word
  /-- stripe accumulator 4 -/
  v4 : Word
  /-- bytes not yet consumed into a stripe, 0 to 15 of them -/
  buf : List Byte
  /-- bytes fed since `XXH_INIT`, modulo `2^64` -/
  total : DWord
  deriving DecidableEq, Repr

/-- `HT` (10_state.md R40): 16384 positions. -/
abbrev HashTable := Vector Word Config.htSize

/-- Memory (20_memory.md R60): the bytes that differ from what an unlisted address reads as, by rising address. -/
abbrev Memory := List Host.Cell

/-- A value one of the host's reads returned. -/
inductive HostRead
  | reg (off : BitVec 8) (value : Word)
  | byte (addr : Word) (value : Byte)
  deriving DecidableEq, Repr

/-- What the host's reads of memory have seen of a running command (20_memory.md R73), and a run of the command that shows
it: the model's own. Assumption log 7. -/
structure Glimpse where
  /-- the bytes the command had written when the host read them, the latest first -/
  seen : List Host.Cell
  /-- the draw whose free values the reads of that run take -/
  draw : Nat
  /-- how many of the latest races came after every read of that run -/
  later : Nat
  deriving DecidableEq, Repr

/-- The whole machine. -/
structure State where
  /-- `CTRL.IE` (10_state.md R26) -/
  ie : Bool
  /-- `STATUS.DONE` (R27) -/
  done : Bool
  /-- `STATUS.CMDREJ` (R27) -/
  cmdRej : Bool
  /-- `STATUS.ERRCODE` (R27) -/
  errCode : StatusCode
  /-- the last accepted command word, which a read of `CMD` returns (R28) -/
  cmd : Word
  /-- `busy_cmd` (R46); `STATUS.BUSY` is 1 exactly when it is a word. Assumption log 13. -/
  busyCmd : Option Word
  /-- `SRC_ADDR` (R29) -/
  srcAddr : Word
  /-- `SRC_LEN` (R29) -/
  srcLen : Word
  /-- `DST_ADDR` (R29) -/
  dstAddr : Word
  /-- `DST_CAP` (R29) -/
  dstCap : Word
  /-- `ACCEL` (R30) -/
  accel : Word
  /-- `OPA` (R31) -/
  opA : Word
  /-- `OPB` (R31) -/
  opB : Word
  /-- `R0` (R32) -/
  r0 : Word
  /-- `R1` (R32) -/
  r1 : Word
  /-- `R2` (R32) -/
  r2 : Word
  /-- `XXH_SEED` (R33) -/
  xxhSeed : Word
  /-- `FI_CFG` (R34) -/
  fiCfg : FrameCfg
  /-- `FI_CSIZE_LO` (R35) -/
  fiCsizeLo : Word
  /-- `FI_CSIZE_HI` (R35) -/
  fiCsizeHi : Word
  /-- `FI_DICTID` (R36) -/
  fiDictId : Word
  /-- `FI_DESC` (R37) -/
  fiDesc : Word
  /-- `FI_BLOCKMAX` (R38) -/
  fiBlockMax : Word
  /-- `FI_SKIPLEN` (R39) -/
  fiSkipLen : Word
  /-- `FI_MAGIC` (R39) -/
  fiMagic : Word
  /-- `HT` (R40) -/
  ht : HashTable
  /-- `XS` (R42) -/
  xs : Stream
  /-- memory, shared with the host (20_memory.md R60) -/
  mem : Memory
  /-- the turns still to come, the next one first: the model's own field, which holds the schedule. Assumption log 9. -/
  agenda : List Turn
  /-- the bytes the host overwrote in memory since the running command was accepted, each with the value it had, the
  latest first: the model's own field (20_memory.md R73). Assumption log 6. -/
  raced : List Host.Cell
  /-- what the host's reads have seen of the running command, if anything: the model's own field (R73). Assumption log 7. -/
  glimpse : Option Glimpse
  /-- the number of the next draw of free values: the model's own field. Assumption log 12. -/
  draws : Nat
  /-- what the host's reads returned, the latest first: the model's own field. Assumption log 12. -/
  hostReads : List HostRead
  deriving DecidableEq, Repr

/-- Why the machine stops with a fault. -/
inductive Fault
  /-- SAFE. Raised by a host's write to an operand register while `BUSY = 1` (spec/70_reset_and_hazards.md R286: "A model
  treats it as a fault of the host program"; 93 I-REG-BUSY). No command raises it. Assumption log 8. -/
  | operandWriteWhileBusy (r : Reg)
  deriving DecidableEq, Repr

/-- Why the machine refuses a step. -/
inductive Refusal
  /-- SAFE. Raised by `exec` for an instruction without a meaning; no arm does. -/
  | notModelled (mnemonic : String)
  /-- SAFE. Raised by a register access that is not 32 bits wide (10_state.md R21, 93 I-REG-WIDTH: `refuse`).
  Assumption log 15. -/
  | accessWidth (width : Nat)
  /-- SAFE. Raised by a register access at an offset that is not a multiple of 4 (10_state.md R21, 93 I-REG-WIDTH:
  `refuse`). Assumption log 15. -/
  | accessAlignment (off : BitVec 8)
  /-- SAFE. Raised by a bus error while a command runs (20_memory.md R70, 93 I-BUSERR: `refuse`). Assumption log 14. -/
  | busError
  deriving DecidableEq, Repr

/-- Entries `i`, `i+1`, … of the table of free values draw `k` makes. -/
def freeEntries (k : Nat) : Nat → Nat → List Word
  | 0, _ => []
  | n + 1, i => Config.freeEntry k i :: freeEntries k n (i + 1)

theorem freeEntries_length (k n i : Nat) : (freeEntries k n i).length = n := by
  induction n generalizing i with
  | zero => rfl
  | succ n ih => simp [freeEntries, ih]

/-- A hash table every entry of which is unspecified (93 I-HT-RESET, I-HT-ERR, I-ABORT). Assumption log 3. -/
def freeTable (k : Nat) : HashTable :=
  ⟨⟨freeEntries k Config.htSize 0⟩, freeEntries_length k Config.htSize 0⟩

/-- `FI_CFG` at reset (10_state.md R45). -/
def FrameCfg.reset : FrameCfg where
  bindep := false
  bchk := false
  cchk := false
  csizeP := false
  dictIdP := false
  bsid := 0#3
  ftype := false

/-- `XS` at reset (10_state.md R45). -/
def Stream.reset : Stream where
  seed := 0#32
  v1 := 0x24234428#32
  v2 := 0x85EBCA77#32
  v3 := 0#32
  v4 := 0x61C8864F#32
  buf := []
  total := 0#64

/-- The machine right after hardware reset (10_state.md R45, 70_reset_and_hazards.md R280), with memory that nothing has
written and no turn to come. `HT` is unspecified. Assumption log 2, 3, 10, 12. -/
def State.reset : State where
  ie := false
  done := false
  cmdRej := false
  errCode := .ok
  cmd := 0#32
  busyCmd := none
  srcAddr := 0#32
  srcLen := 0#32
  dstAddr := 0#32
  dstCap := 0#32
  accel := 0#32
  opA := 0#32
  opB := 0#32
  r0 := 0#32
  r1 := 0#32
  r2 := 0#32
  xxhSeed := 0#32
  fiCfg := FrameCfg.reset
  fiCsizeLo := 0#32
  fiCsizeHi := 0#32
  fiDictId := 0#32
  fiDesc := 0#32
  fiBlockMax := 0#32
  fiSkipLen := 0#32
  fiMagic := 0#32
  ht := freeTable 0
  xs := Stream.reset
  mem := []
  agenda := []
  raced := []
  glimpse := none
  draws := 1
  hostReads := []

end Sys2Proof.Machine
end

