-- ==== Sys2Proof/Machine/Ops.lean ====
section
/-! DEFINITION. The named operations over memory and over the command in flight: accepting a command, completing it with
OK, and ending it with a status code (spec/40_control.md R100 to R105, spec/60_exceptions.md R260, R263). The engine takes
no trap and returns from none (R266, R267): `State.raise` is the one shared way a command fails. -/

namespace Sys2Proof.Machine

/-- What a step of the machine answers. -/
abbrev Result := Host.Outcome State Fault Refusal

/-- What an address that nothing has written reads as. Assumption log 2. -/
def Memory.unlisted (_a : Nat) : Byte := 0#8

/-- The byte at an address (20_memory.md R60). -/
def Memory.read : Memory → Nat → Byte
  | [], a => Memory.unlisted a
  | c :: m, a => if c.1 = a then c.2 else Memory.read m a

/-- The cells of other addresses. -/
def Memory.erase (m : Memory) (a : Nat) : Memory := m.filter fun c => decide (c.1 ≠ a)

/-- A cell put in before the first one of a higher address. -/
def Memory.insert (a : Nat) (b : Byte) : Memory → Memory
  | [] => [(a, b)]
  | c :: m => if a < c.1 then (a, b) :: c :: m else c :: Memory.insert a b m

/-- Writing one byte; a byte equal to what an unlisted address reads as is not listed. -/
def Memory.write (m : Memory) (a : Nat) (b : Byte) : Memory :=
  if b = Memory.unlisted a then m.erase a else Memory.insert a b (m.erase a)

/-- Cells at rising addresses from `lo` on, all inside the address space, none equal to what it reads as unlisted. -/
def Memory.wfFrom : Nat → Memory → Bool
  | _, [] => true
  | lo, c :: m =>
    decide (lo ≤ c.1) && decide (c.1 < Config.addrSpace) && decide (c.2 ≠ Memory.unlisted c.1) &&
      Memory.wfFrom (c.1 + 1) m

/-- The canonical form of memory: equal memories are equal data. -/
def Memory.wf (m : Memory) : Bool := Memory.wfFrom 0 m

/-- `STATUS.BUSY` (10_state.md R27, R46). Assumption log 13. -/
def State.busy (s : State) : Bool := s.busyCmd.isSome

/-- Acceptance of a command word (40_control.md R100). -/
def State.accept (s : State) (w : Word) : State :=
  { s with cmd := w, busyCmd := some w, done := false, errCode := .ok, raced := [], glimpse := none }

/-- Completion (40_control.md R102, 10_state.md R32): the status code, the three results, and nothing in flight. -/
def State.finish (s : State) (code : StatusCode) (a b c : Word) : State :=
  { s with
    errCode := code, done := true, busyCmd := none, r0 := a, r1 := b, r2 := c, raced := [], glimpse := none
    draws := s.draws + 1 }

/-- `complete`: the command ends with OK (60_exceptions.md R260). -/
def State.complete (s : State) (a b c : Word) : Result := .next (s.finish .ok a b c)

/-- `raise E`: the command ends with status code `E`, and all three results are 0 (60_exceptions.md R260, R263). -/
def State.raise (s : State) (e : StatusCode) : Result := .next (s.finish e 0#32 0#32 0#32)

/-- `n` bytes from `base` on that draw `k` leaves unspecified; addresses outside the address space do not exist. -/
def Memory.freeFill (m : Memory) (k base : Nat) : Nat → Memory
  | 0 => m
  | n + 1 =>
    if base + n < Config.addrSpace then (m.freeFill k base n).write (base + n) (Config.freeByte k (base + n))
    else m.freeFill k base n

end Sys2Proof.Machine
end

