-- ==== Sys2Proof/Machine/Control.lean ====
section
/-! DEFINITION. The control commands (spec/40_control.md R110). -/

namespace Sys2Proof.Machine

/-- `NOP` (R110). -/
def execNop (s : State) : Result := s.complete 0#32 0#32 0#32

end Sys2Proof.Machine
end

