-- ==== Sys2Proof/Machine/Flags.lean ====
section
/-! DEFINITION. The status word and what is computed from it: the codes' numbers (spec/60_exceptions.md R261), `STATUS`
(spec/10_state.md R27), `CTRL` (R26), `FI_CFG` (R34) and the interrupt output (R44). -/

namespace Sys2Proof.Machine

/-- The number of a status code (60_exceptions.md R261). -/
def StatusCode.number : StatusCode → Byte
  | .ok => 0x00#8
  | .outputTooSmall => 0x01#8
  | .inputTooLarge => 0x02#8
  | .corruptedData => 0x03#8
  | .decompressionFailed => 0x04#8
  | .frameHeaderIncomplete => 0x05#8
  | .frameTypeUnknown => 0x06#8
  | .frameSizeWrong => 0x07#8
  | .headerVersionWrong => 0x08#8
  | .reservedFlagSet => 0x09#8
  | .maxBlockSizeInvalid => 0x0A#8
  | .headerChecksumInvalid => 0x0B#8
  | .blockChecksumInvalid => 0x0C#8
  | .contentChecksumInvalid => 0x0D#8
  | .allocationFailed => 0x0E#8
  | .invalidState => 0x0F#8
  | .illegalCommand => 0x80#8
  | .badOperand => 0x81#8

/-- `STATUS.ERR` equals `ERRCODE ≠ 0` (10_state.md R27). -/
def State.err (s : State) : Bool := s.errCode.number != 0#8

/-- What a read of `STATUS` returns (10_state.md R27). -/
def State.statusWord (s : State) : Word :=
  0#16 ++ s.errCode.number ++ 0#4 ++ bit s.cmdRej ++ bit s.err ++ bit s.done ++ bit s.busy

/-- What a read of `CTRL` returns: `SRST` and the reserved bits read 0 (10_state.md R26). -/
def State.ctrlWord (s : State) : Word := 0#31 ++ bit s.ie

/-- The level interrupt `IRQ = CTRL.IE & STATUS.DONE` (10_state.md R44). -/
def State.irq (s : State) : Bool := s.ie && s.done

/-- What a read of `FI_CFG` returns (10_state.md R34). -/
def FrameCfg.word (c : FrameCfg) : Word :=
  0#19 ++ bit c.ftype ++ 0#1 ++ c.bsid ++ 0#3 ++ bit c.dictIdP ++ bit c.csizeP ++ bit c.cchk ++ bit c.bchk ++
    bit c.bindep

/-- A host write of `FI_CFG`: only the RW fields take what is written (10_state.md R23, R34). -/
def FrameCfg.write (c : FrameCfg) (v : Word) : FrameCfg :=
  { c with bindep := v.getLsbD 0, bchk := v.getLsbD 1, cchk := v.getLsbD 2, bsid := v.extractLsb' 8 3 }

/-- A host write of `STATUS`: it clears `DONE` and `CMDREJ` where the value has a 1 (10_state.md R27). -/
def State.writeStatus (s : State) (v : Word) : State :=
  { s with done := s.done && !v.getLsbD 1, cmdRej := s.cmdRej && !v.getLsbD 3 }

end Sys2Proof.Machine
end

