-- ==== Sys2Proof/Machine/Operands.lean ====
section
/-! DEFINITION. The operands of a command (spec/30_encoding.md R84): the regions S and D with the checks every command
makes on them (spec/00_scope.md R11, spec/20_memory.md R66, R67, spec/40_control.md R104), and the engine's byte accesses
to memory (R63), with the races of R73. -/

namespace Sys2Proof.Machine

/-- A region of memory (00_scope.md R11). -/
structure Region where
  base : Nat
  len : Nat
  deriving DecidableEq, Repr

/-- A region is valid when it does not wrap around (00_scope.md R11). -/
def Region.valid (r : Region) : Bool := decide (r.base + r.len ≤ Config.addrSpace)

/-- Two regions overlap when neither is empty and they share an address (00_scope.md R11). -/
def Region.overlaps (r q : Region) : Bool :=
  decide (r.len ≠ 0) && decide (q.len ≠ 0) && decide (r.base < q.base + q.len) && decide (q.base < r.base + r.len)

/-- An address of a region. -/
def Region.contains (r : Region) (a : Nat) : Bool := decide (r.base ≤ a) && decide (a < r.base + r.len)

/-- S, the source region (10_state.md R29). -/
def State.src (s : State) : Region := ⟨s.srcAddr.toNat, s.srcLen.toNat⟩

/-- D, the destination region (10_state.md R29). -/
def State.dst (s : State) : Region := ⟨s.dstAddr.toNat, s.dstCap.toNat⟩

/-- The commands that use S (30_encoding.md R84, 20_memory.md R61). -/
def usesSrc : Instr → Bool
  | .nop => false
  | .hmtClear => false
  | .hmtHash => false
  | .hmtProbe => true
  | .hmtRead => false
  | .hmtCompress => true
  | .hmtBound => false
  | .tencSeq => true
  | .tencLast => true
  | .fhPack => false
  | .fhParse => true
  | .fhSize => true
  | .bhPack => false
  | .bhEnd => false
  | .bhParse => true
  | .xxhInit => false
  | .xxhUpdate => true
  | .xxhDigest => false
  | .xxhOneshot => true
  | .xxhCheckBlock => true
  | .xxhCheckContent => false

/-- The commands that use D (30_encoding.md R84, 20_memory.md R61). -/
def usesDst : Instr → Bool
  | .nop => false
  | .hmtClear => false
  | .hmtHash => false
  | .hmtProbe => false
  | .hmtRead => false
  | .hmtCompress => true
  | .hmtBound => false
  | .tencSeq => true
  | .tencLast => true
  | .fhPack => true
  | .fhParse => false
  | .fhSize => false
  | .bhPack => true
  | .bhEnd => true
  | .bhParse => false
  | .xxhInit => false
  | .xxhUpdate => false
  | .xxhDigest => false
  | .xxhOneshot => false
  | .xxhCheckBlock => false
  | .xxhCheckContent => false

/-- A command that uses S: the check of 40_control.md R104 step 2, then its own rule. -/
def withSrc (s : State) (body : Result) : Result :=
  if s.src.valid then body else s.raise .badOperand

/-- A command that uses D: the check of 40_control.md R104 step 2, then its own rule. -/
def withDst (s : State) (body : Result) : Result :=
  if s.dst.valid then body else s.raise .badOperand

/-- A command that uses S and D: the checks of 40_control.md R104 steps 2 and 3, then its own rule. -/
def withSrcDst (s : State) (body : Result) : Result :=
  if !s.src.valid || !s.dst.valid then s.raise .badOperand
  else if s.src.overlaps s.dst then s.raise .badOperand
  else body

/-- The values the host overwrote at an address since the running command was accepted (20_memory.md R73). -/
def State.overwritten (s : State) (a : Nat) : List Byte :=
  (s.raced.filter fun c => decide (c.1 = a)).map fun c => c.2

/-- The draw whose free values the engine's reads take. Assumption log 6, 7. -/
def State.readDraw (s : State) : Nat :=
  match s.glimpse with
  | none => s.draws
  | some g => g.draw

/-- How many of the latest races came after every read of the engine. Assumption log 7. -/
def State.readLater (s : State) : Nat :=
  match s.glimpse with
  | none => 0
  | some g => g.later

/-- The values the engine's reads of an address may answer, the latest first: the byte that stands there and those the host
overwrote, but none the host wrote after every read. Assumption log 6, 7. -/
def State.readable (s : State) (a : Nat) : List Byte :=
  (s.mem.read a :: s.overwritten a).drop ((s.raced.take s.readLater).filter fun c => decide (c.1 = a)).length

/-- The engine's read number `tag` of the byte at an address: the byte that stands there; of a byte the host wrote during
the command, that byte or one it overwrote, independently per read (20_memory.md R73, 93 I-RACE-SRC).
Assumption log 6. -/
def State.engineRead (s : State) (tag a : Nat) : Byte :=
  match s.overwritten a with
  | [] => s.mem.read a
  | _ :: _ =>
    (s.readable a).getD (Config.readPick s.readDraw tag a % (s.readable a).length) (s.mem.read a)

/-- The engine's write of a byte into memory `m`; a byte the host wrote during the command keeps the host's value or takes
the engine's (20_memory.md R73, 93 I-RACE-SRC). Assumption log 6. -/
def State.engineWrite (s : State) (m : Memory) (a : Nat) (b : Byte) : Memory :=
  match s.overwritten a with
  | [] => m.write a b
  | _ :: _ => if Config.writePick s.draws a then m else m.write a b

/-- The engine's write of a byte string into memory `m` (20_memory.md R63). -/
def State.engineWrites (s : State) (m : Memory) : Nat → List Byte → Memory
  | _, [] => m
  | a, b :: bs => s.engineWrites (s.engineWrite m a b) (a + 1) bs

/-- `IN(i) = Byte(SRC_ADDR + i)` (41_hash_match.md R120), as read number `tag` of the command. -/
def State.srcByte (s : State) (tag i : Nat) : Byte := s.engineRead tag (s.srcAddr.toNat + i)

/-- `MemRead(SRC_ADDR, SRC_LEN)`: the bytes of S (00_scope.md R10). -/
def State.srcBytes (s : State) (tag : Nat) : List Byte := (List.range s.srcLen.toNat).map (s.srcByte tag)

/-- `MemWrite(DST_ADDR, len(bs), bs)` (00_scope.md R10). -/
def State.writeDst (s : State) (bs : List Byte) : State :=
  { s with mem := s.engineWrites s.mem s.dstAddr.toNat bs }

/-- `LE32` at position `i` of an input that is read through `rd` (00_scope.md R10, 41_hash_match.md R120). -/
def readLe32 (rd : Nat → Nat → Byte) (tag i : Nat) : Word :=
  le32 (rd tag i) (rd tag (i + 1)) (rd tag (i + 2)) (rd tag (i + 3))

end Sys2Proof.Machine
end

