-- ==== Sys2Proof/Machine/Xxh32.lean ====
section
/-! DEFINITION. XXH32, one-shot and streaming (spec/44_xxh32.md R221 to R232). Assumption log 17. -/

namespace Sys2Proof.Machine

/-- `P1` (R221). -/
def xxhP1 : Word := 0x9E3779B1#32
/-- `P2` (R221). -/
def xxhP2 : Word := 0x85EBCA77#32
/-- `P3` (R221). -/
def xxhP3 : Word := 0xC2B2AE3D#32
/-- `P4` (R221). -/
def xxhP4 : Word := 0x27D4EB2F#32
/-- `P5` (R221). -/
def xxhP5 : Word := 0x165667B1#32

/-- `ROUND(acc, w)` (R222). -/
def xxhRound (acc w : Word) : Word := rotl32 (acc + w * xxhP2) 13 * xxhP1

/-- `LANE(d, i)` (R222). -/
def lane (d : List Byte) (i : Nat) : Word :=
  le32 (d.getD i 0#8) (d.getD (i + 1) 0#8) (d.getD (i + 2) 0#8) (d.getD (i + 3) 0#8)

/-- `AVALANCHE(h)` (R222). -/
def avalanche (h0 : Word) : Word :=
  let h1 := (h0 ^^^ (h0 >>> 15)) * xxhP2
  let h2 := (h1 ^^^ (h1 >>> 13)) * xxhP3
  h2 ^^^ (h2 >>> 16)

/-- The four stripe accumulators. -/
structure Lanes where
  v1 : Word
  v2 : Word
  v3 : Word
  v4 : Word
  deriving DecidableEq, Repr

/-- The accumulators a seed starts with (R223, R230). -/
def Lanes.start (seed : Word) : Lanes := ⟨seed + xxhP1 + xxhP2, seed + xxhP2, seed, seed - xxhP1⟩

/-- One 16-byte stripe, the first of `d` (R223, R231). -/
def Lanes.stripe (v : Lanes) (d : List Byte) : Lanes :=
  ⟨xxhRound v.v1 (lane d 0), xxhRound v.v2 (lane d 4), xxhRound v.v3 (lane d 8), xxhRound v.v4 (lane d 12)⟩

/-- The first `k` stripes of `d` (R223, R231). -/
def Lanes.stripes : Nat → Lanes → List Byte → Lanes
  | 0, v, _ => v
  | k + 1, v, d => Lanes.stripes k (v.stripe d) (d.drop 16)

/-- The accumulators folded into one word (R223, R232). -/
def Lanes.merge (v : Lanes) : Word := rotl32 v.v1 1 + rotl32 v.v2 7 + rotl32 v.v3 12 + rotl32 v.v4 18

/-- The 4-byte tail loop, `k` turns (R223). -/
def tailWords : Nat → Word → List Byte → Word
  | 0, h, _ => h
  | k + 1, h, d => tailWords k (rotl32 (h + lane d 0 * xxhP3) 17 * xxhP4) (d.drop 4)

/-- The 1-byte tail loop over `d` (R223). -/
def tailBytes : Word → List Byte → Word
  | h, [] => h
  | h, b :: d => tailBytes (rotl32 (h + b.setWidth 32 * xxhP5) 11 * xxhP1) d

/-- Both tail loops over the bytes left after the stripes (R223, R232). -/
def xxhTail (h : Word) (d : List Byte) : Word :=
  tailBytes (tailWords (d.length / 4) h d) (d.drop (4 * (d.length / 4)))

/-- `XXH32(d, seed)` (R223). -/
def xxh32 (d : List Byte) (seed : Word) : Word :=
  let stripes := d.length / 16
  let h :=
    if 16 ≤ d.length then (Lanes.stripes stripes (Lanes.start seed) d).merge else seed + xxhP5
  avalanche (xxhTail (h + BitVec.ofNat 32 d.length) (d.drop (16 * stripes)))

/-- The stream's accumulators. -/
def Stream.lanes (xs : Stream) : Lanes := ⟨xs.v1, xs.v2, xs.v3, xs.v4⟩

/-- `STREAM_INIT(seed)` (R230). -/
def Stream.init (seed : Word) : Stream :=
  let v := Lanes.start seed
  { seed := seed, v1 := v.v1, v2 := v.v2, v3 := v.v3, v4 := v.v4, buf := [], total := 0#64 }

/-- `STREAM_UPDATE(XS, d)` (R231). -/
def Stream.update (xs : Stream) (d : List Byte) : Stream :=
  let b := xs.buf ++ d
  let stripes := b.length / 16
  let v := Lanes.stripes stripes xs.lanes b
  { xs with
    v1 := v.v1, v2 := v.v2, v3 := v.v3, v4 := v.v4
    buf := b.drop (16 * stripes)
    total := xs.total + BitVec.ofNat 64 d.length }

/-- `STREAM_DIGEST(XS)` (R232). -/
def Stream.digest (xs : Stream) : Word :=
  let h := if 16 ≤ xs.total.toNat then xs.lanes.merge else xs.seed + xxhP5
  avalanche (xxhTail (h + xs.total.setWidth 32) xs.buf)

end Sys2Proof.Machine
end

