-- ==== Sys2Proof/Machine/FrameHeader.lean ====
section
/-! DEFINITION. The frame header and the block-header word (spec/43_frame_header.md R180 to R191, spec/30_encoding.md R89
to R94). -/

namespace Sys2Proof.Machine

/-- `BLOCKMAX(id)`, for the legal ids 4 to 7; there is none for any other (R180). -/
def blockMax (id : BitVec 3) : Option Word :=
  match id.toNat with
  | 4 => some 65536#32
  | 5 => some 262144#32
  | 6 => some 1048576#32
  | 7 => some 4194304#32
  | _ => none

/-- `FLG` (R181). -/
def packFlg (cfg : FrameCfg) (csize : DWord) (dictId : Word) : Byte :=
  0b01#2 ++ bit cfg.bindep ++ bit cfg.bchk ++ bit (csize != 0#64) ++ bit cfg.cchk ++ 0#1 ++ bit (dictId != 0#32)

/-- `BD` (R181). -/
def packBd (id : BitVec 3) : Byte := 0#1 ++ id ++ 0#4

/-- `HSIZE(FLG)` (R182). -/
def headerSize (flg : Byte) : Nat := 7 + 8 * (flg.getLsbD 3).toNat + 4 * (flg.getLsbD 0).toNat

/-- `HC(desc)`, bits 15..8 of the descriptor's XXH32 with seed 0 (R185). -/
def headerChecksum (desc : List Byte) : Byte := (xxh32 desc 0#32).extractLsb' 8 8

/-- The frame descriptor of a header (R183, R186). -/
def descriptor (cfg : FrameCfg) (csize : DWord) (dictId : Word) : List Byte :=
  packFlg cfg csize dictId :: packBd cfg.bsid ::
    ((if csize ≠ 0#64 then leBytes 8 csize.toNat else []) ++ (if dictId ≠ 0#32 then leBytes 4 dictId.toNat else []))

/-- The bytes of `PACK_HDR` for a legal block-size id (R186). -/
def packHeader (cfg : FrameCfg) (csize : DWord) (dictId : Word) : List Byte :=
  leBytes 4 Config.frameMagic.toNat ++ descriptor cfg csize dictId ++ [headerChecksum (descriptor cfg csize dictId)]

/-- `CSIZE` (10_state.md R35). -/
def State.csize (s : State) : DWord := s.fiCsizeHi ++ s.fiCsizeLo

/-- What `PARSE_HDR` returns (R187). -/
inductive Parsed
  | regular (flg bd hc : Byte) (size : Nat) (csize : DWord) (dictId : Word)
  | skippable (magic len : Word)
  deriving DecidableEq, Repr

/-- The skippable frames' magic numbers (R188). -/
def isSkipMagic (magic : Word) : Bool := decide (Config.skipMagicLo ≤ magic) && decide (magic ≤ Config.skipMagicHi)

/-- `LE64` at position `i`. -/
def readLe64 (rd : Nat → Nat → Byte) (tag i : Nat) : DWord := readLe32 rd tag (i + 4) ++ readLe32 rd tag i

/-- The bytes `B(a) … B(b − 1)`. -/
def readRange (rd : Nat → Nat → Byte) (tag a b : Nat) : List Byte := (List.range (b - a)).map fun i => rd tag (a + i)

/-- Checks 5 to 13 of `PARSE_HDR`: a frame whose magic is the regular one (R187). DESIGN CHOICE: R187 names `B(H − 1)` in
check 12 and again in what it returns, and does not say whether that is one read or two; it is one here, so that even in a
race the checksum byte reported is the one that was checked. Assumption log 6. -/
def parseRegular (rd : Nat → Nat → Byte) (n : Nat) : Except StatusCode Parsed :=
  if n < 7 then .error .frameHeaderIncomplete
  else
    let flg := rd 6 4
    let bd := rd 6 5
    if flg.extractLsb' 6 2 ≠ 0b01#2 then .error .headerVersionWrong
    else if flg.getLsbD 1 then .error .reservedFlagSet
    else if bd.getLsbD 7 ∨ bd.extractLsb' 0 4 ≠ 0#4 then .error .reservedFlagSet
    else if blockMax (bd.extractLsb' 4 3) = none then .error .maxBlockSizeInvalid
    else
      let size := headerSize flg
      if n < size then .error .frameHeaderIncomplete
      else
        let hc := rd 12 (size - 1)
        if hc ≠ headerChecksum (readRange rd 11 4 (size - 1)) then .error .headerChecksumInvalid
        else
          let csize := if flg.getLsbD 3 then readLe64 rd 13 6 else 0#64
          let dictId := if flg.getLsbD 0 then readLe32 rd 14 (6 + 8 * (flg.getLsbD 3).toNat) else 0#32
          .ok (.regular flg bd hc size csize dictId)

/-- `PARSE_HDR` on the `n` bytes read through `rd` (R187). -/
def parseHeader (rd : Nat → Nat → Byte) (n : Nat) : Except StatusCode Parsed :=
  if n < 4 then .error .frameHeaderIncomplete
  else
    let magic := readLe32 rd 2 0
    if isSkipMagic magic then
      if n < 8 then .error .frameHeaderIncomplete else .ok (.skippable magic (readLe32 rd 3 4))
    else if magic ≠ Config.frameMagic then .error .frameTypeUnknown
    else parseRegular rd n

/-- `FI_CFG` after a regular header (R201). -/
def FrameCfg.ofHeader (flg bd : Byte) : FrameCfg where
  bindep := flg.getLsbD 5
  bchk := flg.getLsbD 4
  cchk := flg.getLsbD 2
  csizeP := flg.getLsbD 3
  dictIdP := flg.getLsbD 0
  bsid := bd.extractLsb' 4 3
  ftype := false

/-- `FI_CFG` after a skippable frame's header (R201). -/
def FrameCfg.skippable : FrameCfg := { FrameCfg.reset with ftype := true }

/-- `FLG | BD << 8 | HC << 16 | size << 24` (R200, R201). -/
def headerWord (flg bd hc : Byte) (size : Nat) : Word := BitVec.ofNat 8 size ++ hc ++ bd ++ flg

/-- The frame-info registers `FH_PACK` writes (R200). -/
def State.recordPacked (s : State) (flg bd hc : Byte) (size : Nat) (max : Word) : State :=
  { s with fiDesc := headerWord flg bd hc size, fiBlockMax := max }

/-- The frame-info registers `FH_PARSE` writes (R201). -/
def State.recordParsed (s : State) : Parsed → State
  | .regular flg bd hc size csize dictId =>
    { s with
      fiCfg := FrameCfg.ofHeader flg bd
      fiCsizeLo := csize.extractLsb' 0 32
      fiCsizeHi := csize.extractLsb' 32 32
      fiDictId := dictId
      fiDesc := headerWord flg bd hc size
      fiBlockMax := (blockMax (bd.extractLsb' 4 3)).getD 0#32
      fiSkipLen := 0#32
      fiMagic := Config.frameMagic }
  | .skippable magic len =>
    { s with
      fiCfg := FrameCfg.skippable
      fiCsizeLo := 0#32
      fiCsizeHi := 0#32
      fiDictId := 0#32
      fiDesc := headerWord 0#8 0#8 0#8 8
      fiBlockMax := 0#32
      fiSkipLen := len
      fiMagic := magic }

/-- `BLOCK_WORD(c, r)`, or none where the chosen length is refused (R189). -/
def blockWord (c r : Word) : Option Word :=
  let raw := decide (r ≤ c)
  let len := if raw then r else c
  if len = 0#32 ∨ 0x7FFFFFFF#32 < len then none else some (bit raw ++ len.extractLsb' 0 31)

end Sys2Proof.Machine
end

