-- ==== Sys2Proof/Machine/Fhdr.lean ====
section
/-! DEFINITION. The commands of the frame header unit (spec/43_frame_header.md R200 to R205). -/

namespace Sys2Proof.Machine

/-- `FH_PACK` (R200). -/
def execFhPack (s : State) : Result :=
  withDst s <|
    match blockMax s.fiCfg.bsid with
    | none => s.raise .maxBlockSizeInvalid
    | some max =>
      let flg := packFlg s.fiCfg s.csize s.fiDictId
      let bd := packBd s.fiCfg.bsid
      let hc := headerChecksum (descriptor s.fiCfg s.csize s.fiDictId)
      let bytes := packHeader s.fiCfg s.csize s.fiDictId
      if bytes.length > s.dstCap.toNat then s.raise .outputTooSmall
      else
        ((s.writeDst bytes).recordPacked flg bd hc bytes.length max).complete (BitVec.ofNat 32 bytes.length)
          (headerWord flg bd hc 0) 0#32

/-- `FH_PARSE` (R201). -/
def execFhParse (s : State) : Result :=
  withSrc s <|
    match parseHeader s.srcByte s.srcLen.toNat with
    | .error e => s.raise e
    | .ok (.regular flg bd hc size csize dictId) =>
      (s.recordParsed (.regular flg bd hc size csize dictId)).complete (BitVec.ofNat 32 size) (headerWord flg bd hc 0)
        0#32
    | .ok (.skippable magic len) => (s.recordParsed (.skippable magic len)).complete 8#32 len 1#32

/-- `FH_SIZE` (R202). -/
def execFhSize (s : State) : Result :=
  withSrc s <|
    if s.srcLen.toNat < 4 then s.raise .frameHeaderIncomplete
    else
      let magic := readLe32 s.srcByte 2 0
      if isSkipMagic magic then s.complete 8#32 0#32 1#32
      else if magic ≠ Config.frameMagic then s.raise .frameTypeUnknown
      else if s.srcLen.toNat < 5 then s.raise .frameHeaderIncomplete
      else s.complete (BitVec.ofNat 32 (headerSize (s.srcByte 6 4))) 0#32 0#32

/-- `BH_PACK` (R203). -/
def execBhPack (s : State) : Result :=
  withDst s <|
    match blockWord s.opA s.opB with
    | none => s.raise .badOperand
    | some word =>
      if s.dstCap.toNat < 4 then s.raise .outputTooSmall
      else (s.writeDst (leBytes 4 word.toNat)).complete 4#32 word (word >>> 31)

/-- `BH_END` (R204). -/
def execBhEnd (s : State) : Result :=
  withDst s <|
    if s.dstCap.toNat < 4 then s.raise .outputTooSmall
    else (s.writeDst [0#8, 0#8, 0#8, 0#8]).complete 4#32 0#32 0#32

/-- `BH_PARSE` (R205). -/
def execBhParse (s : State) : Result :=
  withSrc s <|
    if s.srcLen.toNat < 4 then s.raise .frameSizeWrong
    else
      let word := readLe32 s.srcByte 1 0
      let len := word &&& 0x7FFFFFFF#32
      s.complete len (word >>> 31) (if len = 0#32 then 1#32 else 0#32)

end Sys2Proof.Machine
end

