-- ==== Sys2Proof/Machine/Sequence.lean ====
section
/-! DEFINITION. The LZ4 sequence encodings (spec/42_token_encoder.md R160 to R163, spec/30_encoding.md R85 to R88). -/

namespace Sys2Proof.Machine

/-- `NIB(v)` (R160). -/
def nib (v : Nat) : Nat := if v < 15 then v else 15

/-- `EXTBYTES(v)` (R160). -/
def extBytes (v : Nat) : List Byte :=
  if v < 15 then [] else List.replicate ((v - 15) / 255) 0xFF#8 ++ [BitVec.ofNat 8 ((v - 15) % 255)]

/-- `EXT(v)`, the number of extension bytes (R160). -/
def extLen (v : Nat) : Nat := if v < 15 then 0 else 1 + (v - 15) / 255

/-- The token byte of nibbles `hi` and `lo` (30_encoding.md R85). -/
def tokenByte (hi lo : Nat) : Byte := BitVec.ofNat 4 hi ++ BitVec.ofNat 4 lo

/-- `SEQ_BYTES(lits, M, off)` (R161). -/
def seqBytes (lits : List Byte) (m off : Nat) : List Byte :=
  tokenByte (nib lits.length) (nib (m - Config.minMatch)) :: extBytes lits.length ++ lits ++ leBytes 2 off ++
    extBytes (m - Config.minMatch)

/-- `LAST_BYTES(lits)` (R162). -/
def lastBytes (lits : List Byte) : List Byte := tokenByte (nib lits.length) 0 :: extBytes lits.length ++ lits

/-- `SEQ_SIZE(L, M)` (R163). -/
def seqSize (l m : Nat) : Nat := 1 + extLen l + l + 2 + extLen (m - Config.minMatch)

/-- `LAST_SIZE(L)` (R163). -/
def lastSize (l : Nat) : Nat := 1 + extLen l + l

end Sys2Proof.Machine
end

