-- ==== Sys2Proof/Machine/HashMatch.lean ====
section
/-! DEFINITION. The hash, the table probe and the fast-mode block compressor (spec/41_hash_match.md R120 to R145). An input
of length `n` is read through `rd`, a function of the read's number and the position: a read of one position may answer
differently each time only where the host races with the command (spec/20_memory.md R73). -/

namespace Sys2Proof.Machine

/-- `HASH(x)` (R121). -/
def hashWord (x : Word) : Word := (x * Config.hashMul) >>> Config.hashShift

theorem hashWord_lt (x : Word) : (hashWord x).toNat < Config.htSize := by
  have h := (x * Config.hashMul).isLt
  simp only [hashWord, Config.hashShift, Config.htSize, BitVec.toNat_ushiftRight, Nat.shiftRight_eq_div_pow]
  omega

/-- `HASH(x)` as an index of the table (R122). -/
def hashIndex (x : Word) : Fin Config.htSize := ⟨(hashWord x).toNat, hashWord_lt x⟩

/-- A table every entry of which is 0 (R132, R140). -/
def zeroTable : HashTable := Vector.replicate Config.htSize 0#32

/-- What a probe answers: the entry read, the index, whether the entry is a valid candidate, and the table after it. -/
structure Probe where
  cand : Word
  index : Word
  valid : Bool
  ht : HashTable
  deriving Repr

/-- The number of a read the compressor makes: every read of a command has its own (20_memory.md R73). -/
def readTag (ip k : Nat) : Nat := 8 * ip + k

/-- `PROBE(p)` (R126). -/
def probe (rd : Nat → Nat → Byte) (ht : HashTable) (p : Nat) : Probe :=
  let x := readLe32 rd (readTag p 0) p
  let cand := ht[hashIndex x]
  { cand := cand
    index := hashWord x
    valid := decide (0 < cand.toNat) && decide (cand.toNat < p) && decide (p - cand.toNat ≤ Config.maxDistance) &&
      readLe32 rd (readTag p 1) cand.toNat == readLe32 rd (readTag p 2) p
    ht := ht.set (hashIndex x) (BitVec.ofNat 32 p) }

/-- How a search ends: at a match (its position and its candidate), or not; and the table after it. -/
structure Search where
  hit : Option (Nat × Nat)
  ht : HashTable
  deriving Repr

/-- The inner probe loop (R132), at most `fuel` turns; `n` turns always suffice (R136, assumption log 18). -/
def search (rd : Nat → Nat → Byte) (n : Nat) : Nat → HashTable → Nat → Nat → Search
  | 0, ht, _, _ => ⟨none, ht⟩
  | fuel + 1, ht, matchNb, ip =>
    if ip + Config.mfLimit > n then ⟨none, ht⟩
    else
      let r := probe rd ht ip
      if r.valid then ⟨some (ip, r.cand.toNat), r.ht⟩
      else search rd n fuel r.ht (matchNb + 1) (ip + matchNb >>> Config.skipTrigger)

/-- The match extension loop (R132, R134): the position at which the match ends. -/
def extend (rd : Nat → Nat → Byte) (n : Nat) : Nat → Nat → Nat → Nat
  | 0, ip, _ => ip
  | fuel + 1, ip, m =>
    if ip + Config.lastLiterals < n ∧ rd (readTag ip 3) ip = rd (readTag ip 4) m then
      extend rd n fuel (ip + 1) (m + 1)
    else ip

/-- `IN[a .. b)`, as the literals a sequence copies. -/
def literals (rd : Nat → Nat → Byte) (a b : Nat) : List Byte :=
  (List.range (b - a)).map fun i => rd (readTag 0 5) (a + i)

/-- A compressed block and the table after it. -/
structure Block where
  out : List Byte
  ht : HashTable
  deriving Repr

/-- The outer loop (R132) from `anchor` and `ip` on, at most `fuel` turns; `n` turns always suffice (R136,
assumption log 18). -/
def fastFrom (rd : Nat → Nat → Byte) (n acc : Nat) : Nat → HashTable → Nat → Nat → Block
  | 0, ht, anchor, _ => ⟨lastBytes (literals rd anchor n), ht⟩
  | fuel + 1, ht, anchor, ip =>
    match search rd n n ht (acc <<< Config.skipTrigger) ip with
    | ⟨none, ht'⟩ => ⟨lastBytes (literals rd anchor n), ht'⟩
    | ⟨some (mstart, cand), ht'⟩ =>
      let ip' := extend rd n n (mstart + Config.minMatch) (cand + Config.minMatch)
      let rest := fastFrom rd n acc fuel ht' ip' ip'
      ⟨seqBytes (literals rd anchor mstart) (ip' - mstart) (mstart - cand) ++ rest.out, rest.ht⟩

/-- `FAST(n, acc)` (R132): the block and the table. -/
def fast (rd : Nat → Nat → Byte) (n acc : Nat) : Block :=
  if n = 0 then ⟨[], zeroTable⟩ else fastFrom rd n acc n zeroTable 0 1

/-- `clamp(ACCEL)` (R131). -/
def clampAccel (accel : Word) : Nat :=
  if accel.toNat < Config.accelMin then Config.accelMin
  else if accel.toNat > Config.accelMax then Config.accelMax
  else accel.toNat

/-- `compress_bound(n)` (R145). -/
def compressBound (n : Nat) : Nat := n + n / 255 + 16

end Sys2Proof.Machine
end

