-- ==== Sys2Proof/Machine/Hmt.lean ====
section
/-! DEFINITION. The commands of the hash-match table unit (spec/41_hash_match.md R140 to R145). -/

namespace Sys2Proof.Machine

/-- `HMT_CLEAR` (R140). -/
def execHmtClear (s : State) : Result := { s with ht := zeroTable }.complete 0#32 0#32 0#32

/-- `HMT_HASH` (R141). -/
def execHmtHash (s : State) : Result := s.complete (hashWord s.opA) 0#32 0#32

/-- `HMT_PROBE` (R142). -/
def execHmtProbe (s : State) : Result :=
  withSrc s <|
    if s.opA.toNat + 4 > s.srcLen.toNat then s.raise .badOperand
    else
      let r := probe s.srcByte s.ht s.opA.toNat
      { s with ht := r.ht }.complete r.cand r.index (if r.valid then 1#32 else 0#32)

/-- `HMT_READ` (R143). -/
def execHmtRead (s : State) : Result :=
  if h : s.opA.toNat < Config.htSize then s.complete s.ht[s.opA.toNat] 0#32 0#32 else s.raise .badOperand

/-- The state a failed compression leaves: every byte of D and every entry of `HT` holds an unspecified value (R137, 93
I-DST-ERR, I-HT-ERR). Assumption log 4. -/
def State.discardBlock (s : State) : State :=
  { s with ht := freeTable s.draws, mem := s.mem.freeFill s.draws s.dst.base s.dst.len }

/-- `HMT_COMPRESS` (R144). -/
def execHmtCompress (s : State) : Result :=
  withSrcDst s <|
    if s.srcLen.toNat > Config.maxInput then s.raise .inputTooLarge
    else
      let b := fast s.srcByte s.srcLen.toNat (clampAccel s.accel)
      if b.out.length > s.dstCap.toNat then s.discardBlock.raise .outputTooSmall
      else { s.writeDst b.out with ht := b.ht }.complete (BitVec.ofNat 32 b.out.length) 0#32 0#32

/-- `HMT_BOUND` (R145). -/
def execHmtBound (s : State) : Result :=
  if s.opA.toNat > Config.maxInput then s.raise .inputTooLarge
  else s.complete (BitVec.ofNat 32 (compressBound s.opA.toNat)) 0#32 0#32

end Sys2Proof.Machine
end

