-- ==== Sys2Proof/Machine/Tenc.lean ====
section
/-! DEFINITION. The commands of the token encoder unit (spec/42_token_encoder.md R170, R171). -/

namespace Sys2Proof.Machine

/-- Writing one packed sequence to D, or ending with `OutputTooSmall` having written nothing (R165): the results are its
length and its token byte. -/
def State.emitSequence (s : State) (bs : List Byte) : Result :=
  if bs.length > s.dstCap.toNat then s.raise .outputTooSmall
  else (s.writeDst bs).complete (BitVec.ofNat 32 bs.length) ((bs.headD 0#8).setWidth 32) 0#32

/-- `TENC_SEQ` (R170). -/
def execTencSeq (s : State) : Result :=
  withSrcDst s <|
    if s.opA.toNat < Config.minMatch ∨ s.opA.toNat - Config.minMatch > Config.maxInput then s.raise .badOperand
    else if s.opB.toNat = 0 ∨ s.opB.toNat > Config.maxDistance then s.raise .badOperand
    else if s.srcLen.toNat > Config.maxInput then s.raise .inputTooLarge
    else s.emitSequence (seqBytes (s.srcBytes 1) s.opA.toNat s.opB.toNat)

/-- `TENC_LAST` (R171). -/
def execTencLast (s : State) : Result :=
  withSrcDst s <|
    if s.srcLen.toNat > Config.maxInput then s.raise .inputTooLarge
    else s.emitSequence (lastBytes (s.srcBytes 1))

end Sys2Proof.Machine
end

