-- ==== Sys2Proof/Machine/Xxh.lean ====
section
/-! DEFINITION. The commands of the XXH32 checksum unit (spec/44_xxh32.md R240 to R245). -/

namespace Sys2Proof.Machine

/-- `XXH_INIT` (R240). -/
def execXxhInit (s : State) : Result := { s with xs := Stream.init s.xxhSeed }.complete 0#32 0#32 0#32

/-- `XXH_UPDATE` (R241). -/
def execXxhUpdate (s : State) : Result :=
  withSrc s <|
    let xs := s.xs.update (s.srcBytes 1)
    { s with xs := xs }.complete (xs.total.extractLsb' 0 32) (xs.total.extractLsb' 32 32) 0#32

/-- `XXH_DIGEST` (R242). -/
def execXxhDigest (s : State) : Result := s.complete s.xs.digest 0#32 0#32

/-- `XXH_ONESHOT` (R243). -/
def execXxhOneshot (s : State) : Result := withSrc s <| s.complete (xxh32 (s.srcBytes 1) s.xxhSeed) 0#32 0#32

/-- `XXH_CHECK_BLOCK` (R244). -/
def execXxhCheckBlock (s : State) : Result :=
  withSrc s <|
    let h := xxh32 (s.srcBytes 1) s.xxhSeed
    if h ≠ s.opA then s.raise .blockChecksumInvalid else s.complete h 0#32 0#32

/-- `XXH_CHECK_CONTENT` (R245). -/
def execXxhCheckContent (s : State) : Result :=
  let h := s.xs.digest
  if h ≠ s.opA then s.raise .contentChecksumInvalid else s.complete h 0#32 0#32

end Sys2Proof.Machine
end

