-- ==== Sys2Proof/Machine/Dispatch.lean ====
section
/-! DEFINITION. Which meaning each command has (spec/30_encoding.md R81): one arm per constructor of `Instr`. -/

namespace Sys2Proof.Machine

/-- The completion step of a command (spec/40_control.md R102). -/
def exec (i : Instr) (s : State) : Host.Outcome State Fault Refusal :=
  match i with
  | .nop => Sys2Proof.Machine.execNop s
  | .hmtClear => Sys2Proof.Machine.execHmtClear s
  | .hmtHash => Sys2Proof.Machine.execHmtHash s
  | .hmtProbe => Sys2Proof.Machine.execHmtProbe s
  | .hmtRead => Sys2Proof.Machine.execHmtRead s
  | .hmtCompress => Sys2Proof.Machine.execHmtCompress s
  | .hmtBound => Sys2Proof.Machine.execHmtBound s
  | .tencSeq => Sys2Proof.Machine.execTencSeq s
  | .tencLast => Sys2Proof.Machine.execTencLast s
  | .fhPack => Sys2Proof.Machine.execFhPack s
  | .fhParse => Sys2Proof.Machine.execFhParse s
  | .fhSize => Sys2Proof.Machine.execFhSize s
  | .bhPack => Sys2Proof.Machine.execBhPack s
  | .bhEnd => Sys2Proof.Machine.execBhEnd s
  | .bhParse => Sys2Proof.Machine.execBhParse s
  | .xxhInit => Sys2Proof.Machine.execXxhInit s
  | .xxhUpdate => Sys2Proof.Machine.execXxhUpdate s
  | .xxhDigest => Sys2Proof.Machine.execXxhDigest s
  | .xxhOneshot => Sys2Proof.Machine.execXxhOneshot s
  | .xxhCheckBlock => Sys2Proof.Machine.execXxhCheckBlock s
  | .xxhCheckContent => Sys2Proof.Machine.execXxhCheckContent s

end Sys2Proof.Machine
end

