-- ==== Sys2Proof/Machine/RegisterMap.lean ====
section
/-! DEFINITION. The register map (spec/10_state.md R22), what a read of a register returns, and what a write of an operand
register stores. -/

namespace Sys2Proof.Machine

/-- The offset of a register in the window (10_state.md R22). -/
def regOffset : Reg → BitVec 8
  | .id => 0x00#8
  | .ctrl => 0x04#8
  | .status => 0x08#8
  | .cmd => 0x0C#8
  | .srcAddr => 0x10#8
  | .srcLen => 0x14#8
  | .dstAddr => 0x18#8
  | .dstCap => 0x1C#8
  | .accel => 0x20#8
  | .opA => 0x24#8
  | .opB => 0x28#8
  | .r0 => 0x2C#8
  | .r1 => 0x30#8
  | .r2 => 0x34#8
  | .xxhSeed => 0x38#8
  | .fiCfg => 0x40#8
  | .fiCsizeLo => 0x44#8
  | .fiCsizeHi => 0x48#8
  | .fiDictId => 0x4C#8
  | .fiDesc => 0x50#8
  | .fiBlockMax => 0x54#8
  | .fiSkipLen => 0x58#8
  | .fiMagic => 0x5C#8

/-- The register at an offset; none at a reserved offset or one that is no multiple of 4 (10_state.md R21, R22). -/
def regAt (off : BitVec 8) : Option Reg :=
  match off.toNat with
  | 0x00 => some .id
  | 0x04 => some .ctrl
  | 0x08 => some .status
  | 0x0C => some .cmd
  | 0x10 => some .srcAddr
  | 0x14 => some .srcLen
  | 0x18 => some .dstAddr
  | 0x1C => some .dstCap
  | 0x20 => some .accel
  | 0x24 => some .opA
  | 0x28 => some .opB
  | 0x2C => some .r0
  | 0x30 => some .r1
  | 0x34 => some .r2
  | 0x38 => some .xxhSeed
  | 0x40 => some .fiCfg
  | 0x44 => some .fiCsizeLo
  | 0x48 => some .fiCsizeHi
  | 0x4C => some .fiDictId
  | 0x50 => some .fiDesc
  | 0x54 => some .fiBlockMax
  | 0x58 => some .fiSkipLen
  | 0x5C => some .fiMagic
  | _ => none

/-- What a read of a register returns (10_state.md R25 to R39). -/
def State.readReg (s : State) : Reg → Word
  | .id => Config.idValue
  | .ctrl => s.ctrlWord
  | .status => s.statusWord
  | .cmd => s.cmd
  | .srcAddr => s.srcAddr
  | .srcLen => s.srcLen
  | .dstAddr => s.dstAddr
  | .dstCap => s.dstCap
  | .accel => s.accel
  | .opA => s.opA
  | .opB => s.opB
  | .r0 => s.r0
  | .r1 => s.r1
  | .r2 => s.r2
  | .xxhSeed => s.xxhSeed
  | .fiCfg => s.fiCfg.word
  | .fiCsizeLo => s.fiCsizeLo
  | .fiCsizeHi => s.fiCsizeHi
  | .fiDictId => s.fiDictId
  | .fiDesc => s.fiDesc
  | .fiBlockMax => s.fiBlockMax
  | .fiSkipLen => s.fiSkipLen
  | .fiMagic => s.fiMagic

/-- What a read of an offset of the window returns: 0 where R22 lists no register (10_state.md R21). -/
def State.readOffset (s : State) (off : BitVec 8) : Word :=
  match regAt off with
  | some r => s.readReg r
  | none => 0#32

/-- The operand registers of 70_reset_and_hazards.md R286, which the host may not write while a command runs. -/
def isOperandReg : Reg → Bool
  | .id => false
  | .ctrl => false
  | .status => false
  | .cmd => false
  | .srcAddr => true
  | .srcLen => true
  | .dstAddr => true
  | .dstCap => true
  | .accel => true
  | .opA => true
  | .opB => true
  | .r0 => false
  | .r1 => false
  | .r2 => false
  | .xxhSeed => true
  | .fiCfg => true
  | .fiCsizeLo => true
  | .fiCsizeHi => true
  | .fiDictId => true
  | .fiDesc => false
  | .fiBlockMax => false
  | .fiSkipLen => false
  | .fiMagic => false

/-- Storing a host's write in an operand register; a read-only register ignores it (10_state.md R22, R23). `CTRL`,
`STATUS` and `CMD` are written by `hostWriteReg`. -/
def State.storeReg (s : State) (v : Word) : Reg → State
  | .id => s
  | .ctrl => s
  | .status => s
  | .cmd => s
  | .srcAddr => { s with srcAddr := v }
  | .srcLen => { s with srcLen := v }
  | .dstAddr => { s with dstAddr := v }
  | .dstCap => { s with dstCap := v }
  | .accel => { s with accel := v }
  | .opA => { s with opA := v }
  | .opB => { s with opB := v }
  | .r0 => s
  | .r1 => s
  | .r2 => s
  | .xxhSeed => { s with xxhSeed := v }
  | .fiCfg => { s with fiCfg := s.fiCfg.write v }
  | .fiCsizeLo => { s with fiCsizeLo := v }
  | .fiCsizeHi => { s with fiCsizeHi := v }
  | .fiDictId => { s with fiDictId := v }
  | .fiDesc => s
  | .fiBlockMax => s
  | .fiSkipLen => s
  | .fiMagic => s

end Sys2Proof.Machine
end

