-- ==== Sys2Proof/WellFormed.lean ====
section
/-! DEFINITION. What is well formed: a command word (spec/30_encoding.md R80, R82), a command, and a host's register
access (spec/10_state.md R21). -/

namespace Sys2Proof

/-- Bits 31..8 of a command word must be 0 (R80). -/
def wordReservedZero (w : Word) : Bool := w.extractLsb' 8 24 == 0#24

/-- The opcodes of R81's table. -/
def listedOpcodes : List Byte :=
  [0x00#8, 0x10#8, 0x11#8, 0x12#8, 0x13#8, 0x14#8, 0x15#8, 0x20#8, 0x21#8] ++
  [0x30#8, 0x31#8, 0x32#8, 0x33#8, 0x34#8, 0x35#8] ++
  [0x40#8, 0x41#8, 0x42#8, 0x43#8, 0x44#8, 0x45#8]

/-- Bits 7..0 of a command word must be a listed opcode (R82). -/
def wordOpcodeListed (w : Word) : Bool := listedOpcodes.contains (w.extractLsb' 0 8)

/-- A well-formed command word: R82's two conditions. -/
def wordWellFormed (w : Word) : Bool := wordReservedZero w && wordOpcodeListed w

/-- A command has no operand, so there is nothing about it that could be ill formed (R80). -/
def Instr.wellFormed (_ : Instr) : Bool := true

/-- A register access is 32 bits wide (10_state.md R21). -/
def accessWidthOk (width : Nat) : Bool := width == 32

/-- A register access is at an offset that is a multiple of 4 (10_state.md R21). -/
def accessAligned (off : BitVec 8) : Bool := off.extractLsb' 0 2 == 0#2

/-- The host actions the spec defines: register accesses of R21's form, and every memory action. -/
def HostAct.wellFormed : HostAct → Bool
  | .write width off _ => accessWidthOk width && accessAligned off
  | .read width off => accessWidthOk width && accessAligned off
  | .storeByte _ _ => true
  | .loadByte _ => true
  | .copyByte _ _ => true
  | .waitDone => true

end Sys2Proof
end

