-- ==== Sys2Proof/Decode.lean ====
section
/-! DEFINITION. Decoding a command word (spec/30_encoding.md R80 to R83), total on every 32-bit word, and the encoder. -/

namespace Sys2Proof

/-- Why a word is no command (R82). -/
inductive DecodeError
  /-- Bits 31..8 are not 0. -/
  | reservedBitsSet
  /-- Bits 7..0 are not in R81's table. -/
  | unlistedOpcode
  deriving DecidableEq, Repr

/-- `OPCODE`, bits 7..0 (R80). -/
def opcodeField (w : Word) : Byte := w.extractLsb' 0 8

/-- `RSVD`, bits 31..8 (R80). -/
def reservedField (w : Word) : BitVec 24 := w.extractLsb' 8 24

/-- R81's table, from opcode to command. -/
def decodeOpcode (op : Byte) : Option Instr :=
  match op.toNat with
  | 0x00 => some .nop
  | 0x10 => some .hmtClear
  | 0x11 => some .hmtHash
  | 0x12 => some .hmtProbe
  | 0x13 => some .hmtRead
  | 0x14 => some .hmtCompress
  | 0x15 => some .hmtBound
  | 0x20 => some .tencSeq
  | 0x21 => some .tencLast
  | 0x30 => some .fhPack
  | 0x31 => some .fhParse
  | 0x32 => some .fhSize
  | 0x33 => some .bhPack
  | 0x34 => some .bhEnd
  | 0x35 => some .bhParse
  | 0x40 => some .xxhInit
  | 0x41 => some .xxhUpdate
  | 0x42 => some .xxhDigest
  | 0x43 => some .xxhOneshot
  | 0x44 => some .xxhCheckBlock
  | 0x45 => some .xxhCheckContent
  | _ => none

/-- Decoding a command word (R82). -/
def decode (w : Word) : Except DecodeError Instr :=
  if reservedField w ≠ 0#24 then .error .reservedBitsSet
  else
    match decodeOpcode (opcodeField w) with
    | some i => .ok i
    | none => .error .unlistedOpcode

/-- The opcode of a command (R81). -/
def opcodeOf : Instr → Byte
  | .nop => 0x00#8
  | .hmtClear => 0x10#8
  | .hmtHash => 0x11#8
  | .hmtProbe => 0x12#8
  | .hmtRead => 0x13#8
  | .hmtCompress => 0x14#8
  | .hmtBound => 0x15#8
  | .tencSeq => 0x20#8
  | .tencLast => 0x21#8
  | .fhPack => 0x30#8
  | .fhParse => 0x31#8
  | .fhSize => 0x32#8
  | .bhPack => 0x33#8
  | .bhEnd => 0x34#8
  | .bhParse => 0x35#8
  | .xxhInit => 0x40#8
  | .xxhUpdate => 0x41#8
  | .xxhDigest => 0x42#8
  | .xxhOneshot => 0x43#8
  | .xxhCheckBlock => 0x44#8
  | .xxhCheckContent => 0x45#8

/-- The command word of a command: `zext_32(opcode)` (R80, R95). -/
def encode (i : Instr) : Word := 0#24 ++ opcodeOf i

/-- The command word with the given low `nbits` bits and zeros above them; `none` for a word longer than R83's 32 bits. -/
def tableWord (nbits w : Nat) : Option Word :=
  if nbits ≤ 32 then some (BitVec.ofNat 32 (w % 2 ^ nbits)) else none

/-- The command the decoder reads from a word numbered as spec/opcode_table.json numbers it. Assumption log 19. -/
def decodeTableWord (nbits w : Nat) : Option Instr :=
  match tableWord nbits w with
  | none => none
  | some cw =>
    match decode cw with
    | .ok i => some i
    | .error _ => none

end Sys2Proof
end

