-- ==== Sys2Proof/Machine/Reset.lean ====
section
/-! DEFINITION. Hardware reset and soft reset (spec/70_reset_and_hazards.md R280, R282). -/

namespace Sys2Proof.Machine

/-- Whether the command in flight has a destination region (30_encoding.md R84): an illegal word has none. -/
def State.runningUsesDst (s : State) : Bool :=
  match s.busyCmd with
  | none => false
  | some w =>
    match decode w with
    | .ok i => usesDst i
    | .error _ => false

/-- Memory after the command in flight, if there is one, is abandoned: every byte of its D holds an unspecified value (R280,
R282, 93 I-ABORT). Assumption log 5. -/
def State.abandonedMem (s : State) : Memory :=
  if s.runningUsesDst then s.mem.freeFill s.draws s.dst.base s.dst.len else s.mem

/-- Every register, `XS` and the command in flight at their reset values, with the given table and memory; the turns to
come, the host's reads and the count of draws are not the engine's and stay. -/
def State.resetWith (s : State) (ht : HashTable) (mem : Memory) : State :=
  { State.reset with ht := ht, mem := mem, agenda := s.agenda, hostReads := s.hostReads, draws := s.draws + 1 }

/-- Hardware reset (R280): every entry of `HT` is unspecified. Assumption log 3, 5. -/
def State.hardReset (s : State) : State := s.resetWith (freeTable s.draws) s.abandonedMem

/-- Soft reset (R282): `HT` keeps its contents when no command runs. Assumption log 5. -/
def State.softReset (s : State) : State :=
  s.resetWith (if s.busy then freeTable s.draws else s.ht) s.abandonedMem

end Sys2Proof.Machine
end

