-- ==== Sys2Proof/Machine/Turns.lean ====
section
/-! DEFINITION. What each agent's turn does: the engine completes the command in flight (spec/40_control.md R102), the host
accesses registers and memory (spec/10_state.md R21, spec/70_reset_and_hazards.md R285, R286, spec/20_memory.md R73), and
reset and bus errors arrive from outside. -/

namespace Sys2Proof.Machine

/-- The completion step of a command word: an illegal word ends with `IllegalCommand` (30_encoding.md R82, 40_control.md
R104 step 1). Assumption log 20. -/
def runCommand (w : Word) (s : State) : Result :=
  match decode w with
  | .ok i => exec i s
  | .error _ => s.raise .illegalCommand

/-- The same state as if `b` stood at `a`, where the host had written nothing during the command. -/
def State.asIf (s : State) (a : Nat) (b : Byte) : State :=
  { s with
    mem := s.mem.write a b
    raced := s.raced.filter fun c => decide (c.1 ≠ a)
    glimpse := s.glimpse.map fun g =>
      { g with later := ((s.raced.take g.later).filter fun c => decide (c.1 ≠ a)).length } }

/-- Where the command in flight would end if `b` stood at `a` and the host had never written there. -/
def State.endWith (s : State) (a : Nat) (b : Byte) : Option State :=
  match s.busyCmd with
  | none => none
  | some w =>
    match runCommand w (s.asIf a b) with
    | .next t => some t
    | .fault _ => none
    | .refused _ => none

/-- The byte the command in flight leaves at an address where the host does not interfere. -/
def State.ownByte (s : State) (a : Nat) : Byte :=
  match s.endWith a (s.mem.read a) with
  | none => s.mem.read a
  | some t => t.mem.read a

/-- The command in flight writes `v` at `a`: it leaves `v` there whatever stood there before. One that ends with
`OutputTooSmall` may have written anything to D (41_hash_match.md R137, 93 I-DST-ERR). Assumption log 4, 7. -/
def State.mayWrite (s : State) (a : Nat) (v : Byte) : Bool :=
  match s.endWith a (~~~v) with
  | none => false
  | some t => decide (t.mem.read a = v) || (decide (t.errCode = .outputTooSmall) && s.dst.contains a)

/-- The state whose free values the running command's reads take: fresh ones, unless with those the command would not write
a byte that the host has already seen it write; then those of the run the host has seen (20_memory.md R73). Assumption log
7. -/
def State.settled (s : State) : State :=
  match s.glimpse with
  | none => s
  | some g =>
    if g.seen.all fun c => { s with glimpse := none }.mayWrite c.1 c.2 then { s with glimpse := none } else s

/-- The engine's turn: it completes the command in flight; with none it is idle (60_exceptions.md R275). -/
def engineTurn (s : State) : Result :=
  match s.busyCmd with
  | none => .next s
  | some w => runCommand w s.settled

/-- A host's write of a register (10_state.md R22 to R34, 40_control.md R100, R103, 70_reset_and_hazards.md R282, R286). -/
def hostWriteReg (s : State) (r : Reg) (v : Word) : Result :=
  match r with
  | .ctrl => .next (if v.getLsbD 1 then s.softReset else { s with ie := v.getLsbD 0 })
  | .status => .next (s.writeStatus v)
  | .cmd => .next (if s.busy then { s with cmdRej := true } else s.accept v)
  | r => if s.busy && isOperandReg r then .fault (.operandWriteWhileBusy r) else .next (s.storeReg v r)

/-- A host's register access of a width and at an offset the register port defines (10_state.md R21, 93 I-REG-WIDTH); any
other is refused. Assumption log 15. -/
def checkedAccess (width : Nat) (off : BitVec 8) (body : Result) : Result :=
  if !accessWidthOk width then .refused (.accessWidth width)
  else if !accessAligned off then .refused (.accessAlignment off)
  else body

/-- A host's write at an offset of the window: one to an offset R22 does not list is ignored (10_state.md R21). -/
def hostWrite (s : State) (width : Nat) (off : BitVec 8) (v : Word) : Result :=
  checkedAccess width off <|
    match regAt off with
    | some r => hostWriteReg s r v
    | none => .next s

/-- A host's read at an offset of the window; no read changes the engine. Assumption log 12. -/
def hostRead (s : State) (width : Nat) (off : BitVec 8) : Result :=
  checkedAccess width off <| .next { s with hostReads := .reg off (s.readOffset off) :: s.hostReads }

/-- A host's write of one byte of memory; while a command runs, the byte it overwrites is kept, since the command may have
read it or write it (20_memory.md R73). Assumption log 6. -/
def State.hostStore (s : State) (a : Nat) (b : Byte) : State :=
  { s with
    mem := s.mem.write a b
    raced := if s.busy then (a, s.mem.read a) :: s.raced else s.raced
    glimpse := if s.busy then s.glimpse.map fun g => { g with later := g.later + 1 } else s.glimpse }

/-- What a host's read of one byte of memory returns: while a command runs, its value before the command or the value the
command writes (20_memory.md R73). DESIGN CHOICE: of a byte the host itself wrote during the command, R73 does not name the
host's own value; the read returns that value, or the one the command writes, and never the value before. Assumption log
7. -/
def State.hostLoad (s : State) (a : Nat) : Byte :=
  if s.settled.ownByte a = s.mem.read a then s.mem.read a
  else if Config.loadPick s.draws a then s.mem.read a
  else s.settled.ownByte a

/-- The bytes the host has seen the running command write, the latest first. -/
def State.seen (s : State) : List Host.Cell :=
  match s.glimpse with
  | none => []
  | some g => g.seen

/-- What the host has seen of the running command once a read of the byte at `a` has returned `v`: more than before only if
the command wrote `v`. Assumption log 7. -/
def State.glimpseAfter (s : State) (a : Nat) (v : Byte) : Option Glimpse :=
  if v = s.mem.read a then s.glimpse
  else some { seen := (a, v) :: s.seen, draw := s.settled.readDraw, later := s.settled.readLater }

/-- The state after a host's read of the byte at `a`: a read during a command takes a draw of its own, and shows what it
returned. -/
def State.afterLoad (s : State) (a : Nat) : State :=
  { s with draws := if s.busy then s.draws + 1 else s.draws, glimpse := s.glimpseAfter a (s.hostLoad a) }

/-- One action of the host (30_encoding.md R95). `wait` reads `STATUS` until `DONE = 1`: while a command runs, the engine
takes its turn and the host goes on waiting; when nothing runs and nothing is done, it waits for ever. Assumption log
11. -/
def hostTurn (a : HostAct) (s : State) : Result :=
  match a with
  | .write width off v => hostWrite s width off v
  | .read width off => hostRead s width off
  | .storeByte addr b => .next (s.hostStore addr.toNat b)
  | .loadByte addr => .next { s.afterLoad addr.toNat with hostReads := .byte addr (s.hostLoad addr.toNat) :: s.hostReads }
  | .copyByte dst src => .next ((s.afterLoad src.toNat).hostStore dst.toNat (s.hostLoad src.toNat))
  | .waitDone =>
    if s.done then hostRead s 32 (regOffset .status)
    else engineTurn { s with agenda := .host .waitDone :: s.agenda }

/-- One turn (10_state.md R20). A bus error can answer only an engine that is accessing memory (93 I-BUSERR).
Assumption log 9, 14. -/
def takeTurn (t : Turn) (s : State) : Result :=
  match t with
  | .host a => hostTurn a s
  | .engine => engineTurn s
  | .hardReset => .next s.hardReset
  | .busError => if s.busy then .refused .busError else .next s

end Sys2Proof.Machine
end

