-- ==== Sys2Proof/Machine/Step.lean ====
section
/-! DEFINITION. One step of the machine, and a command word placed where the next step completes it. -/

namespace Sys2Proof.Machine

/-- One step: the next turn of the agenda, or, when it is empty, the engine's (spec/40_control.md R102: completion is a step
the engine is always eventually able to take). Assumption log 9. -/
def step (s : State) : Host.Outcome State Fault Refusal :=
  match s.agenda with
  | [] => engineTurn s
  | t :: rest => takeTurn t { s with agenda := rest }

/-- `s` with a command word just accepted and the engine's turn next, so that the next step completes it. A word longer than
R83's 32 bits is no command word and leaves `s`. Assumption log 10, 19. -/
def State.withFetchWord (s : State) (nbits w : Nat) : State :=
  match tableWord nbits w with
  | none => s
  | some cw => { s.accept cw with agenda := .engine :: s.agenda }

end Sys2Proof.Machine
end

