-- ==== Sys2Proof/Safety.lean ====
section
/-! DEFINITION. The terms the claims use: the invariants of the machine, what a command leaves unchanged, and the reading
of an LZ4 block (spec/30_encoding.md R85 to R88), which the engine itself does not have (spec/00_scope.md R6). -/

namespace Sys2Proof.Machine

/-- A code the engine raises (60_exceptions.md R261, column "raised by the engine"), or OK. -/
def StatusCode.raisable : StatusCode → Bool
  | .ok => true
  | .outputTooSmall => true
  | .inputTooLarge => true
  | .corruptedData => false
  | .decompressionFailed => false
  | .frameHeaderIncomplete => true
  | .frameTypeUnknown => true
  | .frameSizeWrong => true
  | .headerVersionWrong => true
  | .reservedFlagSet => true
  | .maxBlockSizeInvalid => true
  | .headerChecksumInvalid => true
  | .blockChecksumInvalid => true
  | .contentChecksumInvalid => true
  | .allocationFailed => false
  | .invalidState => false
  | .illegalCommand => true
  | .badOperand => true

/-- `XS.buf` holds the bytes left over from whole stripes: `len(XS.buf) = XS.total mod 16` (44_xxh32.md R231). -/
def Stream.wf (xs : Stream) : Bool := decide (xs.buf.length = xs.total.toNat % 16)

/-- `STATUS` while a command runs: `DONE` and `ERRCODE` were cleared at its acceptance (40_control.md R100); and
`ERRCODE` holds only codes the engine raises (60_exceptions.md R261). -/
def State.statusLegal (s : State) : Bool :=
  s.errCode.raisable && (!s.busy || (!s.done && decide (s.errCode = .ok)))

/-- The values `FI_BLOCKMAX` can hold (10_state.md R38). -/
def State.blockMaxLegal (s : State) : Bool :=
  [0#32, 65536#32, 262144#32, 1048576#32, 4194304#32].contains s.fiBlockMax

/-- The values `FI_MAGIC` can hold: none yet, the regular frame's, or a skippable frame's (10_state.md R39). -/
def State.magicLegal (s : State) : Bool :=
  decide (s.fiMagic = 0#32) || decide (s.fiMagic = Config.frameMagic) || isSkipMagic s.fiMagic

/-- A command races only while it runs (20_memory.md R73). -/
def State.racesOnlyBusy (s : State) : Bool := s.busy || s.raced.isEmpty

/-- What the host has seen of a running command is written by a run of that command, the one its reads fall back to
(20_memory.md R73). Assumption log 7. -/
def State.glimpseLegal (s : State) : Bool :=
  match s.glimpse with
  | none => true
  | some g => s.busy && g.seen.all fun c => s.mayWrite c.1 c.2

/-- The invariant of the machine. -/
def State.inv (s : State) : Bool :=
  s.mem.wf && s.xs.wf && s.statusLegal && s.blockMaxLegal && s.magicLegal && s.racesOnlyBusy && s.glimpseLegal

/-- The registers that hold a command's operands (10_state.md R24), and `CTRL`, `CMD` and `CMDREJ`, which no command's
completion writes, are unchanged. -/
def sameOperands (s t : State) : Prop :=
  t.ie = s.ie ∧ t.cmdRej = s.cmdRej ∧ t.cmd = s.cmd ∧ t.srcAddr = s.srcAddr ∧ t.srcLen = s.srcLen ∧
    t.dstAddr = s.dstAddr ∧ t.dstCap = s.dstCap ∧ t.accel = s.accel ∧ t.opA = s.opA ∧ t.opB = s.opB ∧
    t.xxhSeed = s.xxhSeed

/-- The frame-info registers are unchanged. -/
def sameFrameInfo (s t : State) : Prop :=
  t.fiCfg = s.fiCfg ∧ t.fiCsizeLo = s.fiCsizeLo ∧ t.fiCsizeHi = s.fiCsizeHi ∧ t.fiDictId = s.fiDictId ∧
    t.fiDesc = s.fiDesc ∧ t.fiBlockMax = s.fiBlockMax ∧ t.fiSkipLen = s.fiSkipLen ∧ t.fiMagic = s.fiMagic

/-- The turns to come and what the host has read are unchanged. -/
def sameHost (s t : State) : Prop := t.agenda = s.agenda ∧ t.hostReads = s.hostReads

/-- Every byte of memory is unchanged. -/
def sameMemory (s t : State) : Prop := ∀ a : Nat, t.mem.read a = s.mem.read a

/-- A command has ended: nothing runs, `DONE = 1`, the code and the three results are as given (40_control.md R102,
10_state.md R32). -/
def endedWith (t : State) (code : StatusCode) (a b c : Word) : Prop :=
  t.busyCmd = none ∧ t.done = true ∧ t.errCode = code ∧ t.r0 = a ∧ t.r1 = b ∧ t.r2 = c

/-- The bytes `bs` stand at `base` and every byte outside them is as it was. -/
def wroteExactly (s t : State) (base : Nat) (bs : List Byte) : Prop :=
  (∀ i : Nat, ∀ h : i < bs.length, t.mem.read (base + i) = bs[i]) ∧
    ∀ a : Nat, a < base ∨ base + bs.length ≤ a → t.mem.read a = s.mem.read a

/-- The whole engine but `STATUS` and the results, the host's side and memory are unchanged: what a command that reports
only results keeps (30_encoding.md R84). -/
def keepsAll (s t : State) : Prop :=
  sameOperands s t ∧ sameFrameInfo s t ∧ sameHost s t ∧ sameMemory s t ∧ t.ht = s.ht ∧ t.xs = s.xs

/-- All that `keepsAll` says but for memory, of which only the bytes `bs` at `DST_ADDR` changed. -/
def keepsAllButStore (s t : State) (bs : List Byte) : Prop :=
  sameOperands s t ∧ sameFrameInfo s t ∧ sameHost s t ∧ wroteExactly s t s.dstAddr.toNat bs ∧ t.ht = s.ht ∧ t.xs = s.xs

/-- `IN(i)`, the byte of S at position `i` as it stands in memory (41_hash_match.md R120). -/
def State.inByte (s : State) (i : Nat) : Byte := s.mem.read (s.srcAddr.toNat + i)

/-- `IN32(i)` as it stands in memory (41_hash_match.md R120). -/
def State.in32 (s : State) (i : Nat) : Word :=
  s.inByte (i + 3) ++ s.inByte (i + 2) ++ s.inByte (i + 1) ++ s.inByte i

/-- `IN[a .. b)` as it stands in memory. -/
def State.inBytes (s : State) (a b : Nat) : List Byte := (List.range (b - a)).map fun i => s.inByte (a + i)

/-- A command that uses S and D can get past the common checks (40_control.md R104 steps 2 and 3). -/
def State.regionsOk (s : State) : Prop :=
  s.srcAddr.toNat + s.srcLen.toNat ≤ 0x100000000 ∧ s.dstAddr.toNat + s.dstCap.toNat ≤ 0x100000000 ∧
    (s.srcLen = 0#32 ∨ s.dstCap = 0#32 ∨ s.srcAddr.toNat + s.srcLen.toNat ≤ s.dstAddr.toNat ∨
      s.dstAddr.toNat + s.dstCap.toNat ≤ s.srcAddr.toNat)

/-- S is valid (00_scope.md R11). -/
def State.srcOk (s : State) : Prop := s.srcAddr.toNat + s.srcLen.toNat ≤ 0x100000000

/-- D is valid (00_scope.md R11). -/
def State.dstOk (s : State) : Prop := s.dstAddr.toNat + s.dstCap.toNat ≤ 0x100000000

/-- The command ends with a status code and does nothing else: `R0`, `R1` and `R2` are 0, and the rest of the engine and
memory are unchanged (60_exceptions.md R263, 40_control.md R105). -/
def failsWith (i : Instr) (s : State) (code : StatusCode) : Prop :=
  ∃ t, exec i s = .next t ∧ endedWith t code 0#32 0#32 0#32 ∧ keepsAll s t

/-- What a host's read of the byte at `a` may return while a command runs, before the turns `rest`: the byte that stands
there, or one the command writes (20_memory.md R73). Assumption log 7. -/
def seesWhileRunning (s : State) (rest : List Turn) (a : Nat) (v : Byte) : Prop :=
  v = s.mem.read a ∨ ({ s with agenda := rest } : State).settled.mayWrite a v = true

/-- Reading the additional bytes of an extended length: their sum, and what follows (30_encoding.md R86). -/
def readExt : List Byte → Option (Nat × List Byte)
  | [] => none
  | b :: rest =>
    if b = 0xFF#8 then
      match readExt rest with
      | none => none
      | some (v, rest') => some (255 + v, rest')
    else some (b.toNat, rest)

/-- Reading a length from its nibble and what follows the token (30_encoding.md R85, R86). -/
def readLength (nibble : Nat) (d : List Byte) : Option (Nat × List Byte) :=
  if nibble < 15 then some (nibble, d)
  else
    match readExt d with
    | none => none
    | some (v, rest) => some (15 + v, rest)

/-- Copying `k` bytes from `off` back, byte by byte, so that source and copy may overlap (30_encoding.md R88,
41_hash_match.md R139). -/
def copyBack (off : Nat) : Nat → List Byte → List Byte
  | 0, out => out
  | k + 1, out => copyBack off k (out ++ [out.getD (out.length - off) 0#8])

/-- Reading a block after `out`, at most `fuel` sequences: the last one has literals only (30_encoding.md R88). -/
def readBlock : Nat → List Byte → List Byte → Option (List Byte)
  | 0, _, _ => none
  | _ + 1, _, [] => none
  | fuel + 1, out, token :: d =>
    match readLength (token.toNat / 16) d with
    | none => none
    | some (litLen, d) =>
      if d.length < litLen then none
      else
        let out := out ++ d.take litLen
        match d.drop litLen with
        | [] => if token.toNat % 16 = 0 then some out else none
        | [_] => none
        | o0 :: o1 :: d =>
          let off := o0.toNat + 256 * o1.toNat
          match readLength (token.toNat % 16) d with
          | none => none
          | some (code, d) =>
            if off = 0 ∨ out.length < off then none
            else readBlock fuel (copyBack off (code + Config.minMatch) out) d

/-- What an LZ4 block decodes to; a block of no bytes, which is what an empty input compresses to (41_hash_match.md R144),
has no sequence and decodes to nothing. -/
def decodeBlock (d : List Byte) : Option (List Byte) :=
  match d with
  | [] => some []
  | token :: rest => readBlock d.length [] (token :: rest)

end Sys2Proof.Machine
end

