-- ==== Sys2Proof/Certificates/Slice0/Obligations.lean ====
section
/-! DEFINITION. The statements about the model, for the provers. Rule numbers are those of spec/. -/

open Sys2Proof Sys2Proof.Machine

/-! ## Reset and invariants -/

/-- R45: what every register reads after reset, the interrupt output, the stream and the command in flight. (`HT` is
unspecified there, so nothing is said of it.) -/
def Obligations.ResetLeavesTheListedValues : Prop :=
  (∀ r : Reg, State.reset.readReg r = if r = .id then 0x4C5A3401#32 else 0#32) ∧
    State.reset.irq = false ∧ State.reset.busyCmd = none ∧
    State.reset.xs =
      { seed := 0#32, v1 := 0x24234428#32, v2 := 0x85EBCA77#32, v3 := 0#32, v4 := 0x61C8864F#32, buf := []
        total := 0#64 } ∧
    State.reset.xs = Stream.init 0#32

/-- The state after reset meets the invariant. -/
def Obligations.ResetMeetsInvariant : Prop := State.reset.inv = true

/-- Every step keeps the invariant: memory's canonical form, `len(XS.buf) = XS.total mod 16` (R231), `DONE = 0` and
`ERRCODE = 0` while a command runs (R100), `ERRCODE` only a code the engine raises (R261), `FI_BLOCKMAX` (R38) and
`FI_MAGIC` (R39) only their values, no race outside a command, and every byte a host's read has seen the running command
write is one that a run of the command writes (R73). The canonical form (log 2), the record of races (log 6) and that of
what was seen (log 7) are the model's own. -/
def Obligations.StepKeepsInvariant : Prop :=
  ∀ s t : State, s.inv = true → step s = .next t → t.inv = true

/-! ## Command words -/

/-- R81: the opcode map. -/
def Obligations.OpcodeMapIsTheTable : Prop :=
  decode 0x00000000#32 = .ok .nop ∧ decode 0x00000010#32 = .ok .hmtClear ∧ decode 0x00000011#32 = .ok .hmtHash ∧
    decode 0x00000012#32 = .ok .hmtProbe ∧ decode 0x00000013#32 = .ok .hmtRead ∧
    decode 0x00000014#32 = .ok .hmtCompress ∧ decode 0x00000015#32 = .ok .hmtBound ∧
    decode 0x00000020#32 = .ok .tencSeq ∧ decode 0x00000021#32 = .ok .tencLast ∧
    decode 0x00000030#32 = .ok .fhPack ∧ decode 0x00000031#32 = .ok .fhParse ∧
    decode 0x00000032#32 = .ok .fhSize ∧ decode 0x00000033#32 = .ok .bhPack ∧
    decode 0x00000034#32 = .ok .bhEnd ∧ decode 0x00000035#32 = .ok .bhParse ∧
    decode 0x00000040#32 = .ok .xxhInit ∧ decode 0x00000041#32 = .ok .xxhUpdate ∧
    decode 0x00000042#32 = .ok .xxhDigest ∧ decode 0x00000043#32 = .ok .xxhOneshot ∧
    decode 0x00000044#32 = .ok .xxhCheckBlock ∧ decode 0x00000045#32 = .ok .xxhCheckContent

/-- Decoding an encoded command gives it back. -/
def Obligations.DecodeOfEncodeIsTheCommand : Prop := ∀ i : Instr, decode (encode i) = .ok i

/-- R82: a word decodes exactly when bits 31..8 are 0 and bits 7..0 are a listed opcode, and then it is that command's one
word; any other word ends with `IllegalCommand` and changes nothing else but `STATUS` and `R0..R2`. That an illegal word
ends in a completion step of its own is the model's reading of "at once" (log 20). -/
def Obligations.OtherWordsAreIllegal : Prop :=
  ∀ w : Word,
    ((w.toNat < 256 ∧ w.setWidth 8 ∈ listedOpcodes) ↔ ∃ i, decode w = .ok i) ∧
      (∀ i, decode w = .ok i ↔ encode i = w) ∧
      (¬(w.toNat < 256 ∧ w.setWidth 8 ∈ listedOpcodes) →
        ∀ s : State, s.busyCmd = some w → s.agenda = [] →
          ∃ t, step s = .next t ∧ endedWith t .illegalCommand 0#32 0#32 0#32 ∧ keepsAll s t)

/-! ## Issue and completion -/

/-- R100: a host's write of `CMD` while nothing runs is accepted. The record says what changes; nothing else does. That a
host's write is a turn of the agenda (log 9) and that races (log 6) and what loads see (log 7) are recorded afresh is the
model's own. -/
def Obligations.IdleCommandWriteIsAccepted : Prop :=
  ∀ (s : State) (w : Word) (rest : List Turn),
    s.busyCmd = none → s.agenda = .host (.write 32 0x0C#8 w) :: rest →
      ∃ t, step s = .next t ∧
        t = { s with
          cmd := w, busyCmd := some w, done := false, errCode := .ok, raced := [], glimpse := none
          agenda := rest } ∧
        t.busy = true ∧ t.irq = false

/-- R103: a host's write of `CMD` while a command runs is rejected, and sets `CMDREJ`. The agenda is the model's own
(log 9). -/
def Obligations.BusyCommandWriteIsRejected : Prop :=
  ∀ (s : State) (w v : Word) (rest : List Turn),
    s.busyCmd = some w → s.agenda = .host (.write 32 0x0C#8 v) :: rest →
      step s = .next { s with cmdRej := true, agenda := rest }

/-- A step runs the command whose word is in flight: when the engine's turn comes, when no turn is left, and while the host
waits for it; and a word placed by `withFetchWord` is what the next step runs. With nothing in flight and no turn left the
machine stays as it is (R280: "idle"). What the step adds around `exec` is `settled`: which free values the command's racing
reads take (log 7); it changes at most the record of what loads saw, and nothing that `exec` does where nothing raced. The
agenda (log 9), the place of a fetched word (log 10) and the turns of `wait` (log 11) are the model's own. -/
def Obligations.StepRunsTheCommandInFlight : Prop :=
  (∀ (s : State) (w : Word) (i : Instr), s.busyCmd = some w → decode w = .ok i →
    (s.agenda = [] → step s = exec i s.settled) ∧
      (∀ rest, s.agenda = .engine :: rest → step s = exec i ({ s with agenda := rest } : State).settled) ∧
      (∀ rest, s.agenda = .host .waitDone :: rest → s.done = false → step s = exec i s.settled)) ∧
    (∀ s : State, s.settled = s ∨ s.settled = { s with glimpse := none }) ∧
    (∀ (s : State) (i : Instr), s.raced = [] → exec i s.settled = exec i s) ∧
    (∀ (s : State) (i : Instr), step (s.withFetchWord 32 (encode i).toNat) = exec i (s.accept (encode i))) ∧
    ∀ s : State, s.busyCmd = none → s.agenda = [] → step s = .next s

/-- `run`, that is `cmd` followed by `wait` (30_encoding.md R95, R96): the word is accepted, the command completes, and the host then reads
`STATUS` with `DONE = 1` and `BUSY = 0`. The agenda (log 9) and the turns of `wait` (log 11) are the model's own. -/
def Obligations.CommandThenWaitReadsDone : Prop :=
  ∀ (s : State) (i : Instr) (rest : List Turn), s.busyCmd = none →
    s.agenda = .host (.write 32 0x0C#8 (encode i)) :: .host .waitDone :: rest →
      ∃ t u v, step s = .next t ∧ step t = .next u ∧ step u = .next v ∧
        exec i { s.accept (encode i) with agenda := .host .waitDone :: rest } = .next u ∧
        v = { u with agenda := rest, hostReads := .reg 0x08#8 u.statusWord :: u.hostReads } ∧
        u.statusWord.getLsbD 0 = false ∧ u.statusWord.getLsbD 1 = true

/-- R102: every command, in every state, completes: it writes a code the engine raises, clears `BUSY`, sets `DONE`, leaves
the operand registers, `CTRL`, `CMD` and `CMDREJ` alone, and `IRQ` then follows `CTRL.IE` (R44). -/
def Obligations.EveryCommandCompletes : Prop :=
  ∀ (i : Instr) (s : State),
    ∃ t, exec i s = .next t ∧ t.busyCmd = none ∧ t.busy = false ∧ t.done = true ∧ t.errCode.raisable = true ∧
      t.irq = s.ie ∧ sameOperands s t ∧ sameHost s t

/-- R105, R263: what a command that ends with a code other than OK leaves. -/
def Obligations.FailedCommandsReportOnlyTheirCode : Prop :=
  ∀ (i : Instr) (s t : State), exec i s = .next t → t.errCode ≠ .ok →
    t.r0 = 0#32 ∧ t.r1 = 0#32 ∧ t.r2 = 0#32 ∧ sameFrameInfo s t ∧ t.xs = s.xs ∧
      (¬(i = .hmtCompress ∧ t.errCode = .outputTooSmall) → t.ht = s.ht ∧ sameMemory s t) ∧
      ∀ a : Nat, a < s.dstAddr.toNat ∨ s.dstAddr.toNat + s.dstCap.toNat ≤ a → t.mem.read a = s.mem.read a

/-- R61, R68: a command writes memory only inside D, only if it uses D, and on OK only the first `R0` bytes of D. -/
def Obligations.CommandsWriteOnlyTheDestination : Prop :=
  ∀ (i : Instr) (s t : State), exec i s = .next t →
    (usesDst i = false → sameMemory s t) ∧
      (∀ a : Nat, a < s.dstAddr.toNat ∨ s.dstAddr.toNat + s.dstCap.toNat ≤ a → t.mem.read a = s.mem.read a) ∧
      (usesDst i = true → t.errCode = .ok →
        t.r0.toNat ≤ s.dstCap.toNat ∧
          ∀ a : Nat, a < s.dstAddr.toNat ∨ s.dstAddr.toNat + t.r0.toNat ≤ a → t.mem.read a = s.mem.read a)

/-- R61: a command reads no byte outside S. Two memories that agree on S (any two, for a command that does not use S) give
the same results, status, `HT`, `XS` and frame-info registers, and every byte of memory ends equal in both runs or unchanged
in both: no byte from outside S is copied into D. -/
def Obligations.CommandsReadOnlyTheSource : Prop :=
  ∀ (i : Instr) (s t : State) (m : Memory),
    (usesSrc i = true →
      ∀ a : Nat, s.srcAddr.toNat ≤ a → a < s.srcAddr.toNat + s.srcLen.toNat → m.read a = s.mem.read a) →
    exec i s = .next t →
      ∃ t', exec i { s with mem := m } = .next t' ∧ { t' with mem := t.mem } = t ∧
        ∀ a : Nat, t'.mem.read a = t.mem.read a ∨ (t'.mem.read a = m.read a ∧ t.mem.read a = s.mem.read a)

/-- R66, R67: a region that is used and not valid, or S and D both used and overlapping, ends the command with `BadOperand`
and nothing else changes. -/
def Obligations.BadRegionsEndWithBadOperand : Prop :=
  ∀ (i : Instr) (s : State),
    ((usesSrc i = true ∧ 0x100000000 < s.srcAddr.toNat + s.srcLen.toNat) ∨
      (usesDst i = true ∧ 0x100000000 < s.dstAddr.toNat + s.dstCap.toNat) ∨
      (usesSrc i = true ∧ usesDst i = true ∧
        ∃ a : Nat, s.srcAddr.toNat ≤ a ∧ a < s.srcAddr.toNat + s.srcLen.toNat ∧ s.dstAddr.toNat ≤ a ∧
          a < s.dstAddr.toNat + s.dstCap.toNat)) →
      failsWith i s .badOperand

/-- R41, R42, R24: only the commands the rules name change `HT`, `XS` and the frame-info registers. -/
def Obligations.OnlyTheirCommandsChangeTables : Prop :=
  ∀ (i : Instr) (s t : State), exec i s = .next t →
    (i ≠ .hmtClear → i ≠ .hmtCompress → i ≠ .hmtProbe → t.ht = s.ht) ∧
      (i ≠ .xxhInit → i ≠ .xxhUpdate → t.xs = s.xs) ∧ (i ≠ .fhPack → i ≠ .fhParse → sameFrameInfo s t)

/-- R229: the one-shot datapath neither reads nor writes `XS`. -/
def Obligations.OneShotChecksumsIgnoreTheStream : Prop :=
  ∀ (i : Instr) (s t : State) (x : Stream),
    i = .xxhOneshot ∨ i = .xxhCheckBlock ∨ i = .fhPack ∨ i = .fhParse →
      exec i s = .next t → exec i { s with xs := x } = .next { t with xs := x }

/-! ## The commands -/

/-- R110. -/
def Obligations.NopClearsTheResults : Prop :=
  ∀ s : State,
    ∃ t, exec .nop s = .next t ∧ endedWith t .ok 0#32 0#32 0#32 ∧ keepsAll s t ∧ t.irq = s.ie

/-- R140. -/
def Obligations.HmtClearZeroesTheTable : Prop :=
  ∀ s : State,
    ∃ t, exec .hmtClear s = .next t ∧ endedWith t .ok 0#32 0#32 0#32 ∧
      (∀ j : Fin 16384, t.ht[j] = 0#32) ∧ sameOperands s t ∧ sameFrameInfo s t ∧ sameHost s t ∧ sameMemory s t ∧
      t.xs = s.xs

/-- R141, R121, R122. -/
def Obligations.HmtHashGivesTheHash : Prop :=
  ∀ s : State,
    ∃ t, exec .hmtHash s = .next t ∧ endedWith t .ok ((s.opA * 2654435761#32) >>> 18) 0#32 0#32 ∧
      t.r0.toNat < 16384 ∧ keepsAll s t

/-- R142, R126: the entry read, the hash index, the validity of the candidate, and the entry written; and the checks of S
and of the position. -/
def Obligations.HmtProbeReadsThenUpdates : Prop :=
  (∀ (s : State) (x h cand : Word),
    s.raced = [] → s.srcAddr.toNat + s.srcLen.toNat ≤ 0x100000000 → s.opA.toNat + 4 ≤ s.srcLen.toNat →
    x = s.in32 s.opA.toNat → h = (x * 2654435761#32) >>> 18 →
    (∀ j : Fin 16384, j.val = h.toNat → s.ht[j] = cand) →
      ∃ t, exec .hmtProbe s = .next t ∧
        endedWith t .ok cand h
          (if 0 < cand.toNat ∧ cand.toNat < s.opA.toNat ∧ s.opA.toNat - cand.toNat ≤ 65535 ∧
              s.in32 cand.toNat = x
            then 1#32 else 0#32) ∧
        h.toNat < 16384 ∧ (∀ j : Fin 16384, t.ht[j] = if j.val = h.toNat then s.opA else s.ht[j]) ∧
        sameOperands s t ∧ sameFrameInfo s t ∧ sameHost s t ∧ sameMemory s t ∧ t.xs = s.xs) ∧
    ∀ s : State, 0x100000000 < s.srcAddr.toNat + s.srcLen.toNat ∨ s.srcLen.toNat < s.opA.toNat + 4 →
      failsWith .hmtProbe s .badOperand

/-- R143. -/
def Obligations.HmtReadGivesTheEntry : Prop :=
  (∀ (s : State) (j : Fin 16384), s.opA.toNat = j.val →
    ∃ t, exec .hmtRead s = .next t ∧ endedWith t .ok s.ht[j] 0#32 0#32 ∧ keepsAll s t) ∧
    ∀ s : State, 16384 ≤ s.opA.toNat → failsWith .hmtRead s .badOperand

/-- R144, R131: the block `FAST` makes of the bytes of S at the clamped acceleration is written to D and its table left in
`HT`; a block longer than D ends with `OutputTooSmall`, after which D and `HT` hold free values, so only what lies outside
them is said to stay; and the checks of the regions and of the length. -/
def Obligations.HmtCompressWritesTheBlock : Prop :=
  (∀ (s : State) (b : Block),
    s.raced = [] → s.regionsOk → s.srcLen.toNat ≤ 0x7E000000 →
    b = fast (fun _ i => s.inByte i) s.srcLen.toNat (max 1 (min 65537 s.accel.toNat)) →
      (b.out.length ≤ s.dstCap.toNat →
        ∃ t, exec .hmtCompress s = .next t ∧ endedWith t .ok (BitVec.ofNat 32 b.out.length) 0#32 0#32 ∧
          t.r0.toNat = b.out.length ∧ wroteExactly s t s.dstAddr.toNat b.out ∧ t.ht = b.ht ∧ sameOperands s t ∧
          sameFrameInfo s t ∧ sameHost s t ∧ t.xs = s.xs) ∧
      (s.dstCap.toNat < b.out.length →
        ∃ t, exec .hmtCompress s = .next t ∧ endedWith t .outputTooSmall 0#32 0#32 0#32 ∧
          (∀ a : Nat, a < s.dstAddr.toNat ∨ s.dstAddr.toNat + s.dstCap.toNat ≤ a → t.mem.read a = s.mem.read a) ∧
          sameOperands s t ∧ sameFrameInfo s t ∧ sameHost s t ∧ t.xs = s.xs)) ∧
    ∀ s : State,
      (¬s.regionsOk → failsWith .hmtCompress s .badOperand) ∧
        (s.regionsOk → 0x7E000000 < s.srcLen.toNat → failsWith .hmtCompress s .inputTooLarge)

/-- R145. -/
def Obligations.HmtBoundGivesTheBound : Prop :=
  (∀ s : State, s.opA.toNat ≤ 0x7E000000 →
    ∃ t, exec .hmtBound s = .next t ∧ endedWith t .ok t.r0 0#32 0#32 ∧
      t.r0.toNat = s.opA.toNat + s.opA.toNat / 255 + 16 ∧ t.r0.toNat ≤ 2122219150 ∧ keepsAll s t) ∧
    ∀ s : State, 0x7E000000 < s.opA.toNat → failsWith .hmtBound s .inputTooLarge

/-- R170: the sequence's bytes are written to D, its size and token reported; and each check, in the rule's order. -/
def Obligations.TencSeqWritesOneSequence : Prop :=
  (∀ (s : State) (bs : List Byte),
    s.raced = [] → s.regionsOk → 4 ≤ s.opA.toNat → s.opA.toNat ≤ 0x7E000004 → 1 ≤ s.opB.toNat →
    s.opB.toNat ≤ 65535 → s.srcLen.toNat ≤ 0x7E000000 →
    bs = seqBytes (s.inBytes 0 s.srcLen.toNat) s.opA.toNat s.opB.toNat → bs.length ≤ s.dstCap.toNat →
      ∃ t, exec .tencSeq s = .next t ∧
        endedWith t .ok (BitVec.ofNat 32 (seqSize s.srcLen.toNat s.opA.toNat)) ((bs.getD 0 0#8).setWidth 32) 0#32 ∧
        keepsAllButStore s t bs) ∧
    (∀ s : State, ¬s.regionsOk → failsWith .tencSeq s .badOperand) ∧
    ∀ s : State, s.regionsOk →
      (s.opA.toNat < 4 ∨ 0x7E000004 < s.opA.toNat → failsWith .tencSeq s .badOperand) ∧
        (s.opB.toNat = 0 ∨ 65535 < s.opB.toNat → failsWith .tencSeq s .badOperand) ∧
        (4 ≤ s.opA.toNat → s.opA.toNat ≤ 0x7E000004 → 1 ≤ s.opB.toNat → s.opB.toNat ≤ 65535 →
          (0x7E000000 < s.srcLen.toNat → failsWith .tencSeq s .inputTooLarge) ∧
            (s.srcLen.toNat ≤ 0x7E000000 → s.dstCap.toNat < seqSize s.srcLen.toNat s.opA.toNat →
              failsWith .tencSeq s .outputTooSmall))

/-- R171. -/
def Obligations.TencLastWritesTheFinalSequence : Prop :=
  (∀ (s : State) (bs : List Byte),
    s.raced = [] → s.regionsOk → s.srcLen.toNat ≤ 0x7E000000 → bs = lastBytes (s.inBytes 0 s.srcLen.toNat) →
    bs.length ≤ s.dstCap.toNat →
      ∃ t, exec .tencLast s = .next t ∧
        endedWith t .ok (BitVec.ofNat 32 (lastSize s.srcLen.toNat)) ((bs.getD 0 0#8).setWidth 32) 0#32 ∧
        keepsAllButStore s t bs) ∧
    (∀ s : State, ¬s.regionsOk → failsWith .tencLast s .badOperand) ∧
    ∀ s : State, s.regionsOk →
      (0x7E000000 < s.srcLen.toNat → failsWith .tencLast s .inputTooLarge) ∧
        (s.srcLen.toNat ≤ 0x7E000000 → s.dstCap.toNat < lastSize s.srcLen.toNat →
          failsWith .tencLast s .outputTooSmall)

/-- R200, R37, R38: the header `PACK_HDR` makes is written to D, with its size, FLG, BD and HC reported; and each
check. -/
def Obligations.FhPackWritesTheHeader : Prop :=
  (∀ (s : State) (h : List Byte),
    s.raced = [] → s.dstOk → 4 ≤ s.fiCfg.bsid.toNat →
    h = packHeader s.fiCfg (s.fiCsizeHi ++ s.fiCsizeLo) s.fiDictId → h.length ≤ s.dstCap.toNat →
      ∃ t, exec .fhPack s = .next t ∧
        endedWith t .ok (BitVec.ofNat 32 h.length)
          (0#8 ++ h.getD (h.length - 1) 0#8 ++ h.getD 5 0#8 ++ h.getD 4 0#8) 0#32 ∧
        t.fiDesc = BitVec.ofNat 8 h.length ++ h.getD (h.length - 1) 0#8 ++ h.getD 5 0#8 ++ h.getD 4 0#8 ∧
        t.fiBlockMax.toNat = 2 ^ (8 + 2 * s.fiCfg.bsid.toNat) ∧ wroteExactly s t s.dstAddr.toNat h ∧
        sameOperands s t ∧ sameHost s t ∧ t.fiCfg = s.fiCfg ∧ t.fiCsizeLo = s.fiCsizeLo ∧
        t.fiCsizeHi = s.fiCsizeHi ∧ t.fiDictId = s.fiDictId ∧ t.fiSkipLen = s.fiSkipLen ∧ t.fiMagic = s.fiMagic ∧
        t.ht = s.ht ∧ t.xs = s.xs) ∧
    (∀ s : State, ¬s.dstOk → failsWith .fhPack s .badOperand) ∧
    ∀ s : State, s.dstOk →
      (s.fiCfg.bsid.toNat < 4 → failsWith .fhPack s .maxBlockSizeInvalid) ∧
        (4 ≤ s.fiCfg.bsid.toNat →
          s.dstCap.toNat < (packHeader s.fiCfg (s.fiCsizeHi ++ s.fiCsizeLo) s.fiDictId).length →
          failsWith .fhPack s .outputTooSmall)

/-- R201, R187 checks 4 to 13 passed: a regular header is accepted and its fields recorded. -/
def Obligations.FhParseAcceptsARegularHeader : Prop :=
  ∀ (s : State) (flg bd hc : Byte) (size : Nat),
    s.raced = [] → s.srcOk → flg = s.inByte 4 → bd = s.inByte 5 →
    size = 7 + (if flg.getLsbD 3 then 8 else 0) + (if flg.getLsbD 0 then 4 else 0) → hc = s.inByte (size - 1) →
    size ≤ s.srcLen.toNat → s.in32 0 = 0x184D2204#32 → flg.extractLsb' 6 2 = 0b01#2 → flg.getLsbD 1 = false →
    bd.getLsbD 7 = false → bd.extractLsb' 0 4 = 0#4 → 4 ≤ (bd.extractLsb' 4 3).toNat →
    hc = (xxh32 (s.inBytes 4 (size - 1)) 0#32).extractLsb' 8 8 →
      ∃ t, exec .fhParse s = .next t ∧
        endedWith t .ok (BitVec.ofNat 32 size) (0#8 ++ hc ++ bd ++ flg) 0#32 ∧
        t.fiCfg =
          { bindep := flg.getLsbD 5, bchk := flg.getLsbD 4, cchk := flg.getLsbD 2, csizeP := flg.getLsbD 3
            dictIdP := flg.getLsbD 0, bsid := bd.extractLsb' 4 3, ftype := false } ∧
        t.fiCsizeLo = (if flg.getLsbD 3 then s.in32 6 else 0#32) ∧
        t.fiCsizeHi = (if flg.getLsbD 3 then s.in32 10 else 0#32) ∧
        t.fiDictId = (if flg.getLsbD 0 then s.in32 (if flg.getLsbD 3 then 14 else 6) else 0#32) ∧
        t.fiDesc = BitVec.ofNat 8 size ++ hc ++ bd ++ flg ∧
        t.fiBlockMax.toNat = 2 ^ (8 + 2 * (bd.extractLsb' 4 3).toNat) ∧ t.fiSkipLen = 0#32 ∧
        t.fiMagic = 0x184D2204#32 ∧ sameOperands s t ∧ sameHost s t ∧ sameMemory s t ∧ t.ht = s.ht ∧ t.xs = s.xs

/-- R201, R188: a skippable frame's header is accepted and its length recorded. -/
def Obligations.FhParseAcceptsASkippableFrame : Prop :=
  ∀ s : State,
    s.raced = [] → s.srcOk → 8 ≤ s.srcLen.toNat → 0x184D2A50 ≤ (s.in32 0).toNat → (s.in32 0).toNat ≤ 0x184D2A5F →
      ∃ t, exec .fhParse s = .next t ∧ endedWith t .ok 8#32 (s.in32 4) 1#32 ∧
        t.fiCfg =
          { bindep := false, bchk := false, cchk := false, csizeP := false, dictIdP := false, bsid := 0#3
            ftype := true } ∧
        t.fiCsizeLo = 0#32 ∧ t.fiCsizeHi = 0#32 ∧ t.fiDictId = 0#32 ∧ t.fiDesc = 0x08000000#32 ∧
        t.fiBlockMax = 0#32 ∧ t.fiSkipLen = s.in32 4 ∧ t.fiMagic = s.in32 0 ∧ sameOperands s t ∧ sameHost s t ∧
        sameMemory s t ∧ t.ht = s.ht ∧ t.xs = s.xs

/-- R187: the checks of `FH_PARSE` in order; the first that fails gives the code. -/
def Obligations.FhParseReportsTheFirstFailingCheck : Prop :=
  ∀ (s : State) (flg bd : Byte) (size : Nat),
    s.raced = [] → s.srcOk → flg = s.inByte 4 → bd = s.inByte 5 →
    size = 7 + (if flg.getLsbD 3 then 8 else 0) + (if flg.getLsbD 0 then 4 else 0) →
      (s.srcLen.toNat < 4 → failsWith .fhParse s .frameHeaderIncomplete) ∧
      (4 ≤ s.srcLen.toNat → s.srcLen.toNat < 8 → 0x184D2A50 ≤ (s.in32 0).toNat → (s.in32 0).toNat ≤ 0x184D2A5F →
        failsWith .fhParse s .frameHeaderIncomplete) ∧
      (4 ≤ s.srcLen.toNat → ¬(0x184D2A50 ≤ (s.in32 0).toNat ∧ (s.in32 0).toNat ≤ 0x184D2A5F) →
        s.in32 0 ≠ 0x184D2204#32 → failsWith .fhParse s .frameTypeUnknown) ∧
      (4 ≤ s.srcLen.toNat → s.in32 0 = 0x184D2204#32 →
        (s.srcLen.toNat < 7 → failsWith .fhParse s .frameHeaderIncomplete) ∧
        (7 ≤ s.srcLen.toNat →
          (flg.extractLsb' 6 2 ≠ 0b01#2 → failsWith .fhParse s .headerVersionWrong) ∧
          (flg.extractLsb' 6 2 = 0b01#2 →
            (flg.getLsbD 1 = true ∨ bd.getLsbD 7 = true ∨ bd.extractLsb' 0 4 ≠ 0#4 →
              failsWith .fhParse s .reservedFlagSet) ∧
            (flg.getLsbD 1 = false → bd.getLsbD 7 = false → bd.extractLsb' 0 4 = 0#4 →
              ((bd.extractLsb' 4 3).toNat < 4 → failsWith .fhParse s .maxBlockSizeInvalid) ∧
              (4 ≤ (bd.extractLsb' 4 3).toNat →
                (s.srcLen.toNat < size → failsWith .fhParse s .frameHeaderIncomplete) ∧
                (size ≤ s.srcLen.toNat →
                  s.inByte (size - 1) ≠ (xxh32 (s.inBytes 4 (size - 1)) 0#32).extractLsb' 8 8 →
                  failsWith .fhParse s .headerChecksumInvalid))))))

/-- R202, R182. -/
def Obligations.FhSizeGivesTheHeaderSize : Prop :=
  (∀ s : State, ¬s.srcOk → failsWith .fhSize s .badOperand) ∧
  ∀ s : State, s.raced = [] → s.srcOk →
    (5 ≤ s.srcLen.toNat → s.in32 0 = 0x184D2204#32 →
      ∃ t, exec .fhSize s = .next t ∧ endedWith t .ok t.r0 0#32 0#32 ∧
        t.r0.toNat = 7 + (if (s.inByte 4).getLsbD 3 then 8 else 0) + (if (s.inByte 4).getLsbD 0 then 4 else 0) ∧
        keepsAll s t) ∧
    (4 ≤ s.srcLen.toNat → 0x184D2A50 ≤ (s.in32 0).toNat → (s.in32 0).toNat ≤ 0x184D2A5F →
      ∃ t, exec .fhSize s = .next t ∧ endedWith t .ok 8#32 0#32 1#32 ∧ keepsAll s t) ∧
    (s.srcLen.toNat < 4 → failsWith .fhSize s .frameHeaderIncomplete) ∧
    (s.srcLen.toNat = 4 → s.in32 0 = 0x184D2204#32 → failsWith .fhSize s .frameHeaderIncomplete) ∧
    (4 ≤ s.srcLen.toNat → ¬(0x184D2A50 ≤ (s.in32 0).toNat ∧ (s.in32 0).toNat ≤ 0x184D2A5F) →
      s.in32 0 ≠ 0x184D2204#32 → failsWith .fhSize s .frameTypeUnknown)

/-- R203, R189: the block is stored raw when `c ≥ r`. -/
def Obligations.BhPackWritesTheBlockWord : Prop :=
  (∀ s : State, ¬s.dstOk → failsWith .bhPack s .badOperand) ∧
  ∀ (s : State) (len word : Nat),
    s.dstOk → len = (if s.opB.toNat ≤ s.opA.toNat then s.opB.toNat else s.opA.toNat) →
    word = (if s.opB.toNat ≤ s.opA.toNat then 0x80000000 + len else len) →
      (s.raced = [] → 1 ≤ len → len ≤ 0x7FFFFFFF → 4 ≤ s.dstCap.toNat →
        ∃ t, exec .bhPack s = .next t ∧
          endedWith t .ok 4#32 (BitVec.ofNat 32 word) (if s.opB.toNat ≤ s.opA.toNat then 1#32 else 0#32) ∧
          keepsAllButStore s t (leBytes 4 word)) ∧
      (len = 0 ∨ 0x7FFFFFFF < len → failsWith .bhPack s .badOperand) ∧
      (1 ≤ len → len ≤ 0x7FFFFFFF → s.dstCap.toNat < 4 → failsWith .bhPack s .outputTooSmall)

/-- R204. -/
def Obligations.BhEndWritesTheEndMarker : Prop :=
  (∀ s : State, ¬s.dstOk → failsWith .bhEnd s .badOperand) ∧
  ∀ s : State, s.dstOk →
    (s.raced = [] → 4 ≤ s.dstCap.toNat →
      ∃ t, exec .bhEnd s = .next t ∧ endedWith t .ok 4#32 0#32 0#32 ∧
        keepsAllButStore s t [0#8, 0#8, 0#8, 0#8]) ∧
    (s.dstCap.toNat < 4 → failsWith .bhEnd s .outputTooSmall)

/-- R205. -/
def Obligations.BhParseReadsTheBlockWord : Prop :=
  (∀ s : State, ¬s.srcOk → failsWith .bhParse s .badOperand) ∧
  ∀ s : State, s.srcOk →
    (s.raced = [] → 4 ≤ s.srcLen.toNat →
      ∃ t, exec .bhParse s = .next t ∧ endedWith t .ok t.r0 t.r1 (if t.r0 = 0#32 then 1#32 else 0#32) ∧
        t.r0.toNat = (s.in32 0).toNat % 0x80000000 ∧ t.r1.toNat = (s.in32 0).toNat / 0x80000000 ∧ keepsAll s t) ∧
    (s.srcLen.toNat < 4 → failsWith .bhParse s .frameSizeWrong)

/-- R240, R230. -/
def Obligations.XxhInitStartsTheStream : Prop :=
  ∀ s : State,
    ∃ t, exec .xxhInit s = .next t ∧ endedWith t .ok 0#32 0#32 0#32 ∧
      t.xs =
        { seed := s.xxhSeed, v1 := s.xxhSeed + 0x9E3779B1#32 + 0x85EBCA77#32, v2 := s.xxhSeed + 0x85EBCA77#32
          v3 := s.xxhSeed, v4 := s.xxhSeed - 0x9E3779B1#32, buf := [], total := 0#64 } ∧
      sameOperands s t ∧ sameFrameInfo s t ∧ sameHost s t ∧ sameMemory s t ∧ t.ht = s.ht

/-- R241: the bytes of S are fed to the stream and the new total is reported. -/
def Obligations.XxhUpdateFeedsTheStream : Prop :=
  (∀ s : State, ¬s.srcOk → failsWith .xxhUpdate s .badOperand) ∧
  ∀ s : State, s.raced = [] → s.srcOk →
    ∃ t, exec .xxhUpdate s = .next t ∧
      endedWith t .ok (t.xs.total.extractLsb' 0 32) (t.xs.total.extractLsb' 32 32) 0#32 ∧
      t.xs = s.xs.update (s.inBytes 0 s.srcLen.toNat) ∧
      t.xs.total.toNat = (s.xs.total.toNat + s.srcLen.toNat) % 2 ^ 64 ∧
      (s.srcLen = 0#32 → s.xs.buf.length < 16 → t.xs = s.xs) ∧ sameOperands s t ∧ sameFrameInfo s t ∧ sameHost s t ∧
      sameMemory s t ∧ t.ht = s.ht

/-- R242. -/
def Obligations.XxhDigestReadsTheStream : Prop :=
  ∀ s : State,
    ∃ t, exec .xxhDigest s = .next t ∧ endedWith t .ok s.xs.digest 0#32 0#32 ∧ keepsAll s t

/-- R243. -/
def Obligations.XxhOneshotChecksTheSource : Prop :=
  (∀ s : State, ¬s.srcOk → failsWith .xxhOneshot s .badOperand) ∧
  ∀ s : State, s.raced = [] → s.srcOk →
    ∃ t, exec .xxhOneshot s = .next t ∧
      endedWith t .ok (xxh32 (s.inBytes 0 s.srcLen.toNat) s.xxhSeed) 0#32 0#32 ∧ keepsAll s t

/-- R244. -/
def Obligations.XxhCheckBlockComparesWithOpa : Prop :=
  (∀ s : State, ¬s.srcOk → failsWith .xxhCheckBlock s .badOperand) ∧
  ∀ s : State, s.raced = [] → s.srcOk →
    (xxh32 (s.inBytes 0 s.srcLen.toNat) s.xxhSeed = s.opA →
      ∃ t, exec .xxhCheckBlock s = .next t ∧ endedWith t .ok s.opA 0#32 0#32 ∧ keepsAll s t) ∧
    (xxh32 (s.inBytes 0 s.srcLen.toNat) s.xxhSeed ≠ s.opA → failsWith .xxhCheckBlock s .blockChecksumInvalid)

/-- R245, R234: a digest that differs from `OPA` ends with `ContentChecksumInvalid`. -/
def Obligations.XxhCheckContentComparesWithOpa : Prop :=
  ∀ s : State,
    (s.xs.digest = s.opA →
      ∃ t, exec .xxhCheckContent s = .next t ∧ endedWith t .ok s.opA 0#32 0#32 ∧ keepsAll s t) ∧
    (s.xs.digest ≠ s.opA → failsWith .xxhCheckContent s .contentChecksumInvalid)

/-! ## The functions -/

/-- R233, the stream law: however the bytes are split, the digest is the one-shot XXH32 of all of them. -/
def Obligations.StreamDigestIsTheOneShotChecksum : Prop :=
  ∀ (seed : Word) (ds : List (List Byte)), ds.flatten.length < 2 ^ 64 →
    (ds.foldl Stream.update (Stream.init seed)).digest = xxh32 ds.flatten seed

/-- R139, the round trip: the block of any input, read by the LZ4 block rules (R85 to R88), is the input. -/
def Obligations.CompressedBlockDecodesToItsInput : Prop :=
  ∀ (f : Nat → Byte) (n acc : Nat), n ≤ 0x7E000000 → 1 ≤ acc →
    decodeBlock (fast (fun _ i => f i) n acc).out = some ((List.range n).map f)

/-- R138, the bound. -/
def Obligations.CompressedBlockIsWithinTheBound : Prop :=
  ∀ (rd : Nat → Nat → Byte) (n acc : Nat), n ≤ 0x7E000000 → 1 ≤ acc →
    (fast rd n acc).out.length ≤ n + n / 255 + 16

/-- R132, R136: the compressor's three loops, run for the number of turns the model gives them, go round exactly as the rule
writes them: no loop is cut short. -/
def Obligations.CompressorLoopsRunToTheirOwnEnd : Prop :=
  ∀ (rd : Nat → Nat → Byte) (n : Nat),
    (∀ (ht : HashTable) (nb ip : Nat), 64 ≤ nb →
      search rd n n ht nb ip =
        if ip + 12 > n then ⟨none, ht⟩
        else if (probe rd ht ip).valid then ⟨some (ip, (probe rd ht ip).cand.toNat), (probe rd ht ip).ht⟩
        else search rd n n (probe rd ht ip).ht (nb + 1) (ip + nb / 64)) ∧
    (∀ ip m : Nat,
      extend rd n n ip m =
        if ip + 5 < n ∧ rd (readTag ip 3) ip = rd (readTag ip 4) m then extend rd n n (ip + 1) (m + 1) else ip) ∧
    (∀ (acc : Nat) (ht : HashTable) (anchor ip : Nat), 1 ≤ acc →
      fastFrom rd n acc n ht anchor ip =
        match (search rd n n ht (acc * 64) ip).hit with
        | none => ⟨lastBytes (literals rd anchor n), (search rd n n ht (acc * 64) ip).ht⟩
        | some (mstart, cand) =>
          let e := extend rd n n (mstart + 4) (cand + 4)
          let rest := fastFrom rd n acc n (search rd n n ht (acc * 64) ip).ht e e
          ⟨seqBytes (literals rd anchor mstart) (e - mstart) (mstart - cand) ++ rest.out, rest.ht⟩)

/-- R134: the match is as long as it can be: it ends at or before `n − 5`, every byte of it equals the candidate's, and it
stops only at `n − 5` or at the first difference. -/
def Obligations.MatchExtensionIsTheLongest : Prop :=
  ∀ (f : Nat → Byte) (n ip m e : Nat), ip + 5 ≤ n → e = extend (fun _ i => f i) n n ip m →
    ip ≤ e ∧ e + 5 ≤ n ∧ (∀ k : Nat, k < e - ip → f (ip + k) = f (m + k)) ∧
      (e + 5 = n ∨ f e ≠ f (m + (e - ip)))

/-- R86: the additional bytes of an extended length, how many there are, and that they read back as the length. -/
def Obligations.ExtendedLengthsReadBack : Prop :=
  ∀ (v : Nat) (rest : List Byte),
    (15 ≤ v → extBytes v = List.replicate ((v - 15) / 255) 0xFF#8 ++ [BitVec.ofNat 8 ((v - 15) % 255)]) ∧
      readLength (min v 15) (extBytes v ++ rest) = some (v, rest) ∧
      (extBytes v).length = if v < 15 then 0 else 1 + (v - 15) / 255

/-- R161, R162, R163: the bytes of a sequence and of the final sequence, part by part, and their sizes. -/
def Obligations.SequencesAreLaidOutAsTheRulesSay : Prop :=
  (∀ (lits : List Byte) (m off : Nat), 4 ≤ m →
    seqBytes lits m off =
        [BitVec.ofNat 8 (16 * min lits.length 15 + min (m - 4) 15)] ++ extBytes lits.length ++ lits ++
          [BitVec.ofNat 8 off, BitVec.ofNat 8 (off / 256)] ++ extBytes (m - 4) ∧
      (seqBytes lits m off).length =
        1 + (extBytes lits.length).length + lits.length + 2 + (extBytes (m - 4)).length) ∧
    ∀ lits : List Byte,
      lastBytes lits = [BitVec.ofNat 8 (16 * min lits.length 15)] ++ extBytes lits.length ++ lits ∧
        (lastBytes lits).length = 1 + (extBytes lits.length).length + lits.length

/-- R181, R185, R186, R89: the bytes of a packed header, and each bit of FLG and BD. -/
def Obligations.PackedHeaderIsLaidOutAsTheRulesSay : Prop :=
  ∀ (cfg : FrameCfg) (csize : DWord) (dictId : Word) (flg bd : Byte) (fields : List Byte),
    flg = packFlg cfg csize dictId → bd = packBd cfg.bsid →
    fields = (if csize = 0#64 then [] else leBytes 8 csize.toNat) ++ (if dictId = 0#32 then [] else leBytes 4 dictId.toNat) →
      packHeader cfg csize dictId =
          [0x04#8, 0x22#8, 0x4D#8, 0x18#8, flg, bd] ++ fields ++
            [(xxh32 (flg :: bd :: fields) 0#32).extractLsb' 8 8] ∧
        (packHeader cfg csize dictId).length =
          7 + (if csize = 0#64 then 0 else 8) + (if dictId = 0#32 then 0 else 4) ∧
        flg.toNat =
          64 + 32 * cfg.bindep.toNat + 16 * cfg.bchk.toNat + (if csize = 0#64 then 0 else 8) +
            4 * cfg.cchk.toNat + (if dictId = 0#32 then 0 else 1) ∧
        bd.toNat = 16 * cfg.bsid.toNat

/-- Parsing a packed header gives back the flags, the block-size id, the content size and the dictionary ID. -/
def Obligations.PackedHeaderParsesBack : Prop :=
  ∀ (cfg : FrameCfg) (csize : DWord) (dictId : Word) (h : List Byte), 4 ≤ cfg.bsid.toNat →
    h = packHeader cfg csize dictId →
      parseHeader (fun _ i => h.getD i 0#8) h.length =
        .ok (.regular (packFlg cfg csize dictId) (packBd cfg.bsid) (h.getD (h.length - 1) 0#8) h.length csize dictId)

/-! ## The register port, reset and memory -/

/-- R27, R26, R34, R21, R44: the fields of `STATUS`, `CTRL` and `FI_CFG` as a read returns them, the interrupt output, and
the offsets that read 0. -/
def Obligations.RegistersReadAsTheMapSays : Prop :=
  ∀ s : State,
    s.statusWord.toNat =
        s.busy.toNat + 2 * s.done.toNat + 4 * (if s.errCode = .ok then 0 else 1) + 8 * s.cmdRej.toNat +
          256 * s.errCode.number.toNat ∧
      s.ctrlWord.toNat = s.ie.toNat ∧
      s.fiCfg.word.toNat =
        s.fiCfg.bindep.toNat + 2 * s.fiCfg.bchk.toNat + 4 * s.fiCfg.cchk.toNat + 8 * s.fiCfg.csizeP.toNat +
          16 * s.fiCfg.dictIdP.toNat + 256 * s.fiCfg.bsid.toNat + 4096 * s.fiCfg.ftype.toNat ∧
      (s.irq = true ↔ s.ie = true ∧ s.done = true) ∧ (∀ r : Reg, s.readOffset (regOffset r) = s.readReg r) ∧
      ∀ off : BitVec 8, off = 0x3C#8 ∨ 0x60 ≤ off.toNat → s.readOffset off = 0#32

/-- R22, R23, R29, R34: a host's write to a register while no command runs. An operand register stores the bits written
(`FI_CFG` those of its RW fields), and every other register, `HT`, `XS` and memory keep their values. The agenda is the
model's own (log 9). -/
def Obligations.IdleRegisterWritesStoreTheBitsWritten : Prop :=
  ∀ (s : State) (r : Reg) (v : Word) (rest : List Turn), s.busyCmd = none →
    s.agenda = .host (.write 32 (regOffset r) v) :: rest → isOperandReg r = true →
      ∃ t, step s = .next t ∧
        t.readReg r = (if r = .fiCfg then (s.readReg r &&& 0x1018#32) ||| (v &&& 0x707#32) else v) ∧
        (∀ r' : Reg, r' ≠ r → t.readReg r' = s.readReg r') ∧ t.busyCmd = none ∧ t.ht = s.ht ∧ t.xs = s.xs ∧
        t.mem = s.mem ∧ t.agenda = rest ∧ t.hostReads = s.hostReads

/-- R21, R22, R286: at any time, a host's write to a reserved offset or to a read-only register is ignored. The agenda is
the model's own (log 9). -/
def Obligations.ReadOnlyAndReservedOffsetsIgnoreWrites : Prop :=
  ∀ (s : State) (off : BitVec 8) (v : Word) (rest : List Turn),
    s.agenda = .host (.write 32 off v) :: rest → off.toNat % 4 = 0 →
    (off = 0x3C#8 ∨ 0x60 ≤ off.toNat ∨
      ∃ r, r ∈ [Reg.id, Reg.r0, Reg.r1, Reg.r2, Reg.fiDesc, Reg.fiBlockMax, Reg.fiSkipLen, Reg.fiMagic] ∧
        off = regOffset r) →
      step s = .next { s with agenda := rest }

/-- R286: while a command runs, a host's write to an operand register stops the run as a fault of the host program (log 8,
and log 9 for the agenda). -/
def Obligations.BusyOperandWriteIsAHostFault : Prop :=
  ∀ (s : State) (w v : Word) (r : Reg) (rest : List Turn), s.busyCmd = some w →
    s.agenda = .host (.write 32 (regOffset r) v) :: rest → isOperandReg r = true →
      step s = .fault (.operandWriteWhileBusy r)

/-- R27, R26: a host's write to `STATUS`, at any time, clears `DONE` and `CMDREJ` where the value has a 1 and changes
nothing else; a write to `CTRL` without `SRST` sets `IE` and nothing else. The agenda is the model's own (log 9). -/
def Obligations.StatusAndControlWritesActAtAnyTime : Prop :=
  ∀ (s : State) (v : Word) (rest : List Turn),
    (s.agenda = .host (.write 32 0x08#8 v) :: rest →
      step s =
        .next { s with done := s.done && !v.getLsbD 1, cmdRej := s.cmdRej && !v.getLsbD 3, agenda := rest }) ∧
    (s.agenda = .host (.write 32 0x04#8 v) :: rest → v.getLsbD 1 = false →
      step s = .next { s with ie := v.getLsbD 0, agenda := rest })

/-- R21, I-REG-WIDTH, I-BUSERR: an access of another width or alignment (log 15), and a bus error while a command runs
(log 14), are refused. -/
def Obligations.UndefinedAccessesAreRefused : Prop :=
  ∀ (s : State) (width : Nat) (off : BitVec 8) (v : Word) (rest : List Turn),
    (s.agenda = .host (.write width off v) :: rest ∨ s.agenda = .host (.read width off) :: rest →
      width ≠ 32 ∨ off.toNat % 4 ≠ 0 → ∃ r, step s = .refused r) ∧
    (s.agenda = .busError :: rest → s.busyCmd ≠ none → step s = .refused .busError)

/-- R285, R21: a host's read of a register returns its value, stale or not, and changes nothing in the engine. The record
of what the host has read is the model's own (log 12). -/
def Obligations.RegisterReadsChangeNothing : Prop :=
  ∀ (s : State) (r : Reg) (rest : List Turn), s.agenda = .host (.read 32 (regOffset r)) :: rest →
    step s = .next { s with agenda := rest, hostReads := .reg (regOffset r) (s.readReg r) :: s.hostReads }

/-- R282: the soft reset. With no command running, `HT` and memory stay; with one running, only the bytes of its D may
change, and none when the word in flight is no command or a command without a D. That the host's turns survive a reset is
the model's choice (log 5). -/
def Obligations.SoftResetRestoresTheRegisters : Prop :=
  ∀ (s : State) (v : Word) (rest : List Turn),
    s.agenda = .host (.write 32 0x04#8 v) :: rest → v.getLsbD 1 = true →
      ∃ t, step s = .next t ∧ (∀ r : Reg, t.readReg r = State.reset.readReg r) ∧ t.xs = Stream.init 0#32 ∧
        t.busyCmd = none ∧ t.irq = false ∧ t.agenda = rest ∧ t.hostReads = s.hostReads ∧
        (s.busyCmd = none → t.ht = s.ht) ∧
        ((∀ i : Instr, s.busyCmd = some (encode i) → usesDst i = false) → t.mem = s.mem) ∧
        ∀ a : Nat, a < s.dstAddr.toNat ∨ s.dstAddr.toNat + s.dstCap.toNat ≤ a → t.mem.read a = s.mem.read a

/-- R280: the hardware reset. Memory stays, but for the bytes of D of a command in flight that has a D. That the turns to
come and the host's reads survive it is the model's choice (log 5). -/
def Obligations.HardwareResetRestoresTheRegisters : Prop :=
  ∀ (s : State) (rest : List Turn), s.agenda = .hardReset :: rest →
    ∃ t, step s = .next t ∧ (∀ r : Reg, t.readReg r = State.reset.readReg r) ∧ t.xs = Stream.init 0#32 ∧
      t.busyCmd = none ∧ t.irq = false ∧ t.agenda = rest ∧ t.hostReads = s.hostReads ∧
      ((∀ i : Instr, s.busyCmd = some (encode i) → usesDst i = false) → t.mem = s.mem) ∧
      ∀ a : Nat, a < s.dstAddr.toNat ∨ s.dstAddr.toNat + s.dstCap.toNat ≤ a → t.mem.read a = s.mem.read a

/-- R73, I-RACE-SRC: each read of the engine answers the byte that stands there or, where the host wrote it during the
command, one the host overwrote; a byte both write ends as the host's or the engine's; a host's read during a command sees
the byte before it or one the command writes. What makes a race: each host access of memory while a command runs. A store
writes its byte and records, with its address, the byte it overwrote; a load returns the byte that stands there or one the
command writes, and of the latter records that it was seen; a copy is both. And what was seen is written: where the host has
not itself stored, the command leaves the byte a load saw it write, unless it ends with `OutputTooSmall`, after which D holds
any value (log 4). How the free values are drawn (log 6), that a load sees the host's own byte and no byte of a command but
its last (log 7), the turns (log 9) and their grain of one byte (log 21) are the model's own. -/
def Obligations.RacesAnswerOnlyTheRacingValues : Prop :=
  (∀ (s : State) (tag a : Nat) (b : Byte),
    (s.engineRead tag a = s.mem.read a ∨ (a, s.engineRead tag a) ∈ s.raced) ∧
      (s.raced = [] → s.engineRead tag a = s.mem.read a) ∧
      ((s.engineWrite s.mem a b).read a = b ∨
        (s.engineWrite s.mem a b).read a = s.mem.read a ∧ ∃ old, (a, old) ∈ s.raced) ∧
      (s.hostLoad a = s.mem.read a ∨ s.settled.mayWrite a (s.hostLoad a) = true) ∧
      (s.busyCmd = none → s.hostLoad a = s.mem.read a)) ∧
    (∀ (s : State) (w : Word) (rest : List Turn), s.busyCmd = some w →
      (∀ (addr : Word) (b : Byte), s.agenda = .host (.storeByte addr b) :: rest →
        ∃ t, step s = .next t ∧ t.mem.read addr.toNat = b ∧
          (∀ a : Nat, a ≠ addr.toNat → t.mem.read a = s.mem.read a) ∧
          t = { s with
            mem := t.mem, raced := (addr.toNat, s.mem.read addr.toNat) :: s.raced, glimpse := t.glimpse
            agenda := rest } ∧
          t.seen = s.seen) ∧
      (∀ addr : Word, s.agenda = .host (.loadByte addr) :: rest →
        ∃ t v, step s = .next t ∧ seesWhileRunning s rest addr.toNat v ∧
          t = { s with
            hostReads := .byte addr v :: s.hostReads, draws := s.draws + 1, glimpse := t.glimpse, agenda := rest } ∧
          t.seen = if v = s.mem.read addr.toNat then s.seen else (addr.toNat, v) :: s.seen) ∧
      (∀ dst src : Word, s.agenda = .host (.copyByte dst src) :: rest →
        ∃ t, seesWhileRunning s rest src.toNat (t.mem.read dst.toNat) ∧ step s = .next t ∧
          (∀ a : Nat, a ≠ dst.toNat → t.mem.read a = s.mem.read a) ∧
          t = { s with
            mem := t.mem, raced := (dst.toNat, s.mem.read dst.toNat) :: s.raced, draws := s.draws + 1
            glimpse := t.glimpse, agenda := rest } ∧
          t.seen =
            if t.mem.read dst.toNat = s.mem.read src.toNat then s.seen
            else (src.toNat, t.mem.read dst.toNat) :: s.seen)) ∧
    ∀ s t : State, s.glimpseLegal = true → s.busyCmd ≠ none → s.agenda = [] → step s = .next t →
      ∀ c ∈ s.seen, (∀ old, (c.1, old) ∉ s.raced) → t.mem.read c.1 = c.2 ∨ t.errCode = .outputTooSmall

/-- R71, R60: a host's store is a plain write of one byte, and a load or a copy sees the bytes every completed command and
every earlier store left. One byte a turn is the model's grain (log 9, log 21). -/
def Obligations.HostMemoryAccessesSeeTheLatestBytes : Prop :=
  ∀ (s : State) (rest : List Turn), s.busyCmd = none →
    (∀ (addr : Word) (b : Byte), s.agenda = .host (.storeByte addr b) :: rest →
      ∃ t, step s = .next t ∧ t.mem.read addr.toNat = b ∧
        (∀ a : Nat, a ≠ addr.toNat → t.mem.read a = s.mem.read a) ∧ { t with mem := s.mem } = { s with agenda := rest }) ∧
    (∀ addr : Word, s.agenda = .host (.loadByte addr) :: rest →
      step s =
        .next { s with agenda := rest, hostReads := .byte addr (s.mem.read addr.toNat) :: s.hostReads }) ∧
    (∀ dst src : Word, s.agenda = .host (.copyByte dst src) :: rest →
      ∃ t, step s = .next t ∧ t.mem.read dst.toNat = s.mem.read src.toNat ∧
        (∀ a : Nat, a ≠ dst.toNat → t.mem.read a = s.mem.read a) ∧ { t with mem := s.mem } = { s with agenda := rest })
end

