-- ==== Sys2Proof/Laws/Memory.lean ====
section
/-! SUPPORT. The laws of memory: reading after writing, and that every memory operation keeps the canonical form. -/

namespace Sys2Proof.Machine

@[simp] theorem Memory.read_nil (a : Nat) : Memory.read [] a = Memory.unlisted a := rfl

theorem Memory.read_cons (c : Host.Cell) (m : Memory) (a : Nat) :
    Memory.read (c :: m) a = if c.1 = a then c.2 else Memory.read m a := rfl

theorem Memory.read_erase (m : Memory) (a x : Nat) :
    (m.erase a).read x = if x = a then Memory.unlisted a else m.read x := by
  induction m with
  | nil => by_cases h : x = a <;> simp [Memory.erase, h]
  | cons c m ih =>
    unfold Memory.erase at ih ⊢
    by_cases hc : c.1 = a
    · rw [List.filter_cons_of_neg (by simpa using hc), ih, Memory.read_cons]
      by_cases hx : x = a
      · simp [hx]
      · simp [hx, hc, Ne.symm hx]
    · rw [List.filter_cons_of_pos (by simpa using hc), Memory.read_cons, ih, Memory.read_cons]
      by_cases hx : x = a
      · subst hx; simp [hc]
      · simp [hx]

/-- No cell of address `a`. -/
def Memory.lacks (m : Memory) (a : Nat) : Prop := ∀ c ∈ m, c.1 ≠ a

theorem Memory.erase_lacks (m : Memory) (a : Nat) : (m.erase a).lacks a := by
  intro c hc
  simpa using (List.mem_filter.mp hc).2

theorem Memory.read_insert (m : Memory) (a x : Nat) (b : Byte) (h : m.lacks a) :
    (Memory.insert a b m).read x = if x = a then b else m.read x := by
  induction m with
  | nil => simp [Memory.insert, Memory.read_cons, eq_comm]
  | cons c m ih =>
    have hm : Memory.lacks m a := fun d hd => h d (List.mem_cons_of_mem _ hd)
    have hc : c.1 ≠ a := h c (List.mem_cons_self ..)
    unfold Memory.insert
    split
    · rw [Memory.read_cons]; simp [eq_comm]
    · rw [Memory.read_cons, ih hm, Memory.read_cons]
      by_cases hx : x = a
      · subst hx; simp [hc]
      · simp [hx]

/-- A read after a write: the written byte at the written address, and any other byte as before. -/
theorem Memory.read_write (m : Memory) (a x : Nat) (b : Byte) :
    (m.write a b).read x = if x = a then b else m.read x := by
  unfold Memory.write
  split
  · rename_i hb; rw [Memory.read_erase, hb]
  · rw [Memory.read_insert _ _ _ _ (m.erase_lacks a), Memory.read_erase]
    split <;> rfl

@[simp] theorem Memory.read_write_same (m : Memory) (a : Nat) (b : Byte) : (m.write a b).read a = b := by
  simp [Memory.read_write]

theorem Memory.read_write_other (m : Memory) (a x : Nat) (b : Byte) (h : x ≠ a) :
    (m.write a b).read x = m.read x := by
  simp [Memory.read_write, h]

theorem Memory.wfFrom_cons (lo : Nat) (c : Host.Cell) (m : Memory) :
    Memory.wfFrom lo (c :: m) = true ↔
      lo ≤ c.1 ∧ c.1 < Config.addrSpace ∧ c.2 ≠ Memory.unlisted c.1 ∧ Memory.wfFrom (c.1 + 1) m = true := by
  simp [Memory.wfFrom, and_assoc]

theorem Memory.wfFrom_mono {lo lo' : Nat} (m : Memory) (h : lo' ≤ lo) (hm : Memory.wfFrom lo m = true) :
    Memory.wfFrom lo' m = true := by
  cases m with
  | nil => rfl
  | cons c m =>
    rw [Memory.wfFrom_cons] at hm ⊢
    exact ⟨h.trans hm.1, hm.2⟩

theorem Memory.erase_wfFrom (m : Memory) (a lo : Nat) (hm : Memory.wfFrom lo m = true) :
    Memory.wfFrom lo (m.erase a) = true := by
  induction m generalizing lo with
  | nil => rfl
  | cons c m ih =>
    obtain ⟨h1, h2, h3, h4⟩ := (Memory.wfFrom_cons ..).mp hm
    have ih' := ih (c.1 + 1) h4
    unfold Memory.erase at ih' ⊢
    by_cases hc : c.1 = a
    · rw [List.filter_cons_of_neg (by simpa using hc)]
      exact Memory.wfFrom_mono _ (by omega) ih'
    · rw [List.filter_cons_of_pos (by simpa using hc), Memory.wfFrom_cons]
      exact ⟨h1, h2, h3, ih'⟩

theorem Memory.insert_wfFrom (m : Memory) (a lo : Nat) (b : Byte) (ha : lo ≤ a) (has : a < Config.addrSpace)
    (hb : b ≠ Memory.unlisted a) (hl : m.lacks a) (hm : Memory.wfFrom lo m = true) :
    Memory.wfFrom lo (Memory.insert a b m) = true := by
  induction m generalizing lo with
  | nil => simp [Memory.insert, Memory.wfFrom, ha, has, hb]
  | cons c m ih =>
    obtain ⟨h1, h2, h3, h4⟩ := (Memory.wfFrom_cons ..).mp hm
    have hc : c.1 ≠ a := hl c (List.mem_cons_self ..)
    unfold Memory.insert
    split
    · rename_i hlt
      rw [Memory.wfFrom_cons]
      exact ⟨ha, has, hb, (Memory.wfFrom_cons ..).mpr ⟨hlt, h2, h3, h4⟩⟩
    · rw [Memory.wfFrom_cons]
      exact ⟨h1, h2, h3, ih (c.1 + 1) (by omega) (fun d hd => hl d (List.mem_cons_of_mem _ hd)) h4⟩

/-- Writing a byte inside the address space keeps the canonical form. -/
theorem Memory.write_wf (m : Memory) (a : Nat) (b : Byte) (ha : a < Config.addrSpace) (hm : m.wf = true) :
    (m.write a b).wf = true := by
  unfold Memory.write
  split
  · exact Memory.erase_wfFrom m a 0 hm
  · rename_i hb
    exact Memory.insert_wfFrom _ a 0 b (Nat.zero_le _) ha hb (m.erase_lacks a) (Memory.erase_wfFrom m a 0 hm)

/-- Filling with free values keeps the canonical form. -/
theorem Memory.freeFill_wf (m : Memory) (k base n : Nat) (hm : m.wf = true) : (m.freeFill k base n).wf = true := by
  induction n with
  | zero => exact hm
  | succ n ih =>
    unfold Memory.freeFill
    split
    · rename_i h; exact Memory.write_wf _ _ _ h ih
    · exact ih

/-- Filling with free values leaves every byte outside the filled region alone. -/
theorem Memory.freeFill_read_outside (m : Memory) (k base n a : Nat) (h : a < base ∨ base + n ≤ a) :
    (m.freeFill k base n).read a = m.read a := by
  induction n with
  | zero => rfl
  | succ n ih =>
    unfold Memory.freeFill
    split
    · rw [Memory.read_write_other _ _ _ _ (by omega)]; exact ih (by omega)
    · exact ih (by omega)

/-- A free fill of the same bytes in two memories leaves every byte equal in both or unchanged in both. -/
theorem Memory.freeFill_agree (m m' : Memory) (k base n x : Nat) :
    (m'.freeFill k base n).read x = (m.freeFill k base n).read x ∨
      ((m'.freeFill k base n).read x = m'.read x ∧ (m.freeFill k base n).read x = m.read x) := by
  induction n with
  | zero => exact .inr ⟨rfl, rfl⟩
  | succ n ih =>
    unfold Memory.freeFill
    split
    · simp only [Memory.read_write]; split
      · exact .inl rfl
      · exact ih
    · exact ih

theorem Memory.read_of_wfFrom {lo : Nat} (m : Memory) (hm : Memory.wfFrom lo m = true) (a : Nat) (h : a < lo) :
    m.read a = Memory.unlisted a := by
  induction m generalizing lo with
  | nil => rfl
  | cons c m ih =>
    obtain ⟨h1, -, -, h4⟩ := (Memory.wfFrom_cons ..).mp hm
    rw [Memory.read_cons, if_neg (by omega)]
    exact ih h4 (by omega)

theorem Memory.eq_of_read_eq_from {lo : Nat} (m m' : Memory) (hm : Memory.wfFrom lo m = true)
    (hm' : Memory.wfFrom lo m' = true) (h : ∀ a, m.read a = m'.read a) : m = m' := by
  induction m generalizing lo m' with
  | nil =>
    cases m' with
    | nil => rfl
    | cons c m' =>
      obtain ⟨-, -, h3, -⟩ := (Memory.wfFrom_cons ..).mp hm'
      have := h c.1
      simp [Memory.read_cons] at this
      exact absurd this.symm h3
  | cons c m ih =>
    obtain ⟨h1, h2, h3, h4⟩ := (Memory.wfFrom_cons ..).mp hm
    cases m' with
    | nil =>
      have := h c.1
      simp [Memory.read_cons] at this
      exact absurd this h3
    | cons d m' =>
      obtain ⟨g1, g2, g3, g4⟩ := (Memory.wfFrom_cons ..).mp hm'
      have hcd : c.1 = d.1 := by
        rcases Nat.lt_trichotomy c.1 d.1 with hlt | heq | hgt
        · have hc := h c.1
          rw [Memory.read_of_wfFrom (d :: m') ((Memory.wfFrom_cons ..).mpr ⟨le_rfl, g2, g3, g4⟩) c.1 hlt] at hc
          simp [Memory.read_cons] at hc
          exact absurd hc h3
        · exact heq
        · have hd := h d.1
          rw [Memory.read_of_wfFrom (c :: m) ((Memory.wfFrom_cons ..).mpr ⟨le_rfl, h2, h3, h4⟩) d.1 hgt] at hd
          simp [Memory.read_cons] at hd
          exact absurd hd.symm g3
      have hval : c.2 = d.2 := by
        have := h c.1
        simpa [Memory.read_cons, hcd] using this
      have hrest : m = m' := by
        refine ih m' h4 (by rw [hcd]; exact g4) fun a => ?_
        by_cases ha : a ≤ c.1
        · rw [Memory.read_of_wfFrom m h4 a (by omega), Memory.read_of_wfFrom m' g4 a (by omega)]
        · have := h a
          rw [Memory.read_cons, if_neg (by omega), Memory.read_cons, if_neg (by omega)] at this
          exact this
      rw [hrest, Prod.ext hcd hval]

/-- Memories in canonical form that read alike are equal. -/
theorem Memory.eq_of_read_eq (m m' : Memory) (hm : m.wf = true) (hm' : m'.wf = true) (h : ∀ a, m.read a = m'.read a) :
    m = m' :=
  Memory.eq_of_read_eq_from m m' hm hm' h

end Sys2Proof.Machine
end

