-- ==== Sys2Proof/Laws/State.lean ====
section
/-! SUPPORT. One lemma per field per named update of the state, true by `rfl`, so that no later proof unfolds a record
update. -/

namespace Sys2Proof.Machine

@[simp] theorem State.finish_ie (s : State) (code : StatusCode) (a b c : Word) : (s.finish code a b c).ie = s.ie := rfl
@[simp] theorem State.finish_done (s : State) (code : StatusCode) (a b c : Word) : (s.finish code a b c).done = true := rfl
@[simp] theorem State.finish_cmdRej (s : State) (code : StatusCode) (a b c : Word) : (s.finish code a b c).cmdRej = s.cmdRej := rfl
@[simp] theorem State.finish_errCode (s : State) (code : StatusCode) (a b c : Word) : (s.finish code a b c).errCode = code := rfl
@[simp] theorem State.finish_cmd (s : State) (code : StatusCode) (a b c : Word) : (s.finish code a b c).cmd = s.cmd := rfl
@[simp] theorem State.finish_busyCmd (s : State) (code : StatusCode) (a b c : Word) : (s.finish code a b c).busyCmd = none := rfl
@[simp] theorem State.finish_srcAddr (s : State) (code : StatusCode) (a b c : Word) : (s.finish code a b c).srcAddr = s.srcAddr := rfl
@[simp] theorem State.finish_srcLen (s : State) (code : StatusCode) (a b c : Word) : (s.finish code a b c).srcLen = s.srcLen := rfl
@[simp] theorem State.finish_dstAddr (s : State) (code : StatusCode) (a b c : Word) : (s.finish code a b c).dstAddr = s.dstAddr := rfl
@[simp] theorem State.finish_dstCap (s : State) (code : StatusCode) (a b c : Word) : (s.finish code a b c).dstCap = s.dstCap := rfl
@[simp] theorem State.finish_accel (s : State) (code : StatusCode) (a b c : Word) : (s.finish code a b c).accel = s.accel := rfl
@[simp] theorem State.finish_opA (s : State) (code : StatusCode) (a b c : Word) : (s.finish code a b c).opA = s.opA := rfl
@[simp] theorem State.finish_opB (s : State) (code : StatusCode) (a b c : Word) : (s.finish code a b c).opB = s.opB := rfl
@[simp] theorem State.finish_r0 (s : State) (code : StatusCode) (a b c : Word) : (s.finish code a b c).r0 = a := rfl
@[simp] theorem State.finish_r1 (s : State) (code : StatusCode) (a b c : Word) : (s.finish code a b c).r1 = b := rfl
@[simp] theorem State.finish_r2 (s : State) (code : StatusCode) (a b c : Word) : (s.finish code a b c).r2 = c := rfl
@[simp] theorem State.finish_xxhSeed (s : State) (code : StatusCode) (a b c : Word) : (s.finish code a b c).xxhSeed = s.xxhSeed := rfl
@[simp] theorem State.finish_fiCfg (s : State) (code : StatusCode) (a b c : Word) : (s.finish code a b c).fiCfg = s.fiCfg := rfl
@[simp] theorem State.finish_fiCsizeLo (s : State) (code : StatusCode) (a b c : Word) : (s.finish code a b c).fiCsizeLo = s.fiCsizeLo := rfl
@[simp] theorem State.finish_fiCsizeHi (s : State) (code : StatusCode) (a b c : Word) : (s.finish code a b c).fiCsizeHi = s.fiCsizeHi := rfl
@[simp] theorem State.finish_fiDictId (s : State) (code : StatusCode) (a b c : Word) : (s.finish code a b c).fiDictId = s.fiDictId := rfl
@[simp] theorem State.finish_fiDesc (s : State) (code : StatusCode) (a b c : Word) : (s.finish code a b c).fiDesc = s.fiDesc := rfl
@[simp] theorem State.finish_fiBlockMax (s : State) (code : StatusCode) (a b c : Word) : (s.finish code a b c).fiBlockMax = s.fiBlockMax := rfl
@[simp] theorem State.finish_fiSkipLen (s : State) (code : StatusCode) (a b c : Word) : (s.finish code a b c).fiSkipLen = s.fiSkipLen := rfl
@[simp] theorem State.finish_fiMagic (s : State) (code : StatusCode) (a b c : Word) : (s.finish code a b c).fiMagic = s.fiMagic := rfl
@[simp] theorem State.finish_ht (s : State) (code : StatusCode) (a b c : Word) : (s.finish code a b c).ht = s.ht := rfl
@[simp] theorem State.finish_xs (s : State) (code : StatusCode) (a b c : Word) : (s.finish code a b c).xs = s.xs := rfl
@[simp] theorem State.finish_mem (s : State) (code : StatusCode) (a b c : Word) : (s.finish code a b c).mem = s.mem := rfl
@[simp] theorem State.finish_agenda (s : State) (code : StatusCode) (a b c : Word) : (s.finish code a b c).agenda = s.agenda := rfl
@[simp] theorem State.finish_raced (s : State) (code : StatusCode) (a b c : Word) : (s.finish code a b c).raced = [] := rfl
@[simp] theorem State.finish_glimpse (s : State) (code : StatusCode) (a b c : Word) : (s.finish code a b c).glimpse = none := rfl
@[simp] theorem State.finish_draws (s : State) (code : StatusCode) (a b c : Word) : (s.finish code a b c).draws = s.draws + 1 := rfl
@[simp] theorem State.finish_hostReads (s : State) (code : StatusCode) (a b c : Word) : (s.finish code a b c).hostReads = s.hostReads := rfl

@[simp] theorem State.accept_ie (s : State) (w : Word) : (s.accept w).ie = s.ie := rfl
@[simp] theorem State.accept_done (s : State) (w : Word) : (s.accept w).done = false := rfl
@[simp] theorem State.accept_cmdRej (s : State) (w : Word) : (s.accept w).cmdRej = s.cmdRej := rfl
@[simp] theorem State.accept_errCode (s : State) (w : Word) : (s.accept w).errCode = .ok := rfl
@[simp] theorem State.accept_cmd (s : State) (w : Word) : (s.accept w).cmd = w := rfl
@[simp] theorem State.accept_busyCmd (s : State) (w : Word) : (s.accept w).busyCmd = some w := rfl
@[simp] theorem State.accept_srcAddr (s : State) (w : Word) : (s.accept w).srcAddr = s.srcAddr := rfl
@[simp] theorem State.accept_srcLen (s : State) (w : Word) : (s.accept w).srcLen = s.srcLen := rfl
@[simp] theorem State.accept_dstAddr (s : State) (w : Word) : (s.accept w).dstAddr = s.dstAddr := rfl
@[simp] theorem State.accept_dstCap (s : State) (w : Word) : (s.accept w).dstCap = s.dstCap := rfl
@[simp] theorem State.accept_accel (s : State) (w : Word) : (s.accept w).accel = s.accel := rfl
@[simp] theorem State.accept_opA (s : State) (w : Word) : (s.accept w).opA = s.opA := rfl
@[simp] theorem State.accept_opB (s : State) (w : Word) : (s.accept w).opB = s.opB := rfl
@[simp] theorem State.accept_r0 (s : State) (w : Word) : (s.accept w).r0 = s.r0 := rfl
@[simp] theorem State.accept_r1 (s : State) (w : Word) : (s.accept w).r1 = s.r1 := rfl
@[simp] theorem State.accept_r2 (s : State) (w : Word) : (s.accept w).r2 = s.r2 := rfl
@[simp] theorem State.accept_xxhSeed (s : State) (w : Word) : (s.accept w).xxhSeed = s.xxhSeed := rfl
@[simp] theorem State.accept_fiCfg (s : State) (w : Word) : (s.accept w).fiCfg = s.fiCfg := rfl
@[simp] theorem State.accept_fiCsizeLo (s : State) (w : Word) : (s.accept w).fiCsizeLo = s.fiCsizeLo := rfl
@[simp] theorem State.accept_fiCsizeHi (s : State) (w : Word) : (s.accept w).fiCsizeHi = s.fiCsizeHi := rfl
@[simp] theorem State.accept_fiDictId (s : State) (w : Word) : (s.accept w).fiDictId = s.fiDictId := rfl
@[simp] theorem State.accept_fiDesc (s : State) (w : Word) : (s.accept w).fiDesc = s.fiDesc := rfl
@[simp] theorem State.accept_fiBlockMax (s : State) (w : Word) : (s.accept w).fiBlockMax = s.fiBlockMax := rfl
@[simp] theorem State.accept_fiSkipLen (s : State) (w : Word) : (s.accept w).fiSkipLen = s.fiSkipLen := rfl
@[simp] theorem State.accept_fiMagic (s : State) (w : Word) : (s.accept w).fiMagic = s.fiMagic := rfl
@[simp] theorem State.accept_ht (s : State) (w : Word) : (s.accept w).ht = s.ht := rfl
@[simp] theorem State.accept_xs (s : State) (w : Word) : (s.accept w).xs = s.xs := rfl
@[simp] theorem State.accept_mem (s : State) (w : Word) : (s.accept w).mem = s.mem := rfl
@[simp] theorem State.accept_agenda (s : State) (w : Word) : (s.accept w).agenda = s.agenda := rfl
@[simp] theorem State.accept_raced (s : State) (w : Word) : (s.accept w).raced = [] := rfl
@[simp] theorem State.accept_glimpse (s : State) (w : Word) : (s.accept w).glimpse = none := rfl
@[simp] theorem State.accept_draws (s : State) (w : Word) : (s.accept w).draws = s.draws := rfl
@[simp] theorem State.accept_hostReads (s : State) (w : Word) : (s.accept w).hostReads = s.hostReads := rfl

@[simp] theorem State.writeDst_ie (s : State) (bs : List Byte) : (s.writeDst bs).ie = s.ie := rfl
@[simp] theorem State.writeDst_done (s : State) (bs : List Byte) : (s.writeDst bs).done = s.done := rfl
@[simp] theorem State.writeDst_cmdRej (s : State) (bs : List Byte) : (s.writeDst bs).cmdRej = s.cmdRej := rfl
@[simp] theorem State.writeDst_errCode (s : State) (bs : List Byte) : (s.writeDst bs).errCode = s.errCode := rfl
@[simp] theorem State.writeDst_cmd (s : State) (bs : List Byte) : (s.writeDst bs).cmd = s.cmd := rfl
@[simp] theorem State.writeDst_busyCmd (s : State) (bs : List Byte) : (s.writeDst bs).busyCmd = s.busyCmd := rfl
@[simp] theorem State.writeDst_srcAddr (s : State) (bs : List Byte) : (s.writeDst bs).srcAddr = s.srcAddr := rfl
@[simp] theorem State.writeDst_srcLen (s : State) (bs : List Byte) : (s.writeDst bs).srcLen = s.srcLen := rfl
@[simp] theorem State.writeDst_dstAddr (s : State) (bs : List Byte) : (s.writeDst bs).dstAddr = s.dstAddr := rfl
@[simp] theorem State.writeDst_dstCap (s : State) (bs : List Byte) : (s.writeDst bs).dstCap = s.dstCap := rfl
@[simp] theorem State.writeDst_accel (s : State) (bs : List Byte) : (s.writeDst bs).accel = s.accel := rfl
@[simp] theorem State.writeDst_opA (s : State) (bs : List Byte) : (s.writeDst bs).opA = s.opA := rfl
@[simp] theorem State.writeDst_opB (s : State) (bs : List Byte) : (s.writeDst bs).opB = s.opB := rfl
@[simp] theorem State.writeDst_r0 (s : State) (bs : List Byte) : (s.writeDst bs).r0 = s.r0 := rfl
@[simp] theorem State.writeDst_r1 (s : State) (bs : List Byte) : (s.writeDst bs).r1 = s.r1 := rfl
@[simp] theorem State.writeDst_r2 (s : State) (bs : List Byte) : (s.writeDst bs).r2 = s.r2 := rfl
@[simp] theorem State.writeDst_xxhSeed (s : State) (bs : List Byte) : (s.writeDst bs).xxhSeed = s.xxhSeed := rfl
@[simp] theorem State.writeDst_fiCfg (s : State) (bs : List Byte) : (s.writeDst bs).fiCfg = s.fiCfg := rfl
@[simp] theorem State.writeDst_fiCsizeLo (s : State) (bs : List Byte) : (s.writeDst bs).fiCsizeLo = s.fiCsizeLo := rfl
@[simp] theorem State.writeDst_fiCsizeHi (s : State) (bs : List Byte) : (s.writeDst bs).fiCsizeHi = s.fiCsizeHi := rfl
@[simp] theorem State.writeDst_fiDictId (s : State) (bs : List Byte) : (s.writeDst bs).fiDictId = s.fiDictId := rfl
@[simp] theorem State.writeDst_fiDesc (s : State) (bs : List Byte) : (s.writeDst bs).fiDesc = s.fiDesc := rfl
@[simp] theorem State.writeDst_fiBlockMax (s : State) (bs : List Byte) : (s.writeDst bs).fiBlockMax = s.fiBlockMax := rfl
@[simp] theorem State.writeDst_fiSkipLen (s : State) (bs : List Byte) : (s.writeDst bs).fiSkipLen = s.fiSkipLen := rfl
@[simp] theorem State.writeDst_fiMagic (s : State) (bs : List Byte) : (s.writeDst bs).fiMagic = s.fiMagic := rfl
@[simp] theorem State.writeDst_ht (s : State) (bs : List Byte) : (s.writeDst bs).ht = s.ht := rfl
@[simp] theorem State.writeDst_xs (s : State) (bs : List Byte) : (s.writeDst bs).xs = s.xs := rfl
@[simp] theorem State.writeDst_mem (s : State) (bs : List Byte) : (s.writeDst bs).mem = s.engineWrites s.mem s.dstAddr.toNat bs := rfl
@[simp] theorem State.writeDst_agenda (s : State) (bs : List Byte) : (s.writeDst bs).agenda = s.agenda := rfl
@[simp] theorem State.writeDst_raced (s : State) (bs : List Byte) : (s.writeDst bs).raced = s.raced := rfl
@[simp] theorem State.writeDst_glimpse (s : State) (bs : List Byte) : (s.writeDst bs).glimpse = s.glimpse := rfl
@[simp] theorem State.writeDst_draws (s : State) (bs : List Byte) : (s.writeDst bs).draws = s.draws := rfl
@[simp] theorem State.writeDst_hostReads (s : State) (bs : List Byte) : (s.writeDst bs).hostReads = s.hostReads := rfl

@[simp] theorem State.discardBlock_ie (s : State) : (s.discardBlock).ie = s.ie := rfl
@[simp] theorem State.discardBlock_done (s : State) : (s.discardBlock).done = s.done := rfl
@[simp] theorem State.discardBlock_cmdRej (s : State) : (s.discardBlock).cmdRej = s.cmdRej := rfl
@[simp] theorem State.discardBlock_errCode (s : State) : (s.discardBlock).errCode = s.errCode := rfl
@[simp] theorem State.discardBlock_cmd (s : State) : (s.discardBlock).cmd = s.cmd := rfl
@[simp] theorem State.discardBlock_busyCmd (s : State) : (s.discardBlock).busyCmd = s.busyCmd := rfl
@[simp] theorem State.discardBlock_srcAddr (s : State) : (s.discardBlock).srcAddr = s.srcAddr := rfl
@[simp] theorem State.discardBlock_srcLen (s : State) : (s.discardBlock).srcLen = s.srcLen := rfl
@[simp] theorem State.discardBlock_dstAddr (s : State) : (s.discardBlock).dstAddr = s.dstAddr := rfl
@[simp] theorem State.discardBlock_dstCap (s : State) : (s.discardBlock).dstCap = s.dstCap := rfl
@[simp] theorem State.discardBlock_accel (s : State) : (s.discardBlock).accel = s.accel := rfl
@[simp] theorem State.discardBlock_opA (s : State) : (s.discardBlock).opA = s.opA := rfl
@[simp] theorem State.discardBlock_opB (s : State) : (s.discardBlock).opB = s.opB := rfl
@[simp] theorem State.discardBlock_r0 (s : State) : (s.discardBlock).r0 = s.r0 := rfl
@[simp] theorem State.discardBlock_r1 (s : State) : (s.discardBlock).r1 = s.r1 := rfl
@[simp] theorem State.discardBlock_r2 (s : State) : (s.discardBlock).r2 = s.r2 := rfl
@[simp] theorem State.discardBlock_xxhSeed (s : State) : (s.discardBlock).xxhSeed = s.xxhSeed := rfl
@[simp] theorem State.discardBlock_fiCfg (s : State) : (s.discardBlock).fiCfg = s.fiCfg := rfl
@[simp] theorem State.discardBlock_fiCsizeLo (s : State) : (s.discardBlock).fiCsizeLo = s.fiCsizeLo := rfl
@[simp] theorem State.discardBlock_fiCsizeHi (s : State) : (s.discardBlock).fiCsizeHi = s.fiCsizeHi := rfl
@[simp] theorem State.discardBlock_fiDictId (s : State) : (s.discardBlock).fiDictId = s.fiDictId := rfl
@[simp] theorem State.discardBlock_fiDesc (s : State) : (s.discardBlock).fiDesc = s.fiDesc := rfl
@[simp] theorem State.discardBlock_fiBlockMax (s : State) : (s.discardBlock).fiBlockMax = s.fiBlockMax := rfl
@[simp] theorem State.discardBlock_fiSkipLen (s : State) : (s.discardBlock).fiSkipLen = s.fiSkipLen := rfl
@[simp] theorem State.discardBlock_fiMagic (s : State) : (s.discardBlock).fiMagic = s.fiMagic := rfl
@[simp] theorem State.discardBlock_ht (s : State) : (s.discardBlock).ht = freeTable s.draws := rfl
@[simp] theorem State.discardBlock_xs (s : State) : (s.discardBlock).xs = s.xs := rfl
@[simp] theorem State.discardBlock_mem (s : State) : (s.discardBlock).mem = s.mem.freeFill s.draws s.dst.base s.dst.len := rfl
@[simp] theorem State.discardBlock_agenda (s : State) : (s.discardBlock).agenda = s.agenda := rfl
@[simp] theorem State.discardBlock_raced (s : State) : (s.discardBlock).raced = s.raced := rfl
@[simp] theorem State.discardBlock_glimpse (s : State) : (s.discardBlock).glimpse = s.glimpse := rfl
@[simp] theorem State.discardBlock_draws (s : State) : (s.discardBlock).draws = s.draws := rfl
@[simp] theorem State.discardBlock_hostReads (s : State) : (s.discardBlock).hostReads = s.hostReads := rfl

@[simp] theorem State.recordPacked_ie (s : State) (flg bd hc : Byte) (size : Nat) (max : Word) : (s.recordPacked flg bd hc size max).ie = s.ie := rfl
@[simp] theorem State.recordPacked_done (s : State) (flg bd hc : Byte) (size : Nat) (max : Word) : (s.recordPacked flg bd hc size max).done = s.done := rfl
@[simp] theorem State.recordPacked_cmdRej (s : State) (flg bd hc : Byte) (size : Nat) (max : Word) : (s.recordPacked flg bd hc size max).cmdRej = s.cmdRej := rfl
@[simp] theorem State.recordPacked_errCode (s : State) (flg bd hc : Byte) (size : Nat) (max : Word) : (s.recordPacked flg bd hc size max).errCode = s.errCode := rfl
@[simp] theorem State.recordPacked_cmd (s : State) (flg bd hc : Byte) (size : Nat) (max : Word) : (s.recordPacked flg bd hc size max).cmd = s.cmd := rfl
@[simp] theorem State.recordPacked_busyCmd (s : State) (flg bd hc : Byte) (size : Nat) (max : Word) : (s.recordPacked flg bd hc size max).busyCmd = s.busyCmd := rfl
@[simp] theorem State.recordPacked_srcAddr (s : State) (flg bd hc : Byte) (size : Nat) (max : Word) : (s.recordPacked flg bd hc size max).srcAddr = s.srcAddr := rfl
@[simp] theorem State.recordPacked_srcLen (s : State) (flg bd hc : Byte) (size : Nat) (max : Word) : (s.recordPacked flg bd hc size max).srcLen = s.srcLen := rfl
@[simp] theorem State.recordPacked_dstAddr (s : State) (flg bd hc : Byte) (size : Nat) (max : Word) : (s.recordPacked flg bd hc size max).dstAddr = s.dstAddr := rfl
@[simp] theorem State.recordPacked_dstCap (s : State) (flg bd hc : Byte) (size : Nat) (max : Word) : (s.recordPacked flg bd hc size max).dstCap = s.dstCap := rfl
@[simp] theorem State.recordPacked_accel (s : State) (flg bd hc : Byte) (size : Nat) (max : Word) : (s.recordPacked flg bd hc size max).accel = s.accel := rfl
@[simp] theorem State.recordPacked_opA (s : State) (flg bd hc : Byte) (size : Nat) (max : Word) : (s.recordPacked flg bd hc size max).opA = s.opA := rfl
@[simp] theorem State.recordPacked_opB (s : State) (flg bd hc : Byte) (size : Nat) (max : Word) : (s.recordPacked flg bd hc size max).opB = s.opB := rfl
@[simp] theorem State.recordPacked_r0 (s : State) (flg bd hc : Byte) (size : Nat) (max : Word) : (s.recordPacked flg bd hc size max).r0 = s.r0 := rfl
@[simp] theorem State.recordPacked_r1 (s : State) (flg bd hc : Byte) (size : Nat) (max : Word) : (s.recordPacked flg bd hc size max).r1 = s.r1 := rfl
@[simp] theorem State.recordPacked_r2 (s : State) (flg bd hc : Byte) (size : Nat) (max : Word) : (s.recordPacked flg bd hc size max).r2 = s.r2 := rfl
@[simp] theorem State.recordPacked_xxhSeed (s : State) (flg bd hc : Byte) (size : Nat) (max : Word) : (s.recordPacked flg bd hc size max).xxhSeed = s.xxhSeed := rfl
@[simp] theorem State.recordPacked_fiCfg (s : State) (flg bd hc : Byte) (size : Nat) (max : Word) : (s.recordPacked flg bd hc size max).fiCfg = s.fiCfg := rfl
@[simp] theorem State.recordPacked_fiCsizeLo (s : State) (flg bd hc : Byte) (size : Nat) (max : Word) : (s.recordPacked flg bd hc size max).fiCsizeLo = s.fiCsizeLo := rfl
@[simp] theorem State.recordPacked_fiCsizeHi (s : State) (flg bd hc : Byte) (size : Nat) (max : Word) : (s.recordPacked flg bd hc size max).fiCsizeHi = s.fiCsizeHi := rfl
@[simp] theorem State.recordPacked_fiDictId (s : State) (flg bd hc : Byte) (size : Nat) (max : Word) : (s.recordPacked flg bd hc size max).fiDictId = s.fiDictId := rfl
@[simp] theorem State.recordPacked_fiDesc (s : State) (flg bd hc : Byte) (size : Nat) (max : Word) : (s.recordPacked flg bd hc size max).fiDesc = headerWord flg bd hc size := rfl
@[simp] theorem State.recordPacked_fiBlockMax (s : State) (flg bd hc : Byte) (size : Nat) (max : Word) : (s.recordPacked flg bd hc size max).fiBlockMax = max := rfl
@[simp] theorem State.recordPacked_fiSkipLen (s : State) (flg bd hc : Byte) (size : Nat) (max : Word) : (s.recordPacked flg bd hc size max).fiSkipLen = s.fiSkipLen := rfl
@[simp] theorem State.recordPacked_fiMagic (s : State) (flg bd hc : Byte) (size : Nat) (max : Word) : (s.recordPacked flg bd hc size max).fiMagic = s.fiMagic := rfl
@[simp] theorem State.recordPacked_ht (s : State) (flg bd hc : Byte) (size : Nat) (max : Word) : (s.recordPacked flg bd hc size max).ht = s.ht := rfl
@[simp] theorem State.recordPacked_xs (s : State) (flg bd hc : Byte) (size : Nat) (max : Word) : (s.recordPacked flg bd hc size max).xs = s.xs := rfl
@[simp] theorem State.recordPacked_mem (s : State) (flg bd hc : Byte) (size : Nat) (max : Word) : (s.recordPacked flg bd hc size max).mem = s.mem := rfl
@[simp] theorem State.recordPacked_agenda (s : State) (flg bd hc : Byte) (size : Nat) (max : Word) : (s.recordPacked flg bd hc size max).agenda = s.agenda := rfl
@[simp] theorem State.recordPacked_raced (s : State) (flg bd hc : Byte) (size : Nat) (max : Word) : (s.recordPacked flg bd hc size max).raced = s.raced := rfl
@[simp] theorem State.recordPacked_glimpse (s : State) (flg bd hc : Byte) (size : Nat) (max : Word) : (s.recordPacked flg bd hc size max).glimpse = s.glimpse := rfl
@[simp] theorem State.recordPacked_draws (s : State) (flg bd hc : Byte) (size : Nat) (max : Word) : (s.recordPacked flg bd hc size max).draws = s.draws := rfl
@[simp] theorem State.recordPacked_hostReads (s : State) (flg bd hc : Byte) (size : Nat) (max : Word) : (s.recordPacked flg bd hc size max).hostReads = s.hostReads := rfl

@[simp] theorem State.writeStatus_ie (s : State) (v : Word) : (s.writeStatus v).ie = s.ie := rfl
@[simp] theorem State.writeStatus_done (s : State) (v : Word) : (s.writeStatus v).done = (s.done && !v.getLsbD 1) := rfl
@[simp] theorem State.writeStatus_cmdRej (s : State) (v : Word) : (s.writeStatus v).cmdRej = (s.cmdRej && !v.getLsbD 3) := rfl
@[simp] theorem State.writeStatus_errCode (s : State) (v : Word) : (s.writeStatus v).errCode = s.errCode := rfl
@[simp] theorem State.writeStatus_cmd (s : State) (v : Word) : (s.writeStatus v).cmd = s.cmd := rfl
@[simp] theorem State.writeStatus_busyCmd (s : State) (v : Word) : (s.writeStatus v).busyCmd = s.busyCmd := rfl
@[simp] theorem State.writeStatus_srcAddr (s : State) (v : Word) : (s.writeStatus v).srcAddr = s.srcAddr := rfl
@[simp] theorem State.writeStatus_srcLen (s : State) (v : Word) : (s.writeStatus v).srcLen = s.srcLen := rfl
@[simp] theorem State.writeStatus_dstAddr (s : State) (v : Word) : (s.writeStatus v).dstAddr = s.dstAddr := rfl
@[simp] theorem State.writeStatus_dstCap (s : State) (v : Word) : (s.writeStatus v).dstCap = s.dstCap := rfl
@[simp] theorem State.writeStatus_accel (s : State) (v : Word) : (s.writeStatus v).accel = s.accel := rfl
@[simp] theorem State.writeStatus_opA (s : State) (v : Word) : (s.writeStatus v).opA = s.opA := rfl
@[simp] theorem State.writeStatus_opB (s : State) (v : Word) : (s.writeStatus v).opB = s.opB := rfl
@[simp] theorem State.writeStatus_r0 (s : State) (v : Word) : (s.writeStatus v).r0 = s.r0 := rfl
@[simp] theorem State.writeStatus_r1 (s : State) (v : Word) : (s.writeStatus v).r1 = s.r1 := rfl
@[simp] theorem State.writeStatus_r2 (s : State) (v : Word) : (s.writeStatus v).r2 = s.r2 := rfl
@[simp] theorem State.writeStatus_xxhSeed (s : State) (v : Word) : (s.writeStatus v).xxhSeed = s.xxhSeed := rfl
@[simp] theorem State.writeStatus_fiCfg (s : State) (v : Word) : (s.writeStatus v).fiCfg = s.fiCfg := rfl
@[simp] theorem State.writeStatus_fiCsizeLo (s : State) (v : Word) : (s.writeStatus v).fiCsizeLo = s.fiCsizeLo := rfl
@[simp] theorem State.writeStatus_fiCsizeHi (s : State) (v : Word) : (s.writeStatus v).fiCsizeHi = s.fiCsizeHi := rfl
@[simp] theorem State.writeStatus_fiDictId (s : State) (v : Word) : (s.writeStatus v).fiDictId = s.fiDictId := rfl
@[simp] theorem State.writeStatus_fiDesc (s : State) (v : Word) : (s.writeStatus v).fiDesc = s.fiDesc := rfl
@[simp] theorem State.writeStatus_fiBlockMax (s : State) (v : Word) : (s.writeStatus v).fiBlockMax = s.fiBlockMax := rfl
@[simp] theorem State.writeStatus_fiSkipLen (s : State) (v : Word) : (s.writeStatus v).fiSkipLen = s.fiSkipLen := rfl
@[simp] theorem State.writeStatus_fiMagic (s : State) (v : Word) : (s.writeStatus v).fiMagic = s.fiMagic := rfl
@[simp] theorem State.writeStatus_ht (s : State) (v : Word) : (s.writeStatus v).ht = s.ht := rfl
@[simp] theorem State.writeStatus_xs (s : State) (v : Word) : (s.writeStatus v).xs = s.xs := rfl
@[simp] theorem State.writeStatus_mem (s : State) (v : Word) : (s.writeStatus v).mem = s.mem := rfl
@[simp] theorem State.writeStatus_agenda (s : State) (v : Word) : (s.writeStatus v).agenda = s.agenda := rfl
@[simp] theorem State.writeStatus_raced (s : State) (v : Word) : (s.writeStatus v).raced = s.raced := rfl
@[simp] theorem State.writeStatus_glimpse (s : State) (v : Word) : (s.writeStatus v).glimpse = s.glimpse := rfl
@[simp] theorem State.writeStatus_draws (s : State) (v : Word) : (s.writeStatus v).draws = s.draws := rfl
@[simp] theorem State.writeStatus_hostReads (s : State) (v : Word) : (s.writeStatus v).hostReads = s.hostReads := rfl

@[simp] theorem State.hostStore_ie (s : State) (a : Nat) (b : Byte) : (s.hostStore a b).ie = s.ie := rfl
@[simp] theorem State.hostStore_done (s : State) (a : Nat) (b : Byte) : (s.hostStore a b).done = s.done := rfl
@[simp] theorem State.hostStore_cmdRej (s : State) (a : Nat) (b : Byte) : (s.hostStore a b).cmdRej = s.cmdRej := rfl
@[simp] theorem State.hostStore_errCode (s : State) (a : Nat) (b : Byte) : (s.hostStore a b).errCode = s.errCode := rfl
@[simp] theorem State.hostStore_cmd (s : State) (a : Nat) (b : Byte) : (s.hostStore a b).cmd = s.cmd := rfl
@[simp] theorem State.hostStore_busyCmd (s : State) (a : Nat) (b : Byte) : (s.hostStore a b).busyCmd = s.busyCmd := rfl
@[simp] theorem State.hostStore_srcAddr (s : State) (a : Nat) (b : Byte) : (s.hostStore a b).srcAddr = s.srcAddr := rfl
@[simp] theorem State.hostStore_srcLen (s : State) (a : Nat) (b : Byte) : (s.hostStore a b).srcLen = s.srcLen := rfl
@[simp] theorem State.hostStore_dstAddr (s : State) (a : Nat) (b : Byte) : (s.hostStore a b).dstAddr = s.dstAddr := rfl
@[simp] theorem State.hostStore_dstCap (s : State) (a : Nat) (b : Byte) : (s.hostStore a b).dstCap = s.dstCap := rfl
@[simp] theorem State.hostStore_accel (s : State) (a : Nat) (b : Byte) : (s.hostStore a b).accel = s.accel := rfl
@[simp] theorem State.hostStore_opA (s : State) (a : Nat) (b : Byte) : (s.hostStore a b).opA = s.opA := rfl
@[simp] theorem State.hostStore_opB (s : State) (a : Nat) (b : Byte) : (s.hostStore a b).opB = s.opB := rfl
@[simp] theorem State.hostStore_r0 (s : State) (a : Nat) (b : Byte) : (s.hostStore a b).r0 = s.r0 := rfl
@[simp] theorem State.hostStore_r1 (s : State) (a : Nat) (b : Byte) : (s.hostStore a b).r1 = s.r1 := rfl
@[simp] theorem State.hostStore_r2 (s : State) (a : Nat) (b : Byte) : (s.hostStore a b).r2 = s.r2 := rfl
@[simp] theorem State.hostStore_xxhSeed (s : State) (a : Nat) (b : Byte) : (s.hostStore a b).xxhSeed = s.xxhSeed := rfl
@[simp] theorem State.hostStore_fiCfg (s : State) (a : Nat) (b : Byte) : (s.hostStore a b).fiCfg = s.fiCfg := rfl
@[simp] theorem State.hostStore_fiCsizeLo (s : State) (a : Nat) (b : Byte) : (s.hostStore a b).fiCsizeLo = s.fiCsizeLo := rfl
@[simp] theorem State.hostStore_fiCsizeHi (s : State) (a : Nat) (b : Byte) : (s.hostStore a b).fiCsizeHi = s.fiCsizeHi := rfl
@[simp] theorem State.hostStore_fiDictId (s : State) (a : Nat) (b : Byte) : (s.hostStore a b).fiDictId = s.fiDictId := rfl
@[simp] theorem State.hostStore_fiDesc (s : State) (a : Nat) (b : Byte) : (s.hostStore a b).fiDesc = s.fiDesc := rfl
@[simp] theorem State.hostStore_fiBlockMax (s : State) (a : Nat) (b : Byte) : (s.hostStore a b).fiBlockMax = s.fiBlockMax := rfl
@[simp] theorem State.hostStore_fiSkipLen (s : State) (a : Nat) (b : Byte) : (s.hostStore a b).fiSkipLen = s.fiSkipLen := rfl
@[simp] theorem State.hostStore_fiMagic (s : State) (a : Nat) (b : Byte) : (s.hostStore a b).fiMagic = s.fiMagic := rfl
@[simp] theorem State.hostStore_ht (s : State) (a : Nat) (b : Byte) : (s.hostStore a b).ht = s.ht := rfl
@[simp] theorem State.hostStore_xs (s : State) (a : Nat) (b : Byte) : (s.hostStore a b).xs = s.xs := rfl
@[simp] theorem State.hostStore_mem (s : State) (a : Nat) (b : Byte) : (s.hostStore a b).mem = s.mem.write a b := rfl
@[simp] theorem State.hostStore_agenda (s : State) (a : Nat) (b : Byte) : (s.hostStore a b).agenda = s.agenda := rfl
@[simp] theorem State.hostStore_raced (s : State) (a : Nat) (b : Byte) : (s.hostStore a b).raced = if s.busy then (a, s.mem.read a) :: s.raced else s.raced := rfl
@[simp] theorem State.hostStore_glimpse (s : State) (a : Nat) (b : Byte) : (s.hostStore a b).glimpse = if s.busy then s.glimpse.map (fun g => { g with later := g.later + 1 }) else s.glimpse := rfl
@[simp] theorem State.hostStore_draws (s : State) (a : Nat) (b : Byte) : (s.hostStore a b).draws = s.draws := rfl
@[simp] theorem State.hostStore_hostReads (s : State) (a : Nat) (b : Byte) : (s.hostStore a b).hostReads = s.hostReads := rfl

@[simp] theorem State.resetWith_ie (s : State) (ht : HashTable) (mem : Memory) : (s.resetWith ht mem).ie = State.reset.ie := rfl
@[simp] theorem State.resetWith_done (s : State) (ht : HashTable) (mem : Memory) : (s.resetWith ht mem).done = State.reset.done := rfl
@[simp] theorem State.resetWith_cmdRej (s : State) (ht : HashTable) (mem : Memory) : (s.resetWith ht mem).cmdRej = State.reset.cmdRej := rfl
@[simp] theorem State.resetWith_errCode (s : State) (ht : HashTable) (mem : Memory) : (s.resetWith ht mem).errCode = State.reset.errCode := rfl
@[simp] theorem State.resetWith_cmd (s : State) (ht : HashTable) (mem : Memory) : (s.resetWith ht mem).cmd = State.reset.cmd := rfl
@[simp] theorem State.resetWith_busyCmd (s : State) (ht : HashTable) (mem : Memory) : (s.resetWith ht mem).busyCmd = State.reset.busyCmd := rfl
@[simp] theorem State.resetWith_srcAddr (s : State) (ht : HashTable) (mem : Memory) : (s.resetWith ht mem).srcAddr = State.reset.srcAddr := rfl
@[simp] theorem State.resetWith_srcLen (s : State) (ht : HashTable) (mem : Memory) : (s.resetWith ht mem).srcLen = State.reset.srcLen := rfl
@[simp] theorem State.resetWith_dstAddr (s : State) (ht : HashTable) (mem : Memory) : (s.resetWith ht mem).dstAddr = State.reset.dstAddr := rfl
@[simp] theorem State.resetWith_dstCap (s : State) (ht : HashTable) (mem : Memory) : (s.resetWith ht mem).dstCap = State.reset.dstCap := rfl
@[simp] theorem State.resetWith_accel (s : State) (ht : HashTable) (mem : Memory) : (s.resetWith ht mem).accel = State.reset.accel := rfl
@[simp] theorem State.resetWith_opA (s : State) (ht : HashTable) (mem : Memory) : (s.resetWith ht mem).opA = State.reset.opA := rfl
@[simp] theorem State.resetWith_opB (s : State) (ht : HashTable) (mem : Memory) : (s.resetWith ht mem).opB = State.reset.opB := rfl
@[simp] theorem State.resetWith_r0 (s : State) (ht : HashTable) (mem : Memory) : (s.resetWith ht mem).r0 = State.reset.r0 := rfl
@[simp] theorem State.resetWith_r1 (s : State) (ht : HashTable) (mem : Memory) : (s.resetWith ht mem).r1 = State.reset.r1 := rfl
@[simp] theorem State.resetWith_r2 (s : State) (ht : HashTable) (mem : Memory) : (s.resetWith ht mem).r2 = State.reset.r2 := rfl
@[simp] theorem State.resetWith_xxhSeed (s : State) (ht : HashTable) (mem : Memory) : (s.resetWith ht mem).xxhSeed = State.reset.xxhSeed := rfl
@[simp] theorem State.resetWith_fiCfg (s : State) (ht : HashTable) (mem : Memory) : (s.resetWith ht mem).fiCfg = State.reset.fiCfg := rfl
@[simp] theorem State.resetWith_fiCsizeLo (s : State) (ht : HashTable) (mem : Memory) : (s.resetWith ht mem).fiCsizeLo = State.reset.fiCsizeLo := rfl
@[simp] theorem State.resetWith_fiCsizeHi (s : State) (ht : HashTable) (mem : Memory) : (s.resetWith ht mem).fiCsizeHi = State.reset.fiCsizeHi := rfl
@[simp] theorem State.resetWith_fiDictId (s : State) (ht : HashTable) (mem : Memory) : (s.resetWith ht mem).fiDictId = State.reset.fiDictId := rfl
@[simp] theorem State.resetWith_fiDesc (s : State) (ht : HashTable) (mem : Memory) : (s.resetWith ht mem).fiDesc = State.reset.fiDesc := rfl
@[simp] theorem State.resetWith_fiBlockMax (s : State) (ht : HashTable) (mem : Memory) : (s.resetWith ht mem).fiBlockMax = State.reset.fiBlockMax := rfl
@[simp] theorem State.resetWith_fiSkipLen (s : State) (ht : HashTable) (mem : Memory) : (s.resetWith ht mem).fiSkipLen = State.reset.fiSkipLen := rfl
@[simp] theorem State.resetWith_fiMagic (s : State) (ht : HashTable) (mem : Memory) : (s.resetWith ht mem).fiMagic = State.reset.fiMagic := rfl
@[simp] theorem State.resetWith_ht (s : State) (ht : HashTable) (mem : Memory) : (s.resetWith ht mem).ht = ht := rfl
@[simp] theorem State.resetWith_xs (s : State) (ht : HashTable) (mem : Memory) : (s.resetWith ht mem).xs = State.reset.xs := rfl
@[simp] theorem State.resetWith_mem (s : State) (ht : HashTable) (mem : Memory) : (s.resetWith ht mem).mem = mem := rfl
@[simp] theorem State.resetWith_agenda (s : State) (ht : HashTable) (mem : Memory) : (s.resetWith ht mem).agenda = s.agenda := rfl
@[simp] theorem State.resetWith_raced (s : State) (ht : HashTable) (mem : Memory) : (s.resetWith ht mem).raced = State.reset.raced := rfl
@[simp] theorem State.resetWith_glimpse (s : State) (ht : HashTable) (mem : Memory) : (s.resetWith ht mem).glimpse = State.reset.glimpse := rfl
@[simp] theorem State.resetWith_draws (s : State) (ht : HashTable) (mem : Memory) : (s.resetWith ht mem).draws = s.draws + 1 := rfl
@[simp] theorem State.resetWith_hostReads (s : State) (ht : HashTable) (mem : Memory) : (s.resetWith ht mem).hostReads = s.hostReads := rfl

@[simp] theorem State.recordParsed_ie (s : State) (p : Parsed) : (s.recordParsed p).ie = s.ie := by
  cases p <;> rfl
@[simp] theorem State.recordParsed_done (s : State) (p : Parsed) : (s.recordParsed p).done = s.done := by
  cases p <;> rfl
@[simp] theorem State.recordParsed_cmdRej (s : State) (p : Parsed) : (s.recordParsed p).cmdRej = s.cmdRej := by
  cases p <;> rfl
@[simp] theorem State.recordParsed_errCode (s : State) (p : Parsed) : (s.recordParsed p).errCode = s.errCode := by
  cases p <;> rfl
@[simp] theorem State.recordParsed_cmd (s : State) (p : Parsed) : (s.recordParsed p).cmd = s.cmd := by
  cases p <;> rfl
@[simp] theorem State.recordParsed_busyCmd (s : State) (p : Parsed) : (s.recordParsed p).busyCmd = s.busyCmd := by
  cases p <;> rfl
@[simp] theorem State.recordParsed_srcAddr (s : State) (p : Parsed) : (s.recordParsed p).srcAddr = s.srcAddr := by
  cases p <;> rfl
@[simp] theorem State.recordParsed_srcLen (s : State) (p : Parsed) : (s.recordParsed p).srcLen = s.srcLen := by
  cases p <;> rfl
@[simp] theorem State.recordParsed_dstAddr (s : State) (p : Parsed) : (s.recordParsed p).dstAddr = s.dstAddr := by
  cases p <;> rfl
@[simp] theorem State.recordParsed_dstCap (s : State) (p : Parsed) : (s.recordParsed p).dstCap = s.dstCap := by
  cases p <;> rfl
@[simp] theorem State.recordParsed_accel (s : State) (p : Parsed) : (s.recordParsed p).accel = s.accel := by
  cases p <;> rfl
@[simp] theorem State.recordParsed_opA (s : State) (p : Parsed) : (s.recordParsed p).opA = s.opA := by
  cases p <;> rfl
@[simp] theorem State.recordParsed_opB (s : State) (p : Parsed) : (s.recordParsed p).opB = s.opB := by
  cases p <;> rfl
@[simp] theorem State.recordParsed_r0 (s : State) (p : Parsed) : (s.recordParsed p).r0 = s.r0 := by
  cases p <;> rfl
@[simp] theorem State.recordParsed_r1 (s : State) (p : Parsed) : (s.recordParsed p).r1 = s.r1 := by
  cases p <;> rfl
@[simp] theorem State.recordParsed_r2 (s : State) (p : Parsed) : (s.recordParsed p).r2 = s.r2 := by
  cases p <;> rfl
@[simp] theorem State.recordParsed_xxhSeed (s : State) (p : Parsed) : (s.recordParsed p).xxhSeed = s.xxhSeed := by
  cases p <;> rfl
@[simp] theorem State.recordParsed_ht (s : State) (p : Parsed) : (s.recordParsed p).ht = s.ht := by
  cases p <;> rfl
@[simp] theorem State.recordParsed_xs (s : State) (p : Parsed) : (s.recordParsed p).xs = s.xs := by
  cases p <;> rfl
@[simp] theorem State.recordParsed_mem (s : State) (p : Parsed) : (s.recordParsed p).mem = s.mem := by
  cases p <;> rfl
@[simp] theorem State.recordParsed_agenda (s : State) (p : Parsed) : (s.recordParsed p).agenda = s.agenda := by
  cases p <;> rfl
@[simp] theorem State.recordParsed_raced (s : State) (p : Parsed) : (s.recordParsed p).raced = s.raced := by
  cases p <;> rfl
@[simp] theorem State.recordParsed_glimpse (s : State) (p : Parsed) : (s.recordParsed p).glimpse = s.glimpse := by
  cases p <;> rfl
@[simp] theorem State.recordParsed_draws (s : State) (p : Parsed) : (s.recordParsed p).draws = s.draws := by
  cases p <;> rfl
@[simp] theorem State.recordParsed_hostReads (s : State) (p : Parsed) : (s.recordParsed p).hostReads = s.hostReads := by
  cases p <;> rfl

@[simp] theorem State.finish_busy (s : State) (code : StatusCode) (a b c : Word) : (s.finish code a b c).busy = false := rfl
@[simp] theorem State.accept_busy (s : State) (w : Word) : (s.accept w).busy = true := rfl
@[simp] theorem State.reset_busy : State.reset.busy = false := rfl
@[simp] theorem State.complete_eq (s : State) (a b c : Word) : s.complete a b c = .next (s.finish .ok a b c) := rfl
@[simp] theorem State.raise_eq (s : State) (e : StatusCode) : s.raise e = .next (s.finish e 0#32 0#32 0#32) := rfl

end Sys2Proof.Machine
end

