-- ==== Sys2Proof/Laws/Operands.lean ====
section
/-! SUPPORT. The laws of the operands: what the region checks let through, and what the engine's byte accesses do. -/

namespace Sys2Proof.Machine

@[simp] theorem State.src_base (s : State) : s.src.base = s.srcAddr.toNat := rfl
@[simp] theorem State.src_len (s : State) : s.src.len = s.srcLen.toNat := rfl
@[simp] theorem State.dst_base (s : State) : s.dst.base = s.dstAddr.toNat := rfl
@[simp] theorem State.dst_len (s : State) : s.dst.len = s.dstCap.toNat := rfl

theorem Region.valid_iff (r : Region) : r.valid = true ↔ r.base + r.len ≤ Config.addrSpace := by
  simp [Region.valid]

theorem Region.overlaps_iff (r q : Region) :
    r.overlaps q = true ↔ r.len ≠ 0 ∧ q.len ≠ 0 ∧ r.base < q.base + q.len ∧ q.base < r.base + r.len := by
  simp [Region.overlaps, and_assoc]

/-- What `withSrc` can do: the command's own rule when S is valid, `BadOperand` when it is not. -/
theorem withSrc_cases (s : State) (body : Result) :
    (s.src.valid = true ∧ withSrc s body = body) ∨
      (s.src.valid = false ∧ withSrc s body = .next (s.finish .badOperand 0#32 0#32 0#32)) := by
  cases h : s.src.valid <;> simp [withSrc, h]

/-- What `withDst` can do: the command's own rule when D is valid, `BadOperand` when it is not. -/
theorem withDst_cases (s : State) (body : Result) :
    (s.dst.valid = true ∧ withDst s body = body) ∨
      (s.dst.valid = false ∧ withDst s body = .next (s.finish .badOperand 0#32 0#32 0#32)) := by
  cases h : s.dst.valid <;> simp [withDst, h]

/-- What `withSrcDst` can do: the command's own rule when S and D are valid and do not overlap, `BadOperand` otherwise. -/
theorem withSrcDst_cases (s : State) (body : Result) :
    ((s.src.valid = true ∧ s.dst.valid = true ∧ s.src.overlaps s.dst = false) ∧ withSrcDst s body = body) ∨
      ((s.src.valid = false ∨ s.dst.valid = false ∨ s.src.overlaps s.dst = true) ∧
        withSrcDst s body = .next (s.finish .badOperand 0#32 0#32 0#32)) := by
  cases h1 : s.src.valid <;> cases h2 : s.dst.valid <;> cases h3 : s.src.overlaps s.dst <;>
    simp [withSrcDst, h1, h2, h3]

theorem State.overwritten_of_unraced (s : State) (h : s.raced = []) (a : Nat) : s.overwritten a = [] := by
  simp [State.overwritten, h]

/-- Where the host has written nothing, the engine reads the byte that stands in memory. -/
theorem State.engineRead_unraced (s : State) (h : s.raced = []) (tag a : Nat) : s.engineRead tag a = s.mem.read a := by
  simp [State.engineRead, s.overwritten_of_unraced h]

/-- Where the host has written nothing, the engine's write of a byte is a plain write. -/
theorem State.engineWrite_unraced (s : State) (h : s.raced = []) (m : Memory) (a : Nat) (b : Byte) :
    s.engineWrite m a b = m.write a b := by
  simp [State.engineWrite, s.overwritten_of_unraced h]

/-- What an engine's write of a byte can do: write it, or, in a race, leave the host's. -/
theorem State.engineWrite_cases (s : State) (m : Memory) (a : Nat) (b : Byte) :
    s.engineWrite m a b = m.write a b ∨ s.engineWrite m a b = m := by
  unfold State.engineWrite
  split
  · exact .inl rfl
  · split
    · exact .inr rfl
    · exact .inl rfl

theorem State.engineWrite_read_other (s : State) (m : Memory) (a x : Nat) (b : Byte) (h : x ≠ a) :
    (s.engineWrite m a b).read x = m.read x := by
  rcases s.engineWrite_cases m a b with h' | h' <;> rw [h']
  exact Memory.read_write_other m a x b h

/-- The engine's write of a byte string leaves every byte outside it alone. -/
theorem State.engineWrites_read_outside (s : State) (bs : List Byte) (m : Memory) (a x : Nat)
    (h : x < a ∨ a + bs.length ≤ x) : (s.engineWrites m a bs).read x = m.read x := by
  induction bs generalizing m a with
  | nil => rfl
  | cons b bs ih =>
    simp only [List.length_cons] at h
    rw [State.engineWrites, ih _ _ (by omega), State.engineWrite_read_other _ _ _ _ _ (by omega)]

/-- Where the host has written nothing, the bytes the engine wrote stand in memory. -/
theorem State.engineWrites_read_inside (s : State) (hr : s.raced = []) (bs : List Byte) (m : Memory) (a i : Nat)
    (h : i < bs.length) : (s.engineWrites m a bs).read (a + i) = bs[i] := by
  induction bs generalizing m a i with
  | nil => simp at h
  | cons b bs ih =>
    cases i with
    | zero =>
      rw [State.engineWrites, State.engineWrites_read_outside _ _ _ _ _ (by omega), s.engineWrite_unraced hr]
      simp
    | succ i =>
      have := ih (s.engineWrite m a b) (a + 1) i (by simpa using h)
      rw [show a + (i + 1) = a + 1 + i by omega, State.engineWrites, this]
      simp

/-- The engine's writes inside the address space keep memory's canonical form. -/
theorem State.engineWrites_wf (s : State) (bs : List Byte) (m : Memory) (a : Nat)
    (ha : a + bs.length ≤ Config.addrSpace) (hm : m.wf = true) : (s.engineWrites m a bs).wf = true := by
  induction bs generalizing m a with
  | nil => exact hm
  | cons b bs ih =>
    simp only [List.length_cons] at ha
    refine ih _ _ (by omega) ?_
    rcases s.engineWrite_cases m a b with h | h <;> rw [h]
    · exact Memory.write_wf m a b (by omega) hm
    · exact hm

/-- The engine's writes of one byte string into two memories leave every byte equal in both or unchanged in both. -/
theorem State.engineWrites_agree (s t : State) (hr : t.raced = s.raced) (hd : t.draws = s.draws) (bs : List Byte)
    (m m' : Memory) (a x : Nat) :
    (t.engineWrites m' a bs).read x = (s.engineWrites m a bs).read x ∨
      ((t.engineWrites m' a bs).read x = m'.read x ∧ (s.engineWrites m a bs).read x = m.read x) := by
  induction bs generalizing m m' a with
  | nil => exact .inr ⟨rfl, rfl⟩
  | cons b bs ih =>
    have hw : ((t.engineWrite m' a b).read x = (s.engineWrite m a b).read x) ∨
        ((t.engineWrite m' a b).read x = m'.read x ∧ (s.engineWrite m a b).read x = m.read x) := by
      unfold State.engineWrite State.overwritten
      rw [hr, hd]
      split
      · simp only [Memory.read_write]; split <;> simp
      · split
        · exact .inr ⟨rfl, rfl⟩
        · simp only [Memory.read_write]; split <;> simp
    rw [State.engineWrites, State.engineWrites]
    rcases ih (s.engineWrite m a b) (t.engineWrite m' a b) (a + 1) with h | ⟨h, h'⟩
    · exact .inl h
    · rcases hw with hw | ⟨hw, hw'⟩
      · exact .inl (by rw [h, h', hw])
      · exact .inr ⟨by rw [h, hw], by rw [h', hw']⟩

/-- Every entry of a free table is its own free value. -/
theorem freeEntries_getElem (k n i j : Nat) (h : j < (freeEntries k n i).length) :
    (freeEntries k n i)[j] = Config.freeEntry k (i + j) := by
  induction n generalizing i j with
  | zero => simp [freeEntries] at h
  | succ n ih =>
    cases j with
    | zero => rfl
    | succ j =>
      have := ih (i + 1) j (by simpa [freeEntries] using h)
      simp only [freeEntries, List.getElem_cons_succ, this]
      congr 1; omega

theorem freeTable_getElem (k : Nat) (j : Nat) (h : j < Config.htSize) : (freeTable k)[j] = Config.freeEntry k j := by
  have := freeEntries_getElem k Config.htSize 0 j (by rw [freeEntries_length]; exact h)
  simpa [freeTable] using this

end Sys2Proof.Machine
end

