-- ==== Sys2Proof/Laws/PerInstr.lean ====
section
/-! SUPPORT. What holds of every command as syntax, one lemma per constructor. -/

namespace Sys2Proof.Laws.WordForm

/-- A command's word is well formed (spec/30_encoding.md R82), and is the opcode zero-extended (R80, R95). -/
def Statement (i : Instr) : Prop :=
  wordWellFormed (encode i) = true ∧ encode i = (opcodeOf i).setWidth 32 ∧ i.wellFormed = true

theorem nop : Statement .nop := by unfold Statement; decide
theorem hmtClear : Statement .hmtClear := by unfold Statement; decide
theorem hmtHash : Statement .hmtHash := by unfold Statement; decide
theorem hmtProbe : Statement .hmtProbe := by unfold Statement; decide
theorem hmtRead : Statement .hmtRead := by unfold Statement; decide
theorem hmtCompress : Statement .hmtCompress := by unfold Statement; decide
theorem hmtBound : Statement .hmtBound := by unfold Statement; decide
theorem tencSeq : Statement .tencSeq := by unfold Statement; decide
theorem tencLast : Statement .tencLast := by unfold Statement; decide
theorem fhPack : Statement .fhPack := by unfold Statement; decide
theorem fhParse : Statement .fhParse := by unfold Statement; decide
theorem fhSize : Statement .fhSize := by unfold Statement; decide
theorem bhPack : Statement .bhPack := by unfold Statement; decide
theorem bhEnd : Statement .bhEnd := by unfold Statement; decide
theorem bhParse : Statement .bhParse := by unfold Statement; decide
theorem xxhInit : Statement .xxhInit := by unfold Statement; decide
theorem xxhUpdate : Statement .xxhUpdate := by unfold Statement; decide
theorem xxhDigest : Statement .xxhDigest := by unfold Statement; decide
theorem xxhOneshot : Statement .xxhOneshot := by unfold Statement; decide
theorem xxhCheckBlock : Statement .xxhCheckBlock := by unfold Statement; decide
theorem xxhCheckContent : Statement .xxhCheckContent := by unfold Statement; decide

end Sys2Proof.Laws.WordForm
end

