-- ==== Sys2Proof/Laws/Reads.lean ====
section
/-! SUPPORT. What a command does with memory, said once: its outcome depends on memory only through its reads of S, and what
it writes is the same whatever stood there. -/

namespace Sys2Proof.Machine

/-! ## Functions of an input -/

/-- Two readers that answer alike on an input of length `n`. -/
def ReadAlike (rd rd' : Nat → Nat → Byte) (n : Nat) : Prop := ∀ tag i, i < n → rd' tag i = rd tag i

variable {rd rd' : Nat → Nat → Byte} {n : Nat}

theorem readLe32_congr (h : ReadAlike rd rd' n) (tag i : Nat) (hi : i + 4 ≤ n) : readLe32 rd' tag i = readLe32 rd tag i := by
  unfold readLe32
  rw [h _ _ (by omega), h _ _ (by omega), h _ _ (by omega), h _ _ (by omega)]

theorem readRange_congr (h : ReadAlike rd rd' n) (tag a b : Nat) (hb : b ≤ n) :
    readRange rd' tag a b = readRange rd tag a b := by
  unfold readRange
  refine List.map_congr_left fun i hi => ?_
  rw [List.mem_range] at hi
  exact h _ _ (by omega)

/-- A candidate is compared only where it lies before the position. -/
theorem candidate_congr (h : ReadAlike rd rd' n) (tag p cand : Nat) (b d : Bool) (x : Word) (hp : p + 4 ≤ n) :
    (b && decide (cand < p) && d && readLe32 rd' tag cand == x) =
      (b && decide (cand < p) && d && readLe32 rd tag cand == x) := by
  by_cases hc : cand < p
  · rw [readLe32_congr h _ _ (by omega)]
  · simp [hc]

theorem probe_congr (h : ReadAlike rd rd' n) (ht : HashTable) (p : Nat) (hp : p + 4 ≤ n) :
    probe rd' ht p = probe rd ht p := by
  simp only [probe, readLe32_congr h _ _ hp, candidate_congr h _ _ _ _ _ _ hp]

theorem probe_cand_lt (ht : HashTable) (p : Nat) (hv : (probe rd ht p).valid = true) : (probe rd ht p).cand.toNat < p := by
  simp only [probe, Bool.and_eq_true, decide_eq_true_eq] at hv ⊢
  exact hv.1.1.2

theorem search_congr (h : ReadAlike rd rd' n) (fuel : Nat) (ht : HashTable) (nb ip : Nat) :
    search rd' n fuel ht nb ip = search rd n fuel ht nb ip := by
  induction fuel generalizing ht nb ip with
  | zero => rfl
  | succ fuel ih =>
    unfold search
    split
    · rfl
    · rename_i hlt
      simp only [Config.mfLimit] at hlt
      simp only [probe_congr h ht ip (by omega), ih]

theorem search_hit_bounds (fuel : Nat) (ht ht' : HashTable) (nb ip p cand : Nat)
    (hs : search rd n fuel ht nb ip = ⟨some (p, cand), ht'⟩) : cand < p ∧ p + 12 ≤ n := by
  induction fuel generalizing ht nb ip with
  | zero => simp [search] at hs
  | succ fuel ih =>
    unfold search at hs
    simp only [Config.mfLimit] at hs
    split at hs
    · simp at hs
    · split at hs
      · rename_i hv
        have := probe_cand_lt _ _ hv
        simp at hs
        omega
      · exact ih _ _ _ hs

theorem extend_congr (h : ReadAlike rd rd' n) (fuel ip m : Nat) (hm : m < ip) :
    extend rd' n fuel ip m = extend rd n fuel ip m := by
  induction fuel generalizing ip m with
  | zero => rfl
  | succ fuel ih =>
    unfold extend
    rw [ih _ _ (by omega)]
    by_cases hc : ip + Config.lastLiterals < n
    · have := hc
      simp only [Config.lastLiterals] at this
      rw [h _ ip (by omega), h _ m (by omega)]
    · simp [hc]

theorem literals_congr (h : ReadAlike rd rd' n) (a b : Nat) (hb : b ≤ n) : literals rd' a b = literals rd a b := by
  unfold literals
  refine List.map_congr_left fun i hi => ?_
  rw [List.mem_range] at hi
  exact h _ _ (by omega)

theorem fastFrom_congr (h : ReadAlike rd rd' n) (acc fuel : Nat) (ht : HashTable) (anchor ip : Nat) :
    fastFrom rd' n acc fuel ht anchor ip = fastFrom rd n acc fuel ht anchor ip := by
  induction fuel generalizing ht anchor ip with
  | zero => simp [fastFrom, literals_congr h]
  | succ fuel ih =>
    unfold fastFrom
    rw [search_congr h, literals_congr h _ _ (Nat.le_refl n)]
    split
    · rfl
    · rename_i p cand ht' hs
      have := search_hit_bounds _ _ _ _ _ _ _ hs
      simp only [extend_congr h n (p + Config.minMatch) (cand + Config.minMatch) (by omega), ih,
        literals_congr h anchor p (by omega)]

/-- The compressor reads its input only. -/
theorem fast_congr (h : ReadAlike rd rd' n) (acc : Nat) : fast rd' n acc = fast rd n acc := by
  unfold fast
  split
  · rfl
  · exact fastFrom_congr h ..

theorem parseRegular_congr (h : ReadAlike rd rd' n) : parseRegular rd' n = parseRegular rd n := by
  unfold parseRegular
  by_cases h7 : n < 7
  · simp [h7]
  · simp only [h7, if_false]
    rw [h 6 4 (by omega), h 6 5 (by omega)]
    by_cases hH : n < headerSize (rd 6 4)
    · simp only [hH, if_true]
    · have hs : 7 + 8 * ((rd 6 4).getLsbD 3).toNat + 4 * ((rd 6 4).getLsbD 0).toNat = headerSize (rd 6 4) := rfl
      simp only [hH, if_false]
      rw [h 12 _ (by omega), readRange_congr h _ _ _ (by omega)]
      have h64 : (if (rd 6 4).getLsbD 3 then readLe64 rd' 13 6 else 0#64) =
          if (rd 6 4).getLsbD 3 then readLe64 rd 13 6 else 0#64 := by
        split
        · rename_i hb
          rw [hb] at hs
          simp only [Bool.toNat_true] at hs
          unfold readLe64
          rw [readLe32_congr h _ _ (by omega), readLe32_congr h _ _ (by omega)]
        · rfl
      have h32 : (if (rd 6 4).getLsbD 0 then readLe32 rd' 14 (6 + 8 * ((rd 6 4).getLsbD 3).toNat) else 0#32) =
          if (rd 6 4).getLsbD 0 then readLe32 rd 14 (6 + 8 * ((rd 6 4).getLsbD 3).toNat) else 0#32 := by
        split
        · rename_i hb
          rw [hb] at hs
          simp only [Bool.toNat_true] at hs
          rw [readLe32_congr h _ _ (by omega)]
        · rfl
      rw [h64, h32]

/-- The header parser reads its input only. -/
theorem parseHeader_congr (h : ReadAlike rd rd' n) : parseHeader rd' n = parseHeader rd n := by
  unfold parseHeader
  split
  · rfl
  · rw [readLe32_congr h 2 0 (by omega), parseRegular_congr h]
    by_cases h8 : n < 8
    · simp [h8]
    · simp only [h8, if_false]
      rw [readLe32_congr h 3 4 (by omega)]

/-! ## Commands -/

/-- Two states that hold the same operands, tables and stream, all that a command reads but memory. -/
structure SameInputs (s s' : State) : Prop where
  srcAddr : s'.srcAddr = s.srcAddr
  srcLen : s'.srcLen = s.srcLen
  dstAddr : s'.dstAddr = s.dstAddr
  dstCap : s'.dstCap = s.dstCap
  accel : s'.accel = s.accel
  opA : s'.opA = s.opA
  opB : s'.opB = s.opB
  xxhSeed : s'.xxhSeed = s.xxhSeed
  fiCfg : s'.fiCfg = s.fiCfg
  fiCsizeLo : s'.fiCsizeLo = s.fiCsizeLo
  fiCsizeHi : s'.fiCsizeHi = s.fiCsizeHi
  fiDictId : s'.fiDictId = s.fiDictId
  ht : s'.ht = s.ht
  xs : s'.xs = s.xs

theorem Region.outside_of_contains {r : Region} {a : Nat} (h : r.contains a = false) :
    a < r.base ∨ r.base + r.len ≤ a := by
  simp only [Region.contains, Bool.and_eq_false_imp, decide_eq_true_eq, decide_eq_false_iff_not] at h
  omega

/-- Two commands' ends: the same code; and, where the host did not interfere, each byte of memory is equal in both or
unchanged in both, unless D holds unspecified bytes. -/
def EndsAlike (s s' t t' : State) : Prop :=
  t'.errCode = t.errCode ∧
    ∀ a, s.overwritten a = [] → s'.overwritten a = [] →
      t'.mem.read a = t.mem.read a ∨ (t'.mem.read a = s'.mem.read a ∧ t.mem.read a = s.mem.read a) ∨
        (t.errCode = .outputTooSmall ∧ s.dst.contains a = true)

theorem EndsAlike.kept (s s' : State) (code : StatusCode) (a b c a' b' c' : Word) (u u' : State) (hu : u.mem = s.mem)
    (hu' : u'.mem = s'.mem) : EndsAlike s s' (u.finish code a b c) (u'.finish code a' b' c') :=
  ⟨rfl, fun _ _ _ => .inr (.inl ⟨by simp [hu'], by simp [hu]⟩)⟩

/-- Where the host has not written a byte, the engine's writes of one byte string leave it equal in two memories, or
unchanged in both. -/
theorem State.engineWrites_alike (s s' : State) (bs : List Byte) (m m' : Memory) (a x : Nat) (h : s.overwritten x = [])
    (h' : s'.overwritten x = []) :
    (s'.engineWrites m' a bs).read x = (s.engineWrites m a bs).read x ∨
      ((s'.engineWrites m' a bs).read x = m'.read x ∧ (s.engineWrites m a bs).read x = m.read x) := by
  induction bs generalizing m m' a with
  | nil => exact .inr ⟨rfl, rfl⟩
  | cons b bs ih =>
    rw [State.engineWrites, State.engineWrites]
    rcases ih (s.engineWrite m a b) (s'.engineWrite m' a b) (a + 1) with hi | ⟨hi, hi'⟩
    · exact .inl hi
    · by_cases hx : x = a
      · subst hx
        refine .inl ?_
        rw [hi, hi']
        simp [State.engineWrite, h, h']
      · exact .inr ⟨by rw [hi, State.engineWrite_read_other _ _ _ _ _ hx],
          by rw [hi', State.engineWrite_read_other _ _ _ _ _ hx]⟩

theorem EndsAlike.stored (s s' : State) (h : SameInputs s s') (bs : List Byte) (code : StatusCode)
    (a b c a' b' c' : Word) (u u' : State) (hu : u.mem = (s.writeDst bs).mem) (hu' : u'.mem = (s'.writeDst bs).mem) :
    EndsAlike s s' (u.finish code a b c) (u'.finish code a' b' c') :=
  ⟨rfl, fun x hx hx' => by
    simp only [State.finish_mem, hu, hu', State.writeDst, h.dstAddr]
    exact (s.engineWrites_alike s' bs _ _ _ x hx hx').imp_right .inl⟩

theorem State.srcBytes_congr {s s' : State} (h : SameInputs s s') (hr : ReadAlike s.srcByte s'.srcByte s.srcLen.toNat)
    (tag : Nat) : s'.srcBytes tag = s.srcBytes tag := by
  unfold State.srcBytes
  rw [h.srcLen]
  refine List.map_congr_left fun i hi => ?_
  rw [List.mem_range] at hi
  exact hr _ _ hi

theorem EndsAlike.discarded (s s' : State) (h : SameInputs s s') (a b c a' b' c' : Word) :
    EndsAlike s s' (s.discardBlock.finish .outputTooSmall a b c) (s'.discardBlock.finish .outputTooSmall a' b' c') :=
  ⟨rfl, fun x _ _ => by
    cases hd : s.dst.contains x with
    | true => exact .inr (.inr ⟨rfl, rfl⟩)
    | false =>
      have hx : x < s.dstAddr.toNat ∨ s.dstAddr.toNat + s.dstCap.toNat ≤ x := Region.outside_of_contains hd
      refine .inr (.inl ⟨?_, ?_⟩)
      · simp only [State.finish_mem, State.discardBlock, State.dst_base, State.dst_len, h.dstAddr, h.dstCap]
        exact Memory.freeFill_read_outside _ _ _ _ _ hx
      · simp only [State.finish_mem, State.discardBlock, State.dst_base, State.dst_len]
        exact Memory.freeFill_read_outside _ _ _ _ _ hx⟩

theorem emitSequence_alike {s s' t : State} (h : SameInputs s s') (bs : List Byte) (ht : s.emitSequence bs = .next t) :
    ∃ t', s'.emitSequence bs = .next t' ∧ EndsAlike s s' t t' := by
  unfold State.emitSequence at *
  rw [h.dstCap]
  split at ht
  · cases ht; exact ⟨_, if_pos ‹_›, .kept _ _ _ _ _ _ _ _ _ _ _ rfl rfl⟩
  · cases ht; exact ⟨_, if_neg ‹_›, .stored _ _ h bs _ _ _ _ _ _ _ _ _ rfl rfl⟩

theorem State.src_congr {s s' : State} (h : SameInputs s s') : s'.src = s.src := by simp [State.src, h.srcAddr, h.srcLen]
theorem State.dst_congr {s s' : State} (h : SameInputs s s') : s'.dst = s.dst := by simp [State.dst, h.dstAddr, h.dstCap]
theorem State.csize_congr {s s' : State} (h : SameInputs s s') : s'.csize = s.csize := by
  simp [State.csize, h.fiCsizeLo, h.fiCsizeHi]

/-- A command's code and what it writes depend on memory only through its reads of S. -/
theorem exec_alike (i : Instr) {s s' t : State} (h : SameInputs s s')
    (hr : usesSrc i = true → ReadAlike s.srcByte s'.srcByte s.srcLen.toNat) (ht : exec i s = .next t) :
    ∃ t', exec i s' = .next t' ∧ EndsAlike s s' t t' := by
  cases i
  case nop => cases ht; exact ⟨_, rfl, .kept _ _ _ _ _ _ _ _ _ _ _ rfl rfl⟩
  case hmtClear => cases ht; exact ⟨_, rfl, .kept _ _ _ _ _ _ _ _ _ _ _ rfl rfl⟩
  case hmtHash => cases ht; exact ⟨_, rfl, .kept _ _ _ _ _ _ _ _ _ _ _ rfl rfl⟩
  case xxhInit => cases ht; exact ⟨_, rfl, .kept _ _ _ _ _ _ _ _ _ _ _ rfl rfl⟩
  case xxhDigest => cases ht; exact ⟨_, rfl, .kept _ _ _ _ _ _ _ _ _ _ _ rfl rfl⟩
  case hmtProbe =>
    simp only [exec, execHmtProbe, withSrc, State.src_congr h, h.opA, h.srcLen, h.ht] at ht ⊢
    split at ht
    · rename_i hv
      rw [if_pos hv]
      split at ht
      · cases ht; exact ⟨_, if_pos ‹_›, .kept _ _ _ _ _ _ _ _ _ _ _ rfl rfl⟩
      · rw [if_neg ‹_›, probe_congr (hr rfl) _ _ (by omega)]
        cases ht; exact ⟨_, rfl, .kept _ _ _ _ _ _ _ _ _ _ _ rfl rfl⟩
    · cases ht; exact ⟨_, if_neg ‹_›, .kept _ _ _ _ _ _ _ _ _ _ _ rfl rfl⟩
  case hmtRead =>
    simp only [exec, execHmtRead, h.opA, h.ht] at ht ⊢
    split at ht
    · cases ht; exact ⟨_, dif_pos ‹_›, .kept _ _ _ _ _ _ _ _ _ _ _ rfl rfl⟩
    · cases ht; exact ⟨_, dif_neg ‹_›, .kept _ _ _ _ _ _ _ _ _ _ _ rfl rfl⟩
  case hmtCompress =>
    simp only [exec, execHmtCompress, withSrcDst, State.src_congr h, State.dst_congr h, h.srcLen, h.dstCap, h.accel,
      fast_congr (hr rfl)] at ht ⊢
    split at ht
    · cases ht; exact ⟨_, if_pos ‹_›, .kept _ _ _ _ _ _ _ _ _ _ _ rfl rfl⟩
    rw [if_neg ‹_›]
    split at ht
    · cases ht; exact ⟨_, if_pos ‹_›, .kept _ _ _ _ _ _ _ _ _ _ _ rfl rfl⟩
    rw [if_neg ‹_›]
    split at ht
    · cases ht; exact ⟨_, if_pos ‹_›, .kept _ _ _ _ _ _ _ _ _ _ _ rfl rfl⟩
    rw [if_neg ‹_›]
    split at ht
    · cases ht; exact ⟨_, if_pos ‹_›, .discarded _ _ h _ _ _ _ _ _⟩
    · cases ht; exact ⟨_, if_neg ‹_›, .stored _ _ h _ _ _ _ _ _ _ _ _ _ rfl rfl⟩
  case hmtBound =>
    simp only [exec, execHmtBound, h.opA] at ht ⊢
    split at ht
    · cases ht; exact ⟨_, if_pos ‹_›, .kept _ _ _ _ _ _ _ _ _ _ _ rfl rfl⟩
    · cases ht; exact ⟨_, if_neg ‹_›, .kept _ _ _ _ _ _ _ _ _ _ _ rfl rfl⟩
  case tencSeq =>
    simp only [exec, execTencSeq, withSrcDst, State.src_congr h, State.dst_congr h, h.srcLen, h.opA, h.opB,
      State.srcBytes_congr h (hr rfl)] at ht ⊢
    repeat' split at ht
    all_goals simp only [*, if_true, if_false]
    all_goals first
      | exact emitSequence_alike h _ ht
      | (cases ht; exact ⟨_, rfl, .kept _ _ _ _ _ _ _ _ _ _ _ rfl rfl⟩)
  case tencLast =>
    simp only [exec, execTencLast, withSrcDst, State.src_congr h, State.dst_congr h, h.srcLen,
      State.srcBytes_congr h (hr rfl)] at ht ⊢
    repeat' split at ht
    all_goals simp only [*, if_true, if_false]
    all_goals first
      | exact emitSequence_alike h _ ht
      | (cases ht; exact ⟨_, rfl, .kept _ _ _ _ _ _ _ _ _ _ _ rfl rfl⟩)
  case fhPack =>
    simp only [exec, execFhPack, withDst, State.dst_congr h, h.dstCap, h.fiCfg, State.csize_congr h, h.fiDictId] at ht ⊢
    split at ht
    · rw [if_pos ‹_›]
      split at ht
      · cases ht; exact ⟨_, rfl, .kept _ _ _ _ _ _ _ _ _ _ _ rfl rfl⟩
      · split at ht
        · cases ht; exact ⟨_, if_pos ‹_›, .kept _ _ _ _ _ _ _ _ _ _ _ rfl rfl⟩
        · cases ht; exact ⟨_, if_neg ‹_›, .stored _ _ h _ _ _ _ _ _ _ _ _ _ rfl rfl⟩
    · cases ht; exact ⟨_, if_neg ‹_›, .kept _ _ _ _ _ _ _ _ _ _ _ rfl rfl⟩
  case fhParse =>
    simp only [exec, execFhParse, withSrc, State.src_congr h, h.srcLen, parseHeader_congr (hr rfl)] at ht ⊢
    split at ht
    · rw [if_pos ‹_›]
      split at ht <;> cases ht <;> exact ⟨_, rfl, .kept _ _ _ _ _ _ _ _ _ _ _ (by simp) (by simp)⟩
    · cases ht; exact ⟨_, if_neg ‹_›, .kept _ _ _ _ _ _ _ _ _ _ _ rfl rfl⟩
  case fhSize =>
    simp only [exec, execFhSize, withSrc, State.src_congr h, h.srcLen] at ht ⊢
    split at ht
    · rw [if_pos ‹_›]
      split at ht
      · cases ht; exact ⟨_, if_pos ‹_›, .kept _ _ _ _ _ _ _ _ _ _ _ rfl rfl⟩
      · rw [if_neg ‹_›, readLe32_congr (hr rfl) _ _ (by omega)]
        split at ht
        · cases ht; exact ⟨_, if_pos ‹_›, .kept _ _ _ _ _ _ _ _ _ _ _ rfl rfl⟩
        rw [if_neg ‹_›]
        split at ht
        · cases ht; exact ⟨_, if_pos ‹_›, .kept _ _ _ _ _ _ _ _ _ _ _ rfl rfl⟩
        rw [if_neg ‹_›]
        split at ht
        · cases ht; exact ⟨_, if_pos ‹_›, .kept _ _ _ _ _ _ _ _ _ _ _ rfl rfl⟩
        · cases ht; exact ⟨_, if_neg ‹_›, .kept _ _ _ _ _ _ _ _ _ _ _ rfl rfl⟩
    · cases ht; exact ⟨_, if_neg ‹_›, .kept _ _ _ _ _ _ _ _ _ _ _ rfl rfl⟩
  case bhPack =>
    simp only [exec, execBhPack, withDst, State.dst_congr h, h.dstCap, h.opA, h.opB] at ht ⊢
    split at ht
    · rw [if_pos ‹_›]
      split at ht
      · cases ht; exact ⟨_, rfl, .kept _ _ _ _ _ _ _ _ _ _ _ rfl rfl⟩
      · split at ht
        · cases ht; exact ⟨_, if_pos ‹_›, .kept _ _ _ _ _ _ _ _ _ _ _ rfl rfl⟩
        · cases ht; exact ⟨_, if_neg ‹_›, .stored _ _ h _ _ _ _ _ _ _ _ _ _ rfl rfl⟩
    · cases ht; exact ⟨_, if_neg ‹_›, .kept _ _ _ _ _ _ _ _ _ _ _ rfl rfl⟩
  case bhEnd =>
    simp only [exec, execBhEnd, withDst, State.dst_congr h, h.dstCap] at ht ⊢
    split at ht
    · rw [if_pos ‹_›]
      split at ht
      · cases ht; exact ⟨_, if_pos ‹_›, .kept _ _ _ _ _ _ _ _ _ _ _ rfl rfl⟩
      · cases ht; exact ⟨_, if_neg ‹_›, .stored _ _ h _ _ _ _ _ _ _ _ _ _ rfl rfl⟩
    · cases ht; exact ⟨_, if_neg ‹_›, .kept _ _ _ _ _ _ _ _ _ _ _ rfl rfl⟩
  case bhParse =>
    simp only [exec, execBhParse, withSrc, State.src_congr h, h.srcLen] at ht ⊢
    split at ht
    · rw [if_pos ‹_›]
      split at ht
      · cases ht; exact ⟨_, if_pos ‹_›, .kept _ _ _ _ _ _ _ _ _ _ _ rfl rfl⟩
      · cases ht; exact ⟨_, if_neg ‹_›, .kept _ _ _ _ _ _ _ _ _ _ _ rfl rfl⟩
    · cases ht; exact ⟨_, if_neg ‹_›, .kept _ _ _ _ _ _ _ _ _ _ _ rfl rfl⟩
  case xxhUpdate =>
    simp only [exec, execXxhUpdate, withSrc, State.src_congr h] at ht ⊢
    split at ht
    · cases ht; exact ⟨_, if_pos ‹_›, .kept _ _ _ _ _ _ _ _ _ _ _ rfl rfl⟩
    · cases ht; exact ⟨_, if_neg ‹_›, .kept _ _ _ _ _ _ _ _ _ _ _ rfl rfl⟩
  case xxhOneshot =>
    simp only [exec, execXxhOneshot, withSrc, State.src_congr h] at ht ⊢
    split at ht
    · cases ht; exact ⟨_, if_pos ‹_›, .kept _ _ _ _ _ _ _ _ _ _ _ rfl rfl⟩
    · cases ht; exact ⟨_, if_neg ‹_›, .kept _ _ _ _ _ _ _ _ _ _ _ rfl rfl⟩
  case xxhCheckBlock =>
    simp only [exec, execXxhCheckBlock, withSrc, State.src_congr h, State.srcBytes_congr h (hr rfl), h.xxhSeed, h.opA]
      at ht ⊢
    split at ht
    · rw [if_pos ‹_›]
      split at ht
      · cases ht; exact ⟨_, if_pos ‹_›, .kept _ _ _ _ _ _ _ _ _ _ _ rfl rfl⟩
      · cases ht; exact ⟨_, if_neg ‹_›, .kept _ _ _ _ _ _ _ _ _ _ _ rfl rfl⟩
    · cases ht; exact ⟨_, if_neg ‹_›, .kept _ _ _ _ _ _ _ _ _ _ _ rfl rfl⟩
  case xxhCheckContent =>
    simp only [exec, execXxhCheckContent, h.xs, h.opA] at ht ⊢
    split at ht
    · cases ht; exact ⟨_, if_pos ‹_›, .kept _ _ _ _ _ _ _ _ _ _ _ rfl rfl⟩
    · cases ht; exact ⟨_, if_neg ‹_›, .kept _ _ _ _ _ _ _ _ _ _ _ rfl rfl⟩

/-- What a command can do to memory: nothing, and then it does not end with `OutputTooSmall`; or, past its checks, write in
D. -/
def MemoryEffect (i : Instr) (s t : State) : Prop :=
  (t.errCode ≠ .outputTooSmall ∧ ∀ a, t.mem.read a = s.mem.read a) ∨
    (usesDst i = true ∧ (usesSrc i = true → s.src.overlaps s.dst = false) ∧
      ∀ a, s.dst.contains a = false → t.mem.read a = s.mem.read a)

theorem MemoryEffect.kept {i : Instr} {s u : State} {code : StatusCode} {a b c : Word} (hc : code ≠ .outputTooSmall)
    (hu : u.mem = s.mem) : MemoryEffect i s (u.finish code a b c) :=
  .inl ⟨hc, fun _ => by simp [hu]⟩

theorem MemoryEffect.stored {i : Instr} {s u : State} {code : StatusCode} {a b c : Word} (hd : usesDst i = true)
    (ho : usesSrc i = true → s.src.overlaps s.dst = false) (bs : List Byte) (hl : bs.length ≤ s.dstCap.toNat)
    (hu : u.mem = (s.writeDst bs).mem) : MemoryEffect i s (u.finish code a b c) :=
  .inr ⟨hd, ho, fun x hx => by
    have := Region.outside_of_contains hx
    simp only [State.dst_base, State.dst_len] at this
    simp only [State.finish_mem, hu, State.writeDst]
    exact State.engineWrites_read_outside _ _ _ _ _ (by omega)⟩

theorem MemoryEffect.failed {i : Instr} {s : State} {code : StatusCode} {a b c : Word} (hd : usesDst i = true)
    (ho : usesSrc i = true → s.src.overlaps s.dst = false) : MemoryEffect i s (s.finish code a b c) :=
  .inr ⟨hd, ho, fun _ _ => rfl⟩

theorem emitSequence_effect {i : Instr} {s t : State} {bs : List Byte} (hd : usesDst i = true)
    (ho : usesSrc i = true → s.src.overlaps s.dst = false) (ht : s.emitSequence bs = .next t) : MemoryEffect i s t := by
  unfold State.emitSequence at ht
  split at ht <;> cases ht
  · exact .failed hd ho
  · exact .stored hd ho bs (by omega) rfl

theorem withSrc_effect {i : Instr} {s t : State} {body : Result} (hb : body = .next t → MemoryEffect i s t)
    (ht : withSrc s body = .next t) : MemoryEffect i s t := by
  rcases withSrc_cases s body with ⟨-, h⟩ | ⟨-, h⟩ <;> rw [h] at ht
  · exact hb ht
  · cases ht; exact .kept (by decide) rfl

theorem withDst_effect {i : Instr} {s t : State} {body : Result} (hb : body = .next t → MemoryEffect i s t)
    (ht : withDst s body = .next t) : MemoryEffect i s t := by
  rcases withDst_cases s body with ⟨-, h⟩ | ⟨-, h⟩ <;> rw [h] at ht
  · exact hb ht
  · cases ht; exact .kept (by decide) rfl

theorem withSrcDst_effect {i : Instr} {s t : State} {body : Result}
    (hb : s.src.overlaps s.dst = false → body = .next t → MemoryEffect i s t) (ht : withSrcDst s body = .next t) :
    MemoryEffect i s t := by
  rcases withSrcDst_cases s body with ⟨⟨-, -, ho⟩, h⟩ | ⟨-, h⟩ <;> rw [h] at ht
  · exact hb ho ht
  · cases ht; exact .kept (by decide) rfl

/-- `PARSE_HDR` never reports `OutputTooSmall`. -/
theorem parseHeader_error {n : Nat} {e : StatusCode} (h : parseHeader rd n = .error e) : e ≠ .outputTooSmall := by
  unfold parseHeader at h
  split at h
  · cases h; decide
  dsimp only at h
  split at h
  · split at h <;> cases h; decide
  split at h
  · cases h; decide
  unfold parseRegular at h
  split at h
  · cases h; decide
  dsimp only at h
  split at h
  · cases h; decide
  split at h
  · cases h; decide
  split at h
  · cases h; decide
  split at h
  · cases h; decide
  split at h
  · cases h; decide
  split at h <;> cases h
  decide

/-- Every command's effect on memory is one of the two. -/
theorem exec_effect (i : Instr) {s t : State} (ht : exec i s = .next t) : MemoryEffect i s t := by
  cases i
  case nop => cases ht; exact .kept (by decide) rfl
  case hmtClear => cases ht; exact .kept (by decide) rfl
  case hmtHash => cases ht; exact .kept (by decide) rfl
  case hmtProbe =>
    refine withSrc_effect (fun h => ?_) ht
    dsimp only at h
    split at h <;> cases h <;> exact .kept (by decide) rfl
  case hmtRead =>
    simp only [exec, execHmtRead] at ht
    split at ht <;> cases ht <;> exact .kept (by decide) rfl
  case hmtCompress =>
    refine withSrcDst_effect (fun ho h => ?_) ht
    dsimp only at h
    split at h
    · cases h; exact .kept (by decide) rfl
    split at h <;> cases h
    · refine .inr ⟨rfl, fun _ => ho, fun x hx => ?_⟩
      exact Memory.freeFill_read_outside _ _ _ _ _ (Region.outside_of_contains hx)
    · exact .stored rfl (fun _ => ho) _ (Nat.le_of_not_lt ‹_›) rfl
  case hmtBound =>
    simp only [exec, execHmtBound] at ht
    split at ht <;> cases ht <;> exact .kept (by decide) rfl
  case tencSeq =>
    refine withSrcDst_effect (fun ho h => ?_) ht
    split at h
    · cases h; exact .kept (by decide) rfl
    split at h
    · cases h; exact .kept (by decide) rfl
    split at h
    · cases h; exact .kept (by decide) rfl
    exact emitSequence_effect rfl (fun _ => ho) h
  case tencLast =>
    refine withSrcDst_effect (fun ho h => ?_) ht
    split at h
    · cases h; exact .kept (by decide) rfl
    exact emitSequence_effect rfl (fun _ => ho) h
  case fhPack =>
    refine withDst_effect (fun h => ?_) ht
    split at h
    · cases h; exact .kept (by decide) rfl
    dsimp only at h
    split at h <;> cases h
    · exact .failed rfl nofun
    · exact .stored rfl nofun _ (Nat.le_of_not_lt ‹_›) rfl
  case fhParse =>
    refine withSrc_effect (fun h => ?_) ht
    split at h <;> cases h
    · exact .kept (parseHeader_error ‹_›) rfl
    · exact .kept (by decide) (by simp)
    · exact .kept (by decide) (by simp)
  case fhSize =>
    refine withSrc_effect (fun h => ?_) ht
    dsimp only at h
    repeat' split at h
    all_goals cases h; exact .kept (by decide) rfl
  case bhPack =>
    refine withDst_effect (fun h => ?_) ht
    split at h
    · cases h; exact .kept (by decide) rfl
    split at h <;> cases h
    · exact .failed rfl nofun
    · exact .stored rfl nofun _ (by simp [leBytes]; omega) rfl
  case bhEnd =>
    refine withDst_effect (fun h => ?_) ht
    split at h <;> cases h
    · exact .failed rfl nofun
    · exact .stored rfl nofun _ (by simp; omega) rfl
  case bhParse =>
    refine withSrc_effect (fun h => ?_) ht
    dsimp only at h
    split at h <;> cases h <;> exact .kept (by decide) rfl
  case xxhInit => cases ht; exact .kept (by decide) rfl
  case xxhUpdate =>
    refine withSrc_effect (fun h => ?_) ht
    cases h; exact .kept (by decide) rfl
  case xxhDigest => cases ht; exact .kept (by decide) rfl
  case xxhOneshot =>
    refine withSrc_effect (fun h => ?_) ht
    cases h; exact .kept (by decide) rfl
  case xxhCheckBlock =>
    refine withSrc_effect (fun h => ?_) ht
    split at h <;> cases h <;> exact .kept (by decide) rfl
  case xxhCheckContent =>
    simp only [exec, execXxhCheckContent] at ht
    split at ht <;> cases ht <;> exact .kept (by decide) rfl

/-- What the host has seen of a command matters to it only through its reads: where nothing races it does not matter. -/
theorem exec_glimpse (i : Instr) (s : State) (g : Option Glimpse) (h : s.raced = []) :
    exec i { s with glimpse := g } = exec i s := by
  have hb : ({ s with glimpse := g } : State).srcByte = s.srcByte := by
    funext tag i
    simp only [State.srcByte]
    rw [s.engineRead_unraced h, State.engineRead_unraced { s with glimpse := g } h]
  have hbs : ({ s with glimpse := g } : State).srcBytes = s.srcBytes := by
    funext tag
    simp only [State.srcBytes, hb]
  have hw : ∀ (bs : List Byte) (m : Memory) (a : Nat),
      ({ s with glimpse := g } : State).engineWrites m a bs = s.engineWrites m a bs := by
    intro bs
    induction bs with
    | nil => intro m a; rfl
    | cons b bs ih => intro m a; rw [State.engineWrites, State.engineWrites, ih]; rfl
  cases i <;>
    simp only [exec, execNop, execHmtClear, execHmtHash, execHmtProbe, execHmtRead, execHmtCompress, execHmtBound,
      execTencSeq, execTencLast, execFhPack, execFhParse, execFhSize, execBhPack, execBhEnd, execBhParse, execXxhInit,
      execXxhUpdate, execXxhDigest, execXxhOneshot, execXxhCheckBlock, execXxhCheckContent, State.emitSequence,
      State.writeDst, hb, hbs, hw] <;> rfl

end Sys2Proof.Machine
end

