-- ==== Sys2Proof/Laws/Turns.lean ====
section
/-! SUPPORT. What one step can do, said once: whose turn it is, and what each turn answers. -/

namespace Sys2Proof.Machine

/-- A step is the engine's turn when the agenda is empty, and its first turn otherwise. -/
theorem step_cases (s : State) :
    (s.agenda = [] ∧ step s = engineTurn s) ∨
      (∃ t rest, s.agenda = t :: rest ∧ step s = takeTurn t { s with agenda := rest }) := by
  unfold step
  split
  · rename_i h; exact .inl ⟨h, rfl⟩
  · rename_i t rest h; exact .inr ⟨t, rest, h, rfl⟩

/-- The engine's turn leaves an idle engine as it is, ends an illegal word with `IllegalCommand`, and runs a command. -/
theorem engineTurn_cases (s : State) :
    (s.busyCmd = none ∧ engineTurn s = .next s) ∨
      (∃ w e, s.busyCmd = some w ∧ decode w = .error e ∧
        engineTurn s = .next (s.settled.finish .illegalCommand 0#32 0#32 0#32)) ∨
      (∃ w i, s.busyCmd = some w ∧ decode w = .ok i ∧ engineTurn s = exec i s.settled) := by
  unfold engineTurn runCommand
  split
  · rename_i h; exact .inl ⟨h, rfl⟩
  · rename_i w h
    cases hd : decode w with
    | error e => exact .inr (.inl ⟨w, e, h, hd, rfl⟩)
    | ok i => exact .inr (.inr ⟨w, i, h, hd, rfl⟩)

/-- A word the decoder reads is the one word of its command (30_encoding.md R80, R82). -/
theorem encode_of_decode {w : Word} {i : Instr} (h : decode w = .ok i) : encode i = w := by
  have hw : w = reservedField w ++ opcodeField w := by
    apply BitVec.eq_of_toNat_eq
    simp only [reservedField, opcodeField, BitVec.toNat_append, BitVec.extractLsb'_toNat, Nat.shiftRight_eq_div_pow]
    rw [← Nat.shiftLeft_add_eq_or_of_lt (by omega), Nat.shiftLeft_eq]
    omega
  have ho : ∀ op : Byte, ∀ j, decodeOpcode op = some j → opcodeOf j = op := by
    intro op j hj
    have := (by decide +kernel : ∀ n : Fin 256,
      (decodeOpcode (BitVec.ofNat 8 n)).all (fun k => opcodeOf k == BitVec.ofNat 8 n) = true) ⟨op.toNat, op.isLt⟩
    simpa [hj] using this
  unfold decode at h
  split at h
  · cases h
  · rename_i hr
    cases hd : decodeOpcode (opcodeField w) with
    | none => simp [hd] at h
    | some j =>
      simp only [hd, Except.ok.injEq] at h
      rw [hw, encode, ← h, ho _ _ hd, not_not.mp hr]

/-- The command in flight has a destination region exactly when it is the word of a command that uses D. -/
theorem State.runningUsesDst_iff (s : State) :
    s.runningUsesDst = true ↔ ∃ i, s.busyCmd = some (encode i) ∧ usesDst i = true := by
  have hde : ∀ i, decode (encode i) = .ok i := by intro i; cases i <;> rfl
  constructor
  · intro h
    unfold State.runningUsesDst at h
    split at h
    · cases h
    · rename_i w hb
      split at h
      · rename_i i hd; exact ⟨i, by rw [hb, encode_of_decode hd], h⟩
      · cases h
  · rintro ⟨i, hb, hu⟩
    simp [State.runningUsesDst, hb, hde i, hu]

/-- A reset leaves memory alone unless a command that uses D is in flight. -/
theorem State.abandonedMem_eq (s : State) (h : ∀ i, s.busyCmd = some (encode i) → usesDst i = false) :
    s.abandonedMem = s.mem := by
  unfold State.abandonedMem
  split
  · rename_i hr
    obtain ⟨i, hi, hu⟩ := s.runningUsesDst_iff.mp hr
    simp [h i hi] at hu
  · rfl

/-- A register access the port does not define is refused, whatever it would do; any other goes on. -/
theorem checkedAccess_cases (width : Nat) (off : BitVec 8) (body : Result) :
    (accessWidthOk width = true ∧ accessAligned off = true ∧ checkedAccess width off body = body) ∨
      (∃ r, checkedAccess width off body = .refused r) := by
  unfold checkedAccess
  cases hw : accessWidthOk width with
  | false => exact .inr ⟨_, rfl⟩
  | true =>
    cases ha : accessAligned off with
    | false => exact .inr ⟨_, rfl⟩
    | true => exact .inl ⟨rfl, rfl, rfl⟩

/-- The six ways a host's register write that answers a next state can go. -/
theorem hostWriteReg_cases (s t : State) (r : Reg) (v : Word) (h : hostWriteReg s r v = .next t) :
    (r = .ctrl ∧ v.getLsbD 1 = true ∧ t = s.softReset) ∨
      (r = .ctrl ∧ v.getLsbD 1 = false ∧ t = { s with ie := v.getLsbD 0 }) ∨
      (r = .status ∧ t = s.writeStatus v) ∨
      (r = .cmd ∧ s.busy = true ∧ t = { s with cmdRej := true }) ∨
      (r = .cmd ∧ s.busy = false ∧ t = s.accept v) ∨
      ((s.busy = false ∨ isOperandReg r = false) ∧ t = s.storeReg v r) := by
  cases r <;> cases hb : s.busy <;> cases hv : v.getLsbD 1 <;>
    simp_all [hostWriteReg, isOperandReg]

end Sys2Proof.Machine
end

