-- ==== Sys2Proof/Laws/Races.lean ====
section
/-! SUPPORT. What the host's accesses during a command do to it: what its loads have seen of the command stays what a run of
the command writes (spec/20_memory.md R73). -/

namespace Sys2Proof.Machine

/-! ## Reads -/

/-- Fewer races are passed over than there are. -/
theorem State.readLater_le (s : State) (a : Nat) :
    ((s.raced.take s.readLater).filter fun c => decide (c.1 = a)).length ≤ (s.overwritten a).length := by
  simp only [State.overwritten, List.length_map]
  exact ((List.take_sublist _ _).filter _).length_le

theorem List.take_filter_length {α : Type} (p : α → Bool) (l : List α) (k : Nat) :
    (l.filter p).take ((l.take k).filter p).length = (l.take k).filter p := by
  conv_lhs => rw [← List.take_append_drop k l, List.filter_append]
  simp

theorem State.asIf_overwritten (s : State) (a x : Nat) (b : Byte) :
    (s.asIf a b).overwritten x = if x = a then [] else s.overwritten x := by
  simp only [State.overwritten, State.asIf, List.filter_filter]
  split
  · rename_i hx
    subst hx
    simp
  · rename_i hx
    congr 2
    funext c
    by_cases hc : c.1 = x <;> simp [hc, hx]

@[simp] theorem State.asIf_overwritten_self (s : State) (a : Nat) (b : Byte) : (s.asIf a b).overwritten a = [] := by
  rw [State.asIf_overwritten, if_pos rfl]

@[simp] theorem State.asIf_read_self (s : State) (a : Nat) (b : Byte) : (s.asIf a b).mem.read a = b :=
  Memory.read_write_same ..

@[simp] theorem State.asIf_dst (s : State) (a : Nat) (b : Byte) : (s.asIf a b).dst = s.dst := rfl

/-- Striking out the host's writes at one address leaves the reads of every other address. -/
theorem State.asIf_engineRead (s : State) (a x tag : Nat) (b : Byte) (hx : x ≠ a) :
    (s.asIf a b).engineRead tag x = s.engineRead tag x := by
  have hm : (s.asIf a b).mem.read x = s.mem.read x := Memory.read_write_other s.mem a x b hx
  have hd : (s.asIf a b).readDraw = s.readDraw := by
    simp only [State.readDraw, State.asIf]
    cases s.glimpse <;> rfl
  have hf : ∀ l : List Host.Cell,
      (l.filter fun c => decide (c.1 ≠ a)).filter (fun c => decide (c.1 = x)) = l.filter fun c => decide (c.1 = x) := by
    intro l
    rw [List.filter_filter]
    congr 1
    funext c
    by_cases hc : c.1 = x <;> simp [hc, hx]
  have hl : (((s.asIf a b).raced.take
        (s.asIf a b).readLater).filter fun c => decide (c.1 = x)) =
      (s.raced.take s.readLater).filter fun c => decide (c.1 = x) := by
    simp only [State.readLater, State.asIf]
    cases s.glimpse with
    | none => simp
    | some g =>
      simp only [Option.map_some]
      rw [List.take_filter_length, hf]
  have ho := s.asIf_overwritten a x b
  rw [if_neg hx] at ho
  have hr : (s.asIf a b).readable x = s.readable x := by
    simp only [State.readable, ho, hl, hm]
  unfold State.engineRead
  rw [ho, hd, hr, hm]

theorem State.readable_ne_nil (s : State) (a : Nat) : 0 < (s.readable a).length := by
  have := s.readLater_le a
  simp only [State.readable, List.length_drop, List.length_cons]
  omega

/-- Reads of a command that the host has had a glimpse of do not see the host's later writes. -/
theorem State.engineRead_hostStore (s : State) (a x tag : Nat) (b : Byte) (hb : s.busy = true)
    (hg : s.glimpse.isSome = true) : (s.hostStore a b).engineRead tag x = s.engineRead tag x := by
  obtain ⟨g, hg⟩ := Option.isSome_iff_exists.mp hg
  have hd : (s.hostStore a b).readDraw = s.readDraw := by simp [State.readDraw, hb, hg]
  by_cases hx : x = a
  · subst hx
    have ho : (s.hostStore x b).overwritten x = s.mem.read x :: s.overwritten x := by simp [State.overwritten, hb]
    have hr : (s.hostStore x b).readable x = s.readable x := by
      simp [State.readable, ho, State.readLater, hb, hg]
    have hlt : Config.readPick s.readDraw tag x % (s.readable x).length < (s.readable x).length :=
      Nat.mod_lt _ (s.readable_ne_nil x)
    have hl : (s.hostStore x b).engineRead tag x =
        (s.readable x)[Config.readPick s.readDraw tag x % (s.readable x).length] := by
      simp only [State.engineRead, ho, hr, hd]
      rw [List.getD_eq_getElem _ _ hlt]
    rw [hl]
    unfold State.engineRead
    split
    · rename_i hn
      have h0 := s.readLater_le x
      rw [hn] at h0
      have : s.readable x = [s.mem.read x] := by
        rw [State.readable, hn, List.length_eq_zero_iff.mp (Nat.le_zero.mp h0)]
        rfl
      simp [this]
    · rw [List.getD_eq_getElem _ _ hlt]
  · have ho : (s.hostStore a b).overwritten x = s.overwritten x := by
      simp [State.overwritten, hb, Ne.symm hx]
    have hr : (s.hostStore a b).readable x = s.readable x := by
      have hm := Memory.read_write_other s.mem a x b hx
      simp [State.readable, ho, State.readLater, hb, hg, Ne.symm hx, hm]
    unfold State.engineRead
    rw [ho, hd, hr]
    simp [Memory.read_write_other s.mem a x b hx]

/-! ## The command in flight -/

/-- A command word's code, and what its command writes, depend on memory only through the reads of S outside D. -/
theorem runCommand_alike (w : Word) {s s' t : State} (h : SameInputs s s')
    (hr : ∀ i, decode w = .ok i → usesSrc i = true → ReadAlike s.srcByte s'.srcByte s.srcLen.toNat)
    (ht : runCommand w s = .next t) : ∃ t', runCommand w s' = .next t' ∧ EndsAlike s s' t t' := by
  unfold runCommand at *
  cases hd : decode w with
  | error e =>
    simp only [hd] at ht ⊢
    cases ht
    exact ⟨_, rfl, .kept _ _ _ _ _ _ _ _ _ _ _ rfl rfl⟩
  | ok i =>
    simp only [hd] at ht ⊢
    exact exec_alike i h (hr i hd) ht

/-- A command word that changes a byte of memory, or ends with `OutputTooSmall`, is that of a command that uses D and has
passed its checks; and it changes bytes of D only. -/
theorem runCommand_effect (w : Word) {s t : State} (ht : runCommand w s = .next t) :
    (t.errCode ≠ .outputTooSmall ∧ ∀ a, t.mem.read a = s.mem.read a) ∨
      (∃ i, decode w = .ok i ∧ (usesSrc i = true → s.src.overlaps s.dst = false) ∧
        ∀ a, s.dst.contains a = false → t.mem.read a = s.mem.read a) := by
  unfold runCommand at ht
  cases hd : decode w with
  | error e =>
    simp only [hd] at ht
    cases ht
    exact .inl ⟨nofun, fun _ => rfl⟩
  | ok i =>
    simp only [hd] at ht
    exact (exec_effect i ht).imp_right fun h => ⟨i, rfl, h.2⟩

theorem Region.not_both {r q : Region} {a : Nat} (h : r.overlaps q = false) (hq : q.contains a = true) :
    r.contains a = false := by
  have hn := (Region.overlaps_iff r q).not.mp (by simp [h])
  simp only [Region.contains, Bool.and_eq_true, decide_eq_true_eq] at hq
  simp only [Region.contains, Bool.and_eq_false_imp, decide_eq_true_eq, decide_eq_false_iff_not]
  omega

/-- Two states that differ, as far as the command in flight goes, only in the byte at `a`: if in the one the command writes
`v` there, or ends with `OutputTooSmall` with `a` in D, then so it does in the other. -/
theorem runCommand_writes (w : Word) {s s' t : State} {a : Nat} {v : Byte} (h : SameInputs s s')
    (hr : ∀ tag x, x ≠ a → s'.engineRead tag x = s.engineRead tag x) (ho : s.overwritten a = [])
    (ho' : s'.overwritten a = []) (ht : runCommand w s = .next t) (hm : s.mem.read a ≠ v)
    (hw : t.mem.read a = v ∨ (t.errCode = .outputTooSmall ∧ s.dst.contains a = true)) :
    ∃ t', runCommand w s' = .next t' ∧
      (t'.mem.read a = v ∨ (t'.errCode = .outputTooSmall ∧ s'.dst.contains a = true)) := by
  obtain ⟨i, hd, hov, hout⟩ : ∃ i, decode w = .ok i ∧ (usesSrc i = true → s.src.overlaps s.dst = false) ∧
      ∀ a, s.dst.contains a = false → t.mem.read a = s.mem.read a := by
    rcases runCommand_effect w ht with ⟨hne, hk⟩ | h
    · rcases hw with hw | hw
      · exact absurd ((hk a).symm.trans hw) hm
      · exact absurd hw.1 hne
    · exact h
  have ha : s.dst.contains a = true := by
    rcases hw with hw | hw
    · by_contra hn
      exact hm ((hout a (by simpa using hn)).symm.trans hw)
    · exact hw.2
  have hra : ∀ j, decode w = .ok j → usesSrc j = true → ReadAlike s.srcByte s'.srcByte s.srcLen.toNat := by
    intro j hj hu tag k hk
    obtain rfl : i = j := by simpa [hd] using hj
    have hs := Region.outside_of_contains (Region.not_both (hov hu) ha)
    simp only [State.src_base, State.src_len] at hs
    simp only [State.srcByte, h.srcAddr]
    exact hr _ _ (by omega)
  obtain ⟨t', ht', hc, hmem⟩ := runCommand_alike w h hra ht
  refine ⟨t', ht', ?_⟩
  rcases hmem a ho ho' with h1 | ⟨h1, h2⟩ | ⟨h1, h2⟩
  · rcases hw with hw | hw
    · exact .inl (h1.trans hw)
    · exact .inr ⟨hc.trans hw.1, by rw [State.dst_congr h]; exact ha⟩
  · rcases hw with hw | hw
    · exact absurd (h2.symm.trans hw) hm
    · exact .inr ⟨hc.trans hw.1, by rw [State.dst_congr h]; exact ha⟩
  · exact .inr ⟨hc.trans h1, by rw [State.dst_congr h]; exact ha⟩

/-- `mayWrite`, said of the command's end. -/
theorem State.mayWrite_iff (s : State) (a : Nat) (v : Byte) :
    s.mayWrite a v = true ↔ ∃ w t, s.busyCmd = some w ∧
      runCommand w (s.asIf a (~~~v)) = .next t ∧
        (t.mem.read a = v ∨ (t.errCode = .outputTooSmall ∧ s.dst.contains a = true)) := by
  unfold State.mayWrite State.endWith
  cases hb : s.busyCmd with
  | none => simp
  | some w =>
    simp only [Option.some.injEq]
    constructor
    · intro h
      split at h
      · cases h
      · rename_i t ht
        split at ht
        · rename_i u hu
          cases ht
          exact ⟨w, t, rfl, hu, by simpa using h⟩
        · cases ht
        · cases ht
    · rintro ⟨w', t, rfl, ht, hw⟩
      simp only [ht]
      simpa using hw

/-- What a running command writes is the same in two states that hold the same inputs and whose reads answer alike. -/
theorem State.mayWrite_congr {s s' : State} (h : SameInputs s s') (hb : s'.busyCmd = s.busyCmd)
    (hr : ∀ tag x, s'.engineRead tag x = s.engineRead tag x) (a : Nat) (v : Byte) (hw : s.mayWrite a v = true) :
    s'.mayWrite a v = true := by
  obtain ⟨w, t, hbw, ht, hv⟩ := (s.mayWrite_iff a v).mp hw
  have hs : SameInputs (s.asIf a (~~~v))
      (s'.asIf a (~~~v)) := ⟨h.1, h.2, h.3, h.4, h.5, h.6, h.7, h.8, h.9, h.10, h.11,
    h.12, h.13, h.14⟩
  have hrr : ∀ tag x, x ≠ a → (s'.asIf a (~~~v)).engineRead tag x =
      (s.asIf a (~~~v)).engineRead tag x := by
    intro tag x hx
    rw [State.asIf_engineRead _ _ _ _ _ hx,
      State.asIf_engineRead _ _ _ _ _ hx, hr]
  obtain ⟨t', ht', hv'⟩ := runCommand_writes (v := v) w hs hrr (by simp)
    (by simp) ht (by simp) (by simpa only [State.asIf_dst] using hv)
  exact (s'.mayWrite_iff a v).mpr ⟨w, t', hb.trans hbw, ht', by simpa only [State.asIf_dst] using hv'⟩

/-- A byte other than the one that stands there, which the command leaves, is one it writes. -/
theorem State.mayWrite_ownByte (s : State) (a : Nat) (h : s.ownByte a ≠ s.mem.read a) :
    s.mayWrite a (s.ownByte a) = true := by
  generalize hv : s.ownByte a = v at h
  unfold State.ownByte State.endWith at hv
  cases hb : s.busyCmd with
  | none => simp only [hb] at hv; exact absurd hv.symm h
  | some w =>
    simp only [hb] at hv
    cases hc : runCommand w (s.asIf a (s.mem.read a)) with
    | fault f => simp only [hc] at hv; exact absurd hv.symm h
    | refused r => simp only [hc] at hv; exact absurd hv.symm h
    | next t =>
      simp only [hc] at hv
      have hs : SameInputs (s.asIf a (s.mem.read a))
          (s.asIf a (~~~v)) :=
        ⟨rfl, rfl, rfl, rfl, rfl, rfl, rfl, rfl, rfl, rfl, rfl, rfl, rfl, rfl⟩
      have hrr : ∀ tag x, x ≠ a → (s.asIf a (~~~v)).engineRead tag x =
          (s.asIf a (s.mem.read a)).engineRead tag x := by
        intro tag x hx
        rw [State.asIf_engineRead _ _ _ _ _ hx,
          State.asIf_engineRead _ _ _ _ _ hx]
      obtain ⟨t', ht', hv'⟩ := runCommand_writes (v := v) w hs hrr (by simp)
        (by simp) hc (by simpa using h.symm) (.inl hv)
      exact (s.mayWrite_iff a v).mpr ⟨w, t', hb, ht', by simpa only [State.asIf_dst] using hv'⟩

/-- Where the host has not written a byte, the command in flight leaves what it may write there, or ends with
`OutputTooSmall`. -/
theorem State.mayWrite_ends {s t : State} {w : Word} {a : Nat} {v : Byte} (hw : s.mayWrite a v = true)
    (hb : s.busyCmd = some w) (ho : s.overwritten a = []) (ht : runCommand w s = .next t) :
    t.mem.read a = v ∨ t.errCode = .outputTooSmall := by
  obtain ⟨w', u, hbw, hu, hv⟩ := (s.mayWrite_iff a v).mp hw
  obtain rfl : w = w' := by simpa [hb] using hbw
  have hs : SameInputs (s.asIf a (~~~v)) s :=
    ⟨rfl, rfl, rfl, rfl, rfl, rfl, rfl, rfl, rfl, rfl, rfl, rfl, rfl, rfl⟩
  have hrr : ∀ tag x, x ≠ a → s.engineRead tag x =
      (s.asIf a (~~~v)).engineRead tag x := by
    intro tag x hx
    rw [State.asIf_engineRead _ _ _ _ _ hx]
  obtain ⟨t', ht', hv'⟩ := runCommand_writes (v := v) w hs hrr (by simp) ho hu (by simp)
    (by simpa only [State.asIf_dst] using hv)
  obtain rfl : t = t' := by simpa [ht] using ht'
  exact hv'.imp_right And.left

/-! ## What loads have seen -/

/-- What `settled` can do: keep the state, or let the reads take fresh free values, with which the command writes all that
was seen. -/
theorem State.settled_cases (s : State) :
    s.settled = s ∨
      (s.settled = { s with glimpse := none } ∧
        ∀ c ∈ s.seen, ({ s with glimpse := none } : State).mayWrite c.1 c.2 = true) := by
  unfold State.settled State.seen
  cases s.glimpse with
  | none => exact .inl rfl
  | some g =>
    dsimp only
    split
    · rename_i h
      exact .inr ⟨rfl, by simpa using h⟩
    · exact .inl rfl

@[simp] theorem State.settled_busyCmd (s : State) : s.settled.busyCmd = s.busyCmd := by
  rcases s.settled_cases with h | ⟨h, -⟩ <;> rw [h]
@[simp] theorem State.settled_mem (s : State) : s.settled.mem = s.mem := by
  rcases s.settled_cases with h | ⟨h, -⟩ <;> rw [h]
@[simp] theorem State.settled_raced (s : State) : s.settled.raced = s.raced := by
  rcases s.settled_cases with h | ⟨h, -⟩ <;> rw [h]
@[simp] theorem State.settled_draws (s : State) : s.settled.draws = s.draws := by
  rcases s.settled_cases with h | ⟨h, -⟩ <;> rw [h]
@[simp] theorem State.settled_overwritten (s : State) (a : Nat) : s.settled.overwritten a = s.overwritten a := by
  simp [State.overwritten]

theorem State.settled_unseen (s : State) (h : s.glimpse = none) : s.settled = s := by
  unfold State.settled
  rw [h]

theorem State.glimpseLegal_iff (s : State) :
    s.glimpseLegal = true ↔ (s.glimpse ≠ none → s.busy = true) ∧ ∀ c ∈ s.seen, s.mayWrite c.1 c.2 = true := by
  unfold State.glimpseLegal State.seen
  cases s.glimpse <;> simp

/-- The run that completes the command writes all that the host has seen it write. -/
theorem State.settled_mayWrite (s : State) (h : s.glimpseLegal = true) (c : Host.Cell) (hc : c ∈ s.seen) :
    s.settled.mayWrite c.1 c.2 = true := by
  rcases s.settled_cases with hs | ⟨hs, hw⟩ <;> rw [hs]
  · exact (s.glimpseLegal_iff.mp h).2 c hc
  · exact hw c hc

/-- What a host's read of a byte can return: the byte that stands there, or one the command writes. -/
theorem State.hostLoad_cases (s : State) (a : Nat) :
    s.hostLoad a = s.mem.read a ∨ s.settled.mayWrite a (s.hostLoad a) = true := by
  unfold State.hostLoad
  split
  · exact .inl rfl
  · rename_i h
    split
    · exact .inl rfl
    · exact .inr (s.settled.mayWrite_ownByte a (by simpa using h))

/-- With no command running, a host's read returns the byte that stands there. -/
theorem State.hostLoad_idle (s : State) (h : s.busyCmd = none) (a : Nat) : s.hostLoad a = s.mem.read a := by
  have : s.settled.ownByte a = s.mem.read a := by
    simp [State.ownByte, State.endWith, h]
  simp [State.hostLoad, this]

/-- What was seen stays legal in a state with the same command, inputs and reads. -/
theorem State.glimpseLegal_congr {s s' : State} (h : SameInputs s s') (hb : s'.busyCmd = s.busyCmd)
    (hn : s'.glimpse ≠ none → s.glimpse ≠ none) (hs : s'.seen = s.seen)
    (hr : ∀ tag x, s'.engineRead tag x = s.engineRead tag x) (hl : s.glimpseLegal = true) : s'.glimpseLegal = true := by
  rw [State.glimpseLegal_iff] at *
  refine ⟨fun h' => ?_, fun c hc => ?_⟩
  · have := hl.1 (hn h')
    simp only [State.busy, hb] at *
    exact this
  · rw [hs] at hc
    exact State.mayWrite_congr h hb hr c.1 c.2 (hl.2 c hc)

/-- A host's write adds nothing to what was seen. -/
@[simp] theorem State.hostStore_seen (s : State) (a : Nat) (b : Byte) : (s.hostStore a b).seen = s.seen := by
  simp only [State.seen, State.hostStore_glimpse]
  cases s.glimpse <;> cases s.busy <;> rfl

/-- A host's write keeps what was seen legal. -/
theorem State.hostStore_glimpseLegal (s : State) (a : Nat) (b : Byte) (h : s.glimpseLegal = true) :
    (s.hostStore a b).glimpseLegal = true := by
  cases hg : s.glimpse with
  | none => simp [State.glimpseLegal, hg]
  | some g =>
    have hb : s.busy = true := (s.glimpseLegal_iff.mp h).1 (by simp [hg])
    have hi : SameInputs s (s.hostStore a b) :=
      ⟨rfl, rfl, rfl, rfl, rfl, rfl, rfl, rfl, rfl, rfl, rfl, rfl, rfl, rfl⟩
    refine State.glimpseLegal_congr hi rfl (fun _ => by simp [hg]) (s.hostStore_seen a b) ?_ h
    exact fun tag x => s.engineRead_hostStore a x tag b hb (by simp [hg])

/-- The bytes seen after a host's read: those before, and the one read where the command wrote it. -/
theorem State.afterLoad_seen (s : State) (a : Nat) :
    (s.afterLoad a).seen = if s.hostLoad a = s.mem.read a then s.seen else (a, s.hostLoad a) :: s.seen := by
  simp only [State.afterLoad, State.glimpseAfter]
  split <;> rfl

/-- A host's read keeps what was seen legal. -/
theorem State.afterLoad_glimpseLegal (s : State) (a : Nat) (h : s.glimpseLegal = true) :
    (s.afterLoad a).glimpseLegal = true := by
  by_cases hv : s.hostLoad a = s.mem.read a
  · cases hg : s.glimpse with
    | none => simp [State.glimpseLegal, State.afterLoad, State.glimpseAfter, hv, hg]
    | some g =>
      have hi : SameInputs s (s.afterLoad a) :=
        ⟨rfl, rfl, rfl, rfl, rfl, rfl, rfl, rfl, rfl, rfl, rfl, rfl, rfl, rfl⟩
      refine State.glimpseLegal_congr hi rfl (fun _ => by simp [hg]) (by rw [s.afterLoad_seen, if_pos hv]) ?_ h
      intro tag x
      simp [State.engineRead, State.afterLoad, State.glimpseAfter, hv, State.readable, State.readLater, State.readDraw,
        hg, State.overwritten]
  · have hb : s.busy = true := by
      cases hbc : s.busyCmd with
      | none => exact absurd (s.hostLoad_idle hbc a) hv
      | some w => simp [State.busy, hbc]
    have hg : (s.afterLoad a).glimpse =
        some { seen := (a, s.hostLoad a) :: s.seen, draw := s.settled.readDraw, later := s.settled.readLater } := by
      simp [State.afterLoad, State.glimpseAfter, hv]
    have hi : SameInputs s.settled (s.afterLoad a) := by
      rcases s.settled_cases with hs | ⟨hs, -⟩ <;> rw [hs] <;>
        exact ⟨rfl, rfl, rfl, rfl, rfl, rfl, rfl, rfl, rfl, rfl, rfl, rfl, rfl, rfl⟩
    have hr : ∀ tag x, (s.afterLoad a).engineRead tag x = s.settled.engineRead tag x := by
      intro tag x
      have hm : (s.afterLoad a).mem = s.mem := rfl
      have hra : (s.afterLoad a).raced = s.raced := rfl
      have hd : (s.afterLoad a).readDraw = s.settled.readDraw := by
        conv_lhs => unfold State.readDraw
        rw [hg]
      have hl : (s.afterLoad a).readLater = s.settled.readLater := by
        conv_lhs => unfold State.readLater
        rw [hg]
      simp only [State.engineRead, State.readable, State.overwritten, hm, hra, hd, hl, s.settled_mem, s.settled_raced]
    rw [State.glimpseLegal_iff]
    refine ⟨fun _ => hb, fun c hc => State.mayWrite_congr hi (by rw [s.settled_busyCmd]; rfl) hr c.1 c.2 ?_⟩
    rw [s.afterLoad_seen, if_neg hv, List.mem_cons] at hc
    rcases hc with rfl | hc
    · exact (s.hostLoad_cases a).resolve_left hv
    · exact s.settled_mayWrite h c hc

end Sys2Proof.Machine
end

