-- ==== Sys2Proof/Laws/Sequence.lean ====
section
/-! SUPPORT. The lengths of the byte strings the encoders make (spec/42_token_encoder.md R163). -/

namespace Sys2Proof.Machine

@[simp] theorem leBytes_length (n v : Nat) : (leBytes n v).length = n := by
  induction n generalizing v with
  | zero => rfl
  | succ n ih => simp [leBytes, ih]

@[simp] theorem extBytes_length (v : Nat) : (extBytes v).length = extLen v := by
  unfold extBytes extLen
  split
  · rfl
  · simp; omega

theorem extLen_le (v : Nat) : extLen v ≤ v := by
  unfold extLen
  split
  · omega
  · omega

/-- `len(SEQ_BYTES(lits, M, off)) = SEQ_SIZE(L, M)` (R163). -/
theorem seqBytes_length (lits : List Byte) (m off : Nat) : (seqBytes lits m off).length = seqSize lits.length m := by
  simp [seqBytes, seqSize]; omega

/-- `len(LAST_BYTES(lits)) = LAST_SIZE(L)` (R163). -/
theorem lastBytes_length (lits : List Byte) : (lastBytes lits).length = lastSize lits.length := by
  simp [lastBytes, lastSize]; omega

@[simp] theorem literals_length (rd : Nat → Nat → Byte) (a b : Nat) : (literals rd a b).length = b - a := by
  simp [literals]

@[simp] theorem State.srcBytes_length (s : State) (tag : Nat) : (s.srcBytes tag).length = s.srcLen.toNat := by
  simp [State.srcBytes]

/-- What writing a packed sequence can do: `OutputTooSmall` with nothing written, or the bytes written to D. -/
theorem State.emitSequence_cases (s : State) (bs : List Byte) :
    (s.dstCap.toNat < bs.length ∧ s.emitSequence bs = .next (s.finish .outputTooSmall 0#32 0#32 0#32)) ∨
      (bs.length ≤ s.dstCap.toNat ∧
        s.emitSequence bs =
          .next ((s.writeDst bs).finish .ok (BitVec.ofNat 32 bs.length) ((bs.headD 0#8).setWidth 32) 0#32)) := by
  unfold State.emitSequence
  by_cases h : bs.length > s.dstCap.toNat
  · exact .inl ⟨h, by rw [if_pos h]; rfl⟩
  · exact .inr ⟨by omega, by rw [if_neg h]; rfl⟩

end Sys2Proof.Machine
end

