-- ==== Sys2Proof/Tests/Slice0.lean ====
section
/-! SUPPORT. The model's own tests. Expected values are the spec's: the vectors of spec/95_test_vectors.md (named V-…) and the
examples of the commands' rules. The witnesses at the end show, for each statement with hypotheses, a state and operands that
meet them. -/

-- One test after another: run side by side, the kernel's checks of so many tests hold too many threads at once.
set_option Elab.async false

namespace Sys2Proof.Tests

open Sys2Proof Sys2Proof.Machine

/-! ## Small states -/

/-- Memory with the bytes `bs` at `base` and nothing else written. -/
def load (base : Nat) : List Byte → Memory
  | [] => []
  | b :: bs => (load (base + 1) bs).write base b

/-- After reset and `HMT_CLEAR`'s table, with the bytes `bs` at `0x1000` as S, D of `cap` bytes at `0x2000`, and the
operands `a` and `b`. -/
def small (bs : List Byte) (cap a b : Word) : State :=
  { State.reset with
    ht := zeroTable, mem := load 0x1000 bs, srcAddr := 0x1000#32, srcLen := BitVec.ofNat 32 bs.length
    dstAddr := 0x2000#32, dstCap := cap, accel := 1#32, opA := a, opB := b }

/-- The same with `FI_CFG` as `v` writes it. -/
def framed (v cap : Word) : State := { small [] cap 0#32 0#32 with fiCfg := FrameCfg.reset.write v }

/-- The state a command ends in. -/
def ended (i : Instr) (s : State) : Option State :=
  match exec i s with
  | .next t => some t
  | .fault _ => none
  | .refused _ => none

/-- The status code and the results a command ends with. -/
def results (i : Instr) (s : State) : Option (StatusCode × Word × Word × Word) :=
  (ended i s).map fun t => (t.errCode, t.r0, t.r1, t.r2)

/-- The first `n` bytes of D after a command. -/
def written (i : Instr) (s : State) (n : Nat) : Option (List Byte) :=
  (ended i s).map fun t => (List.range n).map fun k => t.mem.read (0x2000 + k)

/-- What `f` reads from the state one step leads to. -/
def afterStep {α : Type} (s : State) (f : State → α) : Option α :=
  match step s with
  | .next t => some (f t)
  | .fault _ => none
  | .refused _ => none

theorem ends (i : Instr) (s : State) (p : State → Bool) (h : (ended i s).any p = true) :
    ∃ t, exec i s = .next t ∧ p t = true := by
  unfold ended at h
  split at h
  · rename_i t ht; exact ⟨t, ht, h⟩
  · cases h
  · cases h

/-- The seven bytes of the header of R200's example. -/
def header : List Byte := [0x04#8, 0x22#8, 0x4D#8, 0x18#8, 0x64#8, 0x40#8, 0xA7#8]

/-- A skippable frame of 16 bytes (R188). -/
def skipped : List Byte := [0x50#8, 0x2A#8, 0x4D#8, 0x18#8, 0x10#8, 0#8, 0#8, 0#8]

/-! ## Well-formedness -/

/-- R82: a word with a bit above 7 set. -/
theorem test_word_reserved : wordReservedZero 0x100#32 = false ∧ wordWellFormed 0x100#32 = false := by decide

/-- R81: a word of no listed opcode. -/
theorem test_word_unlisted : wordOpcodeListed 0x16#32 = false ∧ wordWellFormed 0x16#32 = false := by decide

theorem test_word_well_formed : wordWellFormed 0x45#32 = true := by decide

/-- R21: a 16-bit access. -/
theorem test_access_width : accessWidthOk 16 = false ∧ (HostAct.write 16 0x0C#8 0#32).wellFormed = false := by decide

/-- R21: an offset that is no multiple of 4. -/
theorem test_access_aligned : accessAligned 0x02#8 = false ∧ (HostAct.read 32 0x02#8).wellFormed = false := by decide

theorem test_access_well_formed : (HostAct.write 32 0x0C#8 0#32).wellFormed = true := by decide

/-! ## Decoding: words written out from R80 (bits 31..8 zero, then the opcode of R81, bit by bit) -/

theorem test_decode_control : decode (0#24 ++ 0b00000000#8) = .ok .nop := by decide

theorem test_decode_hmt :
    decode (0#24 ++ 0b00010000#8) = .ok .hmtClear ∧ decode (0#24 ++ 0b00010001#8) = .ok .hmtHash ∧
      decode (0#24 ++ 0b00010010#8) = .ok .hmtProbe ∧ decode (0#24 ++ 0b00010011#8) = .ok .hmtRead ∧
      decode (0#24 ++ 0b00010100#8) = .ok .hmtCompress ∧ decode (0#24 ++ 0b00010101#8) = .ok .hmtBound := by decide

theorem test_decode_tenc :
    decode (0#24 ++ 0b00100000#8) = .ok .tencSeq ∧ decode (0#24 ++ 0b00100001#8) = .ok .tencLast := by decide

theorem test_decode_fhdr :
    decode (0#24 ++ 0b00110000#8) = .ok .fhPack ∧ decode (0#24 ++ 0b00110001#8) = .ok .fhParse ∧
      decode (0#24 ++ 0b00110010#8) = .ok .fhSize ∧ decode (0#24 ++ 0b00110011#8) = .ok .bhPack ∧
      decode (0#24 ++ 0b00110100#8) = .ok .bhEnd ∧ decode (0#24 ++ 0b00110101#8) = .ok .bhParse := by decide

theorem test_decode_xxh :
    decode (0#24 ++ 0b01000000#8) = .ok .xxhInit ∧ decode (0#24 ++ 0b01000001#8) = .ok .xxhUpdate ∧
      decode (0#24 ++ 0b01000010#8) = .ok .xxhDigest ∧ decode (0#24 ++ 0b01000011#8) = .ok .xxhOneshot ∧
      decode (0#24 ++ 0b01000100#8) = .ok .xxhCheckBlock ∧ decode (0#24 ++ 0b01000101#8) = .ok .xxhCheckContent := by
  decide

/-- V-CT-3, V-CT-4, V-CT-5: illegal words. -/
theorem test_decode_illegal :
    decode 0x00000016#32 = .error .unlistedOpcode ∧ decode 0x00000100#32 = .error .reservedBitsSet ∧
      decode 0xFFFFFF00#32 = .error .reservedBitsSet := by decide

theorem test_decodeTableWord :
    decodeTableWord 32 0x14 = some .hmtCompress ∧ decodeTableWord 8 0x14 = some .hmtCompress ∧
      decodeTableWord 32 0x16 = none ∧ decodeTableWord 40 0x14 = none := by decide

theorem test_withFetchWord :
    afterStep (State.reset.withFetchWord 32 0x15) (fun t => (t.cmd, t.errCode, t.r0)) =
      some (0x15#32, .ok, 16#32) := by decide +kernel

/-- V-CT-3: an illegal word ends with `IllegalCommand`. -/
theorem test_illegal_word :
    afterStep (State.reset.withFetchWord 32 0x16) (fun t => (t.statusWord, t.r0, t.cmd)) =
      some (0x00008006#32, 0#32, 0x16#32) := by decide +kernel

/-! ## The commands -/

/-- V-CT-2. -/
theorem test_nop : results .nop State.reset = some (.ok, 0#32, 0#32, 0#32) := by decide +kernel

/-- R140's example. -/
theorem test_hmtClear :
    (ended .hmtClear { State.reset with opA := 1595#32 }).bind (results .hmtRead) = some (.ok, 0#32, 0#32, 0#32) := by
  decide +kernel

/-- V-HH-4. -/
theorem test_hmtHash : results .hmtHash (small [] 0#32 0x64636261#32 0#32) = some (.ok, 6339#32, 0#32, 0#32) := by
  decide +kernel

/-- V-HP-2: after `HT[1595] = 1`, a probe at 2 finds the candidate. -/
theorem test_hmtProbe_hit :
    (ended .hmtProbe (small (List.replicate 6 0x41#8) 0#32 1#32 0#32)).bind
        (fun t => results .hmtProbe { t with opA := 2#32 }) = some (.ok, 1#32, 1595#32, 1#32) := by decide +kernel

/-- V-HP-10: `p + 4` does not wrap. -/
theorem test_hmtProbe_wrap :
    results .hmtProbe (small (List.replicate 6 0x41#8) 0#32 0xFFFFFFFD#32 0#32) = some (.badOperand, 0#32, 0#32, 0#32) := by
  decide +kernel

/-- V-HP-8. -/
theorem test_hmtRead : results .hmtRead (small [] 0#32 16384#32 0#32) = some (.badOperand, 0#32, 0#32, 0#32) := by
  decide +kernel

/-- V-HC-5: the block. -/
theorem test_hmtCompress :
    written .hmtCompress (small (List.replicate 20 0x41#8) 11#32 0#32 0#32) 12 =
      some [0x29#8, 0x41#8, 0x41#8, 0x01#8, 0x00#8, 0x50#8, 0x41#8, 0x41#8, 0x41#8, 0x41#8, 0x41#8, 0#8] := by
  decide +kernel

/-- V-HC-5, V-HC-12: the table, and a D one byte too short. -/
theorem test_hmtCompress_results :
    (ended .hmtCompress (small (List.replicate 20 0x41#8) 11#32 1595#32 0#32)).bind (results .hmtRead) =
        some (.ok, 2#32, 0#32, 0#32) ∧
      results .hmtCompress (small (List.replicate 20 0x41#8) 10#32 0#32 0#32) =
        some (.outputTooSmall, 0#32, 0#32, 0#32) := by decide +kernel

/-- V-HB-8, V-HB-9. -/
theorem test_hmtBound :
    results .hmtBound (small [] 0#32 0x7E000000#32 0#32) = some (.ok, 2122219150#32, 0#32, 0#32) ∧
      results .hmtBound (small [] 0#32 0x7E000001#32 0#32) = some (.inputTooLarge, 0#32, 0#32, 0#32) := by
  decide +kernel

/-- V-TS-4: the bytes. -/
theorem test_tencSeq :
    written .tencSeq (small (List.replicate 15 0x61#8) 20#32 19#32 65535#32) 20 =
      some ([0xFF#8, 0#8] ++ List.replicate 15 0x61#8 ++ [0xFF#8, 0xFF#8, 0#8]) := by decide +kernel

/-- V-TS-10, V-TS-14. -/
theorem test_tencSeq_results :
    results .tencSeq (small [0x41#8, 0x41#8] 5#32 13#32 1#32) = some (.ok, 5#32, 0x29#32, 0#32) ∧
      results .tencSeq (small [] 2#32 4#32 1#32) = some (.outputTooSmall, 0#32, 0#32, 0#32) := by decide +kernel

/-- V-TL-10. -/
theorem test_tencLast :
    written .tencLast (small (List.replicate 4 0x41#8) 5#32 0#32 0#32) 5 =
      some [0x40#8, 0x41#8, 0x41#8, 0x41#8, 0x41#8] := by decide +kernel

/-- V-TL-5, V-TL-9. -/
theorem test_tencLast_results :
    results .tencLast (small (List.replicate 15 0x62#8) 17#32 0#32 0#32) = some (.ok, 17#32, 0xF0#32, 0#32) ∧
      results .tencLast (small [] 0#32 0#32 0#32) = some (.outputTooSmall, 0#32, 0#32, 0#32) := by decide +kernel

/-- R200's example. -/
theorem test_fhPack : written .fhPack (framed 0x405#32 7#32) 7 = some header := by decide +kernel

/-- R200's example, and `FI_CFG` at its reset value. -/
theorem test_fhPack_results :
    results .fhPack (framed 0x405#32 7#32) = some (.ok, 7#32, 0x00A74064#32, 0#32) ∧
      results .fhPack (framed 0#32 7#32) = some (.maxBlockSizeInvalid, 0#32, 0#32, 0#32) := by decide +kernel

/-- R201's example. -/
theorem test_fhParse :
    (ended .fhParse (small header 0#32 0#32 0#32)).map (fun t => (t.r0, t.r1, t.fiCfg.word, t.fiBlockMax, t.fiDesc)) =
      some (7#32, 0x00A74064#32, 0x405#32, 65536#32, 0x07A74064#32) := by decide +kernel

/-- R201's example of a wrong checksum; R264's of three bytes. -/
theorem test_fhParse_errors :
    results .fhParse (small [0x04#8, 0x22#8, 0x4D#8, 0x18#8, 0x64#8, 0x40#8, 0xA6#8] 0#32 0#32 0#32) =
        some (.headerChecksumInvalid, 0#32, 0#32, 0#32) ∧
      results .fhParse (small [0x05#8, 0x22#8, 0x4D#8] 0#32 0#32 0#32) =
        some (.frameHeaderIncomplete, 0#32, 0#32, 0#32) := by decide +kernel

/-- R202's example. -/
theorem test_fhSize :
    results .fhSize (small [0x04#8, 0x22#8, 0x4D#8, 0x18#8, 0x68#8] 0#32 0#32 0#32) =
      some (.ok, 15#32, 0#32, 0#32) := by decide +kernel

/-- R203's examples. -/
theorem test_bhPack :
    results .bhPack (small [] 4#32 10#32 100#32) = some (.ok, 4#32, 0x0000000A#32, 0#32) ∧
      written .bhPack (small [] 4#32 100#32 100#32) 4 = some [0x64#8, 0#8, 0#8, 0x80#8] := by decide +kernel

/-- R204. -/
theorem test_bhEnd :
    written .bhEnd { small [] 4#32 0#32 0#32 with mem := load 0x2000 (List.replicate 5 0xFF#8) } 5 =
      some [0#8, 0#8, 0#8, 0#8, 0xFF#8] := by decide +kernel

/-- R205's example and its end marker. -/
theorem test_bhParse :
    results .bhParse (small [0x64#8, 0#8, 0#8, 0x80#8] 0#32 0#32 0#32) = some (.ok, 100#32, 1#32, 0#32) ∧
      results .bhParse (small [0#8, 0#8, 0#8, 0x80#8] 0#32 0#32 0#32) = some (.ok, 0#32, 1#32, 1#32) := by
  decide +kernel

/-- V-XXH-2, through `XXH_INIT` with seed 1. -/
theorem test_xxhInit :
    (ended .xxhInit { small [] 0#32 0#32 0#32 with xxhSeed := 1#32 }).bind (results .xxhDigest) =
      some (.ok, 0x0B2CB792#32, 0#32, 0#32) := by decide +kernel

/-- R241's example. -/
theorem test_xxhUpdate :
    (ended .xxhUpdate (small [0x30#8, 0x31#8, 0x32#8, 0x33#8, 0x34#8, 0x35#8, 0x36#8] 0#32 0#32 0#32)).map
        (fun t => (t.r0, t.xs.buf.length, t.xs.v1)) = some (7#32, 7, 0x24234428#32) := by decide +kernel

/-- R242: right after reset. -/
theorem test_xxhDigest : results .xxhDigest State.reset = some (.ok, 0x02CC5D05#32, 0#32, 0#32) := by decide +kernel

/-- V-XXH-4, V-XXH-7. -/
theorem test_xxhOneshot :
    results .xxhOneshot (small [0x61#8, 0x62#8, 0x63#8] 0#32 0#32 0#32) = some (.ok, 0x32D153FF#32, 0#32, 0#32) ∧
      xxh32 ((List.range 10).map (fun k => BitVec.ofNat 8 (0x30 + k)) ++ [0x61#8, 0x62#8, 0x63#8, 0x64#8, 0x65#8]) 0#32 =
        0x1DBDFA0F#32 := by decide +kernel

/-- R244's example. -/
theorem test_xxhCheckBlock :
    results .xxhCheckBlock (small (List.replicate 4 0x41#8) 0#32 0x02B6A9F5#32 0#32) =
        some (.ok, 0x02B6A9F5#32, 0#32, 0#32) ∧
      results .xxhCheckBlock (small (List.replicate 4 0x41#8) 0#32 0x02B6A9F4#32 0#32) =
        some (.blockChecksumInvalid, 0#32, 0#32, 0#32) := by decide +kernel

/-- R245: an empty frame's checksum. -/
theorem test_xxhCheckContent :
    results .xxhCheckContent (small [] 0#32 0x02CC5D05#32 0#32) = some (.ok, 0x02CC5D05#32, 0#32, 0#32) ∧
      results .xxhCheckContent (small [] 0#32 0x02CC5D04#32 0#32) = some (.contentChecksumInvalid, 0#32, 0#32, 0#32) := by
  decide +kernel

/-! ## The register port and reset -/

/-- A state whose next turn is the host's. -/
def hostNext (s : State) (a : HostAct) : State := { s with agenda := [.host a] }

/-- V-CT-1. -/
theorem test_read_id :
    afterStep (hostNext State.reset (.read 32 0x00#8)) (fun t => t.hostReads) =
      some [.reg 0x00#8 0x4C5A3401#32] := by decide +kernel

/-- V-CT-7: a `CMD` write while a command runs. -/
theorem test_command_rejected :
    afterStep (hostNext (State.reset.accept 0x14#32) (.write 32 0x0C#8 0#32)) (fun t => (t.cmdRej, t.cmd, t.busyCmd)) =
      some (true, 0x14#32, some 0x14#32) := by decide +kernel

/-- V-CT-6: `DONE` is cleared by writing 1. -/
theorem test_done_cleared :
    afterStep (hostNext { State.reset with done := true } (.write 32 0x08#8 2#32)) (fun t => t.statusWord) =
      some 0#32 := by decide +kernel

/-- R282: the soft reset ignores bit 0 and clears `STATUS`. -/
theorem test_soft_reset :
    afterStep (hostNext (State.reset.accept 0x14#32) (.write 32 0x04#8 3#32))
        (fun t => (t.ie, t.statusWord, t.cmd, t.busyCmd)) = some (false, 0#32, 0#32, none) := by decide +kernel

theorem test_memory_canonical :
    Memory.wf State.reset.mem = true ∧ Memory.wf (load 5 [1#8, 0#8, 2#8]) = true ∧
      Memory.wf [(5, 1#8), (5, 2#8)] = false ∧ Memory.wf [(5, 0#8)] = false ∧
      (load 5 [1#8]).write 5 0#8 = [] := by decide +kernel

/-! ## Witnesses: states and operands that meet the hypotheses of a statement, each clause at a boundary -/

/-- Six bytes of S, `OPA = 2`: the last position a probe may take. -/
def probed : State := small (List.replicate 6 0x41#8) 0#32 2#32 0#32

/-- S of the given length at address 0, D of 16 bytes at `0xFFFFFFF0`, the last place it can stand. -/
def wide (len : Word) : State :=
  { State.reset with srcLen := len, dstAddr := 0xFFFFFFF0#32, dstCap := 16#32, opA := 4#32, opB := 1#32 }

/-- S and D both at the last address: they overlap. -/
def overlapping : State :=
  { State.reset with srcAddr := 0xFFFFFFFF#32, srcLen := 1#32, dstAddr := 0xFFFFFFFF#32, dstCap := 1#32 }

/-- S and D both one byte too long for the address space. -/
def wrapping : State :=
  { State.reset with srcAddr := 0xFFFFFFFF#32, srcLen := 2#32, dstAddr := 0xFFFFFFFF#32, dstCap := 2#32 }

/-- A regular header of seven bytes with the given FLG, BD and HC. -/
def headed (flg bd hc : Byte) : State := small [0x04#8, 0x22#8, 0x4D#8, 0x18#8, flg, bd, hc] 0#32 0#32 0#32

/-- A running command whose turn is next. -/
def running (w : Word) : State := State.reset.accept w

/-- `TENC_LAST` of the byte `0x41` in flight, the host having seen its token (R171: `0x10`). -/
def glimpsed : State :=
  { (small [0x41#8] 2#32 0#32 0#32).accept 0x21#32 with
    glimpse := some { seen := [(0x2000, 0x10#8)], draw := 0, later := 0 } }

/-- R171, R73: the command writes its token and no other byte there, and nothing where it does not write. -/
theorem test_mayWrite :
    glimpsed.mayWrite 0x2000 0x10#8 = true ∧ glimpsed.mayWrite 0x2000 0x11#8 = false ∧
      glimpsed.mayWrite 0x2002 0#8 = false := by decide +kernel

/-- R73: the byte the host has seen is the byte the command leaves. -/
theorem test_glimpsed_ends : afterStep glimpsed (fun t => (t.mem.read 0x2000, t.glimpse)) = some (0x10#8, none) := by
  decide +kernel

theorem afterStep_next {s : State} {v : Byte × Option Glimpse}
    (h : afterStep s (fun t => (t.mem.read 0x2000, t.glimpse)) = some v) : ∃ t, step s = .next t := by
  unfold afterStep at h
  split at h
  · exact ⟨_, ‹_›⟩
  · cases h
  · cases h

theorem witness_StepKeepsInvariant :
    (running 0x11#32).inv = true ∧ ∃ t, step (running 0x11#32) = .next t := ⟨by decide, _, rfl⟩

theorem witness_OtherWordsAreIllegal :
    ¬((0x100#32 : Word).toNat < 256 ∧ (0x100#32 : Word).setWidth 8 ∈ listedOpcodes) ∧
      (running 0x100#32).busyCmd = some 0x100#32 ∧ (running 0x100#32).agenda = [] ∧
      ¬((0x46#32 : Word).toNat < 256 ∧ (0x46#32 : Word).setWidth 8 ∈ listedOpcodes) ∧
      (running 0x46#32).busyCmd = some 0x46#32 ∧ (running 0x46#32).agenda = [] := by decide

theorem witness_IdleCommandWriteIsAccepted :
    (hostNext State.reset (.write 32 0x0C#8 0x45#32)).busyCmd = none ∧
      (hostNext State.reset (.write 32 0x0C#8 0x45#32)).agenda = [.host (.write 32 0x0C#8 0x45#32)] := by decide

theorem witness_BusyCommandWriteIsRejected :
    (hostNext (running 0x10#32) (.write 32 0x0C#8 0x45#32)).busyCmd = some 0x10#32 ∧
      (hostNext (running 0x10#32) (.write 32 0x0C#8 0x45#32)).agenda = [.host (.write 32 0x0C#8 0x45#32)] := by decide

theorem witness_StepRunsTheCommandInFlight :
    ((running 0x45#32).busyCmd = some 0x45#32 ∧ decode 0x45#32 = .ok .xxhCheckContent ∧ (running 0x45#32).agenda = []) ∧
      ({ running 0x45#32 with agenda := [.engine] } : State).agenda = [.engine] ∧
      ((hostNext (running 0x45#32) .waitDone).agenda = [.host .waitDone] ∧
        (hostNext (running 0x45#32) .waitDone).done = false) ∧
      State.reset.busyCmd = none ∧ State.reset.agenda = [] ∧ (running 0x45#32).raced = [] := by decide

theorem witness_CommandThenWaitReadsDone :
    ({ State.reset with agenda := [.host (.write 32 0x0C#8 (encode .nop)), .host .waitDone] } : State).busyCmd = none := by
  decide

/-- A failed command, and the one that leaves free values. -/
theorem witness_FailedCommandsReportOnlyTheirCode :
    (∃ t, exec .hmtRead (small [] 0#32 16384#32 0#32) = .next t ∧ (t.errCode != .ok) = true) ∧
      ∃ t, exec .hmtCompress (small (List.replicate 4 0x41#8) 4#32 0#32 0#32) = .next t ∧
        (t.errCode == .outputTooSmall) = true :=
  ⟨ends _ _ _ (by decide +kernel), ends _ _ _ (by decide +kernel)⟩

/-- A command that writes D in full, and one that does not use it. -/
theorem witness_CommandsWriteOnlyTheDestination :
    (∃ t, exec .bhEnd (small [] 4#32 0#32 0#32) = .next t ∧ (usesDst .bhEnd && t.errCode == .ok) = true) ∧
      ∃ t, exec .xxhDigest State.reset = .next t ∧ (!usesDst .xxhDigest) = true :=
  ⟨ends _ _ _ (by decide +kernel), ends _ _ _ (by decide +kernel)⟩

/-- Two memories that agree on S and differ just outside it. -/
theorem witness_CommandsReadOnlyTheSource :
    (∀ a : Nat, 0x1000 ≤ a → a < 0x1000 + 4 →
      (load 0x0FFF [9#8, 1#8, 2#8, 3#8, 4#8, 9#8]).read a = (small [1#8, 2#8, 3#8, 4#8] 0#32 0#32 0#32).mem.read a) ∧
      ∃ t, exec .xxhOneshot (small [1#8, 2#8, 3#8, 4#8] 0#32 0#32 0#32) = .next t ∧ usesSrc .xxhOneshot = true := by
  refine ⟨?_, ends _ _ (fun _ => usesSrc .xxhOneshot) (by decide +kernel)⟩
  intro a h1 h2
  obtain rfl | rfl | rfl | rfl : a = 0x1000 ∨ a = 0x1001 ∨ a = 0x1002 ∨ a = 0x1003 := by omega
  all_goals decide +kernel

theorem witness_BadRegionsEndWithBadOperand :
    (usesSrc .bhParse = true ∧ 0x100000000 < wrapping.srcAddr.toNat + wrapping.srcLen.toNat) ∧
      (usesDst .bhEnd = true ∧ 0x100000000 < wrapping.dstAddr.toNat + wrapping.dstCap.toNat) ∧
      usesSrc .tencLast = true ∧ usesDst .tencLast = true ∧
      overlapping.srcAddr.toNat ≤ 0xFFFFFFFF ∧ 0xFFFFFFFF < overlapping.srcAddr.toNat + overlapping.srcLen.toNat ∧
      overlapping.dstAddr.toNat ≤ 0xFFFFFFFF ∧ 0xFFFFFFFF < overlapping.dstAddr.toNat + overlapping.dstCap.toNat := by
  decide

theorem witness_OnlyTheirCommandsChangeTables : ∃ t, exec .nop State.reset = .next t := ⟨_, rfl⟩

theorem witness_OneShotChecksumsIgnoreTheStream :
    (∃ t, exec .xxhOneshot probed = .next t ∧ (t.errCode == .ok) = true) ∧
      (∃ t, exec .xxhCheckBlock probed = .next t ∧ (t.errCode == .blockChecksumInvalid) = true) ∧
      (∃ t, exec .fhPack (framed 0x405#32 7#32) = .next t ∧ (t.errCode == .ok) = true) ∧
      ∃ t, exec .fhParse (small header 0#32 0#32 0#32) = .next t ∧ (t.errCode == .ok) = true :=
  ⟨ends _ _ _ (by decide +kernel), ends _ _ _ (by decide +kernel), ends _ _ _ (by decide +kernel),
    ends _ _ _ (by decide +kernel)⟩

theorem witness_HmtProbeReadsThenUpdates :
    (probed.raced = [] ∧ probed.srcAddr.toNat + probed.srcLen.toNat ≤ 0x100000000 ∧
      probed.opA.toNat + 4 ≤ probed.srcLen.toNat ∧ ((probed.in32 2 * 2654435761#32) >>> 18).toNat = 1595 ∧
      (∀ j : Fin 16384, j.val = 1595 → probed.ht[j] = 0#32)) ∧
      0x100000000 < wrapping.srcAddr.toNat + wrapping.srcLen.toNat ∧
      (small (List.replicate 6 0x41#8) 0#32 3#32 0#32).srcLen.toNat < 3 + 4 := by
  refine ⟨⟨rfl, by decide, by decide, by decide +kernel, ?_⟩, by decide, by decide⟩
  intro j _
  simp [probed, small, zeroTable]

theorem witness_HmtReadGivesTheEntry :
    (small [] 0#32 16383#32 0#32).opA.toNat = (⟨16383, by decide⟩ : Fin 16384).val ∧
      16384 ≤ (small [] 0#32 16384#32 0#32).opA.toNat := by decide

/-- The block of four bytes is five: D of five holds it, D of four does not. -/
theorem witness_HmtCompressWritesTheBlock :
    ((small (List.replicate 4 0x41#8) 4#32 0#32 0#32).raced = [] ∧ (small (List.replicate 4 0x41#8) 4#32 0#32 0#32).regionsOk ∧ (small (List.replicate 4 0x41#8) 4#32 0#32 0#32).srcLen.toNat ≤ 0x7E000000 ∧
        (fast (fun _ i => (small (List.replicate 4 0x41#8) 4#32 0#32 0#32).inByte i) 4 (max 1 (min 65537 1))).out.length = 5) ∧
      ((small (List.replicate 4 0x41#8) 5#32 0#32 0#32).raced = [] ∧ (small (List.replicate 4 0x41#8) 5#32 0#32 0#32).regionsOk ∧ (small (List.replicate 4 0x41#8) 5#32 0#32 0#32).srcLen.toNat ≤ 0x7E000000 ∧
        (fast (fun _ i => (small (List.replicate 4 0x41#8) 5#32 0#32 0#32).inByte i) 4 (max 1 (min 65537 1))).out.length = 5) ∧
      ¬overlapping.regionsOk ∧ ¬wrapping.regionsOk ∧ (wide 0x7E000001#32).regionsOk ∧
      0x7E000000 < (wide 0x7E000001#32).srcLen.toNat := by
  unfold State.regionsOk; decide +kernel

theorem witness_HmtBoundGivesTheBound :
    (small [] 0#32 0x7E000000#32 0#32).opA.toNat ≤ 0x7E000000 ∧
      0x7E000000 < (small [] 0#32 0x7E000001#32 0#32).opA.toNat := by decide

theorem witness_TencSeqWritesOneSequence :
    ((small [0x41#8] 4#32 4#32 65535#32).raced = [] ∧ (small [0x41#8] 4#32 4#32 65535#32).regionsOk ∧
      (small [0x41#8] 4#32 4#32 65535#32).srcLen.toNat ≤ 0x7E000000 ∧
      (seqBytes ((small [0x41#8] 4#32 4#32 65535#32).inBytes 0 1) 4 65535).length ≤ 4) ∧
      ¬overlapping.regionsOk ∧ (small [0x41#8] 3#32 3#32 0#32).regionsOk ∧
      ((small [0x41#8] 3#32 3#32 0#32).opA.toNat < 4 ∧ (small [0x41#8] 3#32 3#32 0#32).opB.toNat = 0) ∧
      ((small [0x41#8] 3#32 0x7E000005#32 65536#32).regionsOk ∧
        0x7E000004 < (small [0x41#8] 3#32 0x7E000005#32 65536#32).opA.toNat ∧
        65535 < (small [0x41#8] 3#32 0x7E000005#32 65536#32).opB.toNat) ∧
      ((wide 0x7E000001#32).regionsOk ∧ 4 ≤ (wide 0x7E000001#32).opA.toNat ∧
        0x7E000000 < (wide 0x7E000001#32).srcLen.toNat) ∧
      (small [0x41#8] 3#32 4#32 1#32).dstCap.toNat < seqSize 1 4 := by
  unfold State.regionsOk; decide +kernel

theorem witness_TencLastWritesTheFinalSequence :
    ((small [0x41#8] 2#32 0#32 0#32).raced = [] ∧ (small [0x41#8] 2#32 0#32 0#32).regionsOk ∧
      (lastBytes ((small [0x41#8] 2#32 0#32 0#32).inBytes 0 1)).length ≤ 2) ∧
      ¬wrapping.regionsOk ∧ ((wide 0x7E000001#32).regionsOk ∧ 0x7E000000 < (wide 0x7E000001#32).srcLen.toNat) ∧
      (small [] 0#32 0#32 0#32).regionsOk ∧ (small [] 0#32 0#32 0#32).dstCap.toNat < lastSize 0 := by
  unfold State.regionsOk; decide +kernel

theorem witness_FhPackWritesTheHeader :
    ((framed 0x405#32 7#32).raced = [] ∧ (framed 0x405#32 7#32).dstOk ∧
      4 ≤ (framed 0x405#32 7#32).fiCfg.bsid.toNat ∧
      (packHeader (framed 0x405#32 7#32).fiCfg 0#64 0#32).length ≤ (framed 0x405#32 7#32).dstCap.toNat) ∧
      ¬wrapping.dstOk ∧ ((framed 0x305#32 7#32).dstOk ∧ (framed 0x305#32 7#32).fiCfg.bsid.toNat < 4) ∧
      4 ≤ (framed 0x405#32 6#32).fiCfg.bsid.toNat ∧
      (framed 0x405#32 6#32).dstCap.toNat < (packHeader (framed 0x405#32 6#32).fiCfg 0#64 0#32).length := by
  unfold State.dstOk; decide +kernel

theorem witness_FhParseAcceptsARegularHeader :
    (headed 0x64#8 0x40#8 0xA7#8).raced = [] ∧ (headed 0x64#8 0x40#8 0xA7#8).srcOk ∧
      7 ≤ (headed 0x64#8 0x40#8 0xA7#8).srcLen.toNat ∧ (headed 0x64#8 0x40#8 0xA7#8).in32 0 = 0x184D2204#32 ∧
      (0x64#8 : Byte).extractLsb' 6 2 = 0b01#2 ∧ (0x64#8 : Byte).getLsbD 1 = false ∧ (0x40#8 : Byte).getLsbD 7 = false ∧
      (0x40#8 : Byte).extractLsb' 0 4 = 0#4 ∧ 4 ≤ ((0x40#8 : Byte).extractLsb' 4 3).toNat ∧
      (0xA7#8 : Byte) = (xxh32 ((headed 0x64#8 0x40#8 0xA7#8).inBytes 4 6) 0#32).extractLsb' 8 8 := by
  unfold State.srcOk; decide +kernel

theorem witness_FhParseAcceptsASkippableFrame :
    (small skipped 0#32 0#32 0#32).raced = [] ∧ (small skipped 0#32 0#32 0#32).srcOk ∧
      8 ≤ (small skipped 0#32 0#32 0#32).srcLen.toNat ∧
      0x184D2A50 ≤ ((small skipped 0#32 0#32 0#32).in32 0).toNat ∧
      ((small skipped 0#32 0#32 0#32).in32 0).toNat ≤ 0x184D2A5F := by
  unfold State.srcOk; decide +kernel

/-- Every one of the cases has a header that meets it: too short for a magic, a short skippable frame, a wrong magic just
outside the skippable range, a short regular frame, and each wrong field. -/
theorem witness_FhParseReportsTheFirstFailingCheck :
    (small (header.take 3) 0#32 0#32 0#32).srcLen.toNat < 4 ∧
      ((small (skipped.take 7) 0#32 0#32 0#32).srcLen.toNat < 8 ∧
        ((small (skipped.take 7) 0#32 0#32 0#32).in32 0).toNat = 0x184D2A50) ∧
      ((small [0x60#8, 0x2A#8, 0x4D#8, 0x18#8] 0#32 0#32 0#32).in32 0).toNat = 0x184D2A60 ∧
      ((small (header.take 6) 0#32 0#32 0#32).srcLen.toNat < 7 ∧
        (small (header.take 6) 0#32 0#32 0#32).in32 0 = 0x184D2204#32) ∧
      ((headed 0x24#8 0x40#8 0#8).raced = [] ∧ (headed 0x24#8 0x40#8 0#8).srcOk ∧
        (headed 0x24#8 0x40#8 0#8).in32 0 = 0x184D2204#32 ∧ 7 ≤ (headed 0x24#8 0x40#8 0#8).srcLen.toNat ∧
        ((headed 0x24#8 0x40#8 0#8).inByte 4).extractLsb' 6 2 ≠ 0b01#2) ∧
      ((headed 0x66#8 0x40#8 0#8).inByte 4).getLsbD 1 = true ∧ ((headed 0x64#8 0xC0#8 0#8).inByte 5).getLsbD 7 = true ∧
      ((headed 0x64#8 0x41#8 0#8).inByte 5).extractLsb' 0 4 ≠ 0#4 ∧
      (((headed 0x64#8 0x30#8 0#8).inByte 5).extractLsb' 4 3).toNat < 4 ∧
      ((headed 0x68#8 0x40#8 0#8).inByte 4).getLsbD 3 = true ∧
      (headed 0x64#8 0x40#8 0xA6#8).inByte 6 ≠
        (xxh32 ((headed 0x64#8 0x40#8 0xA6#8).inBytes 4 6) 0#32).extractLsb' 8 8 := by
  unfold State.srcOk; decide +kernel

theorem witness_FhSizeGivesTheHeaderSize :
    ¬wrapping.srcOk ∧
      ((small (header.take 5) 0#32 0#32 0#32).raced = [] ∧ (small (header.take 5) 0#32 0#32 0#32).srcOk ∧
        5 ≤ (small (header.take 5) 0#32 0#32 0#32).srcLen.toNat ∧
        (small (header.take 5) 0#32 0#32 0#32).in32 0 = 0x184D2204#32) ∧
      ((small (skipped.take 4) 0#32 0#32 0#32).srcLen.toNat = 4 ∧
        ((small (skipped.take 4) 0#32 0#32 0#32).in32 0).toNat = 0x184D2A50) ∧
      (small (header.take 3) 0#32 0#32 0#32).srcLen.toNat < 4 ∧
      ((small (header.take 4) 0#32 0#32 0#32).srcLen.toNat = 4 ∧
        (small (header.take 4) 0#32 0#32 0#32).in32 0 = 0x184D2204#32) ∧
      ((small [0x4F#8, 0x2A#8, 0x4D#8, 0x18#8] 0#32 0#32 0#32).in32 0).toNat = 0x184D2A4F := by
  unfold State.srcOk; decide +kernel

theorem witness_BhPackWritesTheBlockWord :
    ¬wrapping.dstOk ∧ ((small [] 4#32 1#32 1#32).dstOk ∧ (small [] 4#32 1#32 1#32).raced = [] ∧
      1 ≤ (small [] 4#32 1#32 1#32).opB.toNat ∧ 4 ≤ (small [] 4#32 1#32 1#32).dstCap.toNat) ∧
      (small [] 4#32 0#32 5#32).opA.toNat = 0 ∧ 0x7FFFFFFF < (small [] 4#32 0x80000000#32 0x80000000#32).opB.toNat ∧
      ((small [] 3#32 0x7FFFFFFF#32 0x80000000#32).opA.toNat ≤ 0x7FFFFFFF ∧
        (small [] 3#32 0x7FFFFFFF#32 0x80000000#32).dstCap.toNat < 4) := by
  unfold State.dstOk; decide +kernel

theorem witness_BhEndWritesTheEndMarker :
    ¬wrapping.dstOk ∧ ((small [] 4#32 0#32 0#32).dstOk ∧ (small [] 4#32 0#32 0#32).raced = [] ∧
      4 ≤ (small [] 4#32 0#32 0#32).dstCap.toNat) ∧ (small [] 3#32 0#32 0#32).dstCap.toNat < 4 := by
  unfold State.dstOk; decide +kernel

theorem witness_BhParseReadsTheBlockWord :
    ¬wrapping.srcOk ∧ ((small (List.replicate 4 1#8) 0#32 0#32 0#32).srcOk ∧
      (small (List.replicate 4 1#8) 0#32 0#32 0#32).raced = [] ∧
      4 ≤ (small (List.replicate 4 1#8) 0#32 0#32 0#32).srcLen.toNat) ∧
      (small (List.replicate 3 1#8) 0#32 0#32 0#32).srcLen.toNat < 4 := by
  unfold State.srcOk; decide +kernel

theorem witness_XxhUpdateFeedsTheStream :
    ¬wrapping.srcOk ∧ (small [1#8] 0#32 0#32 0#32).raced = [] ∧ (small [1#8] 0#32 0#32 0#32).srcOk ∧
      ((small [] 0#32 0#32 0#32).srcLen = 0#32 ∧ (small [] 0#32 0#32 0#32).xs.buf.length < 16) := by
  unfold State.srcOk; decide +kernel

theorem witness_XxhOneshotChecksTheSource :
    ¬wrapping.srcOk ∧ (small [1#8] 0#32 0#32 0#32).raced = [] ∧ (small [1#8] 0#32 0#32 0#32).srcOk := by
  unfold State.srcOk; decide +kernel

theorem witness_XxhCheckBlockComparesWithOpa :
    ¬wrapping.srcOk ∧ ((small (List.replicate 4 0x41#8) 0#32 0x02B6A9F5#32 0#32).raced = [] ∧
      (small (List.replicate 4 0x41#8) 0#32 0x02B6A9F5#32 0#32).srcOk ∧
      xxh32 ((small (List.replicate 4 0x41#8) 0#32 0x02B6A9F5#32 0#32).inBytes 0 4) 0#32 = 0x02B6A9F5#32) ∧
      xxh32 ((small (List.replicate 4 0x41#8) 0#32 0x02B6A9F4#32 0#32).inBytes 0 4) 0#32 ≠ 0x02B6A9F4#32 := by
  unfold State.srcOk; decide +kernel

theorem witness_XxhCheckContentComparesWithOpa :
    (small [] 0#32 0x02CC5D05#32 0#32).xs.digest = (small [] 0#32 0x02CC5D05#32 0#32).opA ∧
      (small [] 0#32 0#32 0#32).xs.digest ≠ (small [] 0#32 0#32 0#32).opA := by decide +kernel

theorem witness_StreamDigestIsTheOneShotChecksum :
    ([List.replicate 9 1#8, [], List.replicate 8 2#8] : List (List Byte)).flatten.length = 17 ∧ 17 < 2 ^ 64 := by decide

/-- The longest input and the largest acceleration. -/
theorem witness_CompressedBlockDecodesToItsInput : 0x7E000000 ≤ 0x7E000000 ∧ 1 ≤ 65537 := by decide

theorem witness_CompressedBlockIsWithinTheBound : 0x7E000000 ≤ 0x7E000000 ∧ 1 ≤ 65537 := by decide

theorem witness_CompressorLoopsRunToTheirOwnEnd : 64 ≤ 1 * 64 ∧ 1 ≤ 1 := by decide

/-- Twenty equal bytes (V-HC-5): the match that starts at 2 with candidate 1 ends at 15. -/
theorem witness_MatchExtensionIsTheLongest : 2 + 4 + 5 ≤ 20 ∧ extend (fun _ _ => 0x41#8) 20 20 (2 + 4) (1 + 4) = 15 := by
  decide +kernel

theorem witness_ExtendedLengthsReadBack : 15 ≤ 15 ∧ extBytes 15 = [0#8] ∧ extBytes 270 = [0xFF#8, 0#8] := by
  decide +kernel

theorem witness_SequencesAreLaidOutAsTheRulesSay : 4 ≤ 4 ∧ seqBytes [] 4 1 = [0#8, 1#8, 0#8] := by decide +kernel

theorem witness_PackedHeaderIsLaidOutAsTheRulesSay :
    packFlg (framed 0x405#32 7#32).fiCfg 0#64 0#32 = 0x64#8 ∧ packBd (framed 0x405#32 7#32).fiCfg.bsid = 0x40#8 ∧
      packHeader (framed 0x405#32 7#32).fiCfg 0#64 0#32 = header := by decide +kernel

theorem witness_PackedHeaderParsesBack :
    4 ≤ (framed 0x405#32 7#32).fiCfg.bsid.toNat ∧ header = packHeader (framed 0x405#32 7#32).fiCfg 0#64 0#32 := by
  decide +kernel

theorem witness_RegistersReadAsTheMapSays : 0x60 ≤ (0x60#8 : BitVec 8).toNat ∧ 0x60 ≤ (0xFF#8 : BitVec 8).toNat := by
  decide

theorem witness_IdleRegisterWritesStoreTheBitsWritten :
    (hostNext State.reset (.write 32 (regOffset .fiCfg) 0xFFFFFFFF#32)).busyCmd = none ∧
      (hostNext State.reset (.write 32 (regOffset .fiCfg) 0xFFFFFFFF#32)).agenda =
        [.host (.write 32 (regOffset .fiCfg) 0xFFFFFFFF#32)] ∧ isOperandReg .fiCfg = true := by decide

theorem witness_ReadOnlyAndReservedOffsetsIgnoreWrites :
    (hostNext State.reset (.write 32 0x60#8 1#32)).agenda = [.host (.write 32 0x60#8 1#32)] ∧
      (0x60#8 : BitVec 8).toNat % 4 = 0 ∧ 0x60 ≤ (0x60#8 : BitVec 8).toNat ∧
      (0x5C#8 : BitVec 8) = regOffset .fiMagic ∧ (0x3C#8 : BitVec 8).toNat % 4 = 0 := by decide

theorem witness_BusyOperandWriteIsAHostFault :
    (hostNext (running 0#32) (.write 32 (regOffset .opA) 1#32)).busyCmd = some 0#32 ∧
      (hostNext (running 0#32) (.write 32 (regOffset .opA) 1#32)).agenda = [.host (.write 32 (regOffset .opA) 1#32)] ∧
      isOperandReg .opA = true := by decide

theorem witness_StatusAndControlWritesActAtAnyTime :
    (hostNext State.reset (.write 32 0x08#8 0xA#32)).agenda = [.host (.write 32 0x08#8 0xA#32)] ∧
      (hostNext State.reset (.write 32 0x04#8 1#32)).agenda = [.host (.write 32 0x04#8 1#32)] ∧
      (1#32 : Word).getLsbD 1 = false := by decide

theorem witness_UndefinedAccessesAreRefused :
    (hostNext State.reset (.write 16 0x0C#8 0#32)).agenda = [.host (.write 16 0x0C#8 0#32)] ∧
      (hostNext State.reset (.read 32 0x01#8)).agenda = [.host (.read 32 0x01#8)] ∧ (0x01#8 : BitVec 8).toNat % 4 ≠ 0 ∧
      ({ running 0x14#32 with agenda := [.busError] } : State).busyCmd ≠ none := by decide

theorem witness_RegisterReadsChangeNothing :
    (hostNext (running 0x14#32) (.read 32 (regOffset .r0))).agenda = [.host (.read 32 (regOffset .r0))] := by decide

/-- A word in flight that is no command (0x16), and one that is a command without a D (0x43), meet the clause about memory. -/
theorem witness_SoftResetRestoresTheRegisters :
    (hostNext (running 0x14#32) (.write 32 0x04#8 2#32)).agenda = [.host (.write 32 0x04#8 2#32)] ∧
      (2#32 : Word).getLsbD 1 = true ∧ (hostNext State.reset (.write 32 0x04#8 2#32)).busyCmd = none ∧
      (∀ i : Instr, (hostNext (running 0x16#32) (.write 32 0x04#8 2#32)).busyCmd = some (encode i) →
        usesDst i = false) ∧
      ∀ i : Instr, (hostNext (running 0x43#32) (.write 32 0x04#8 2#32)).busyCmd = some (encode i) →
        usesDst i = false := by
  refine ⟨by decide, by decide, by decide, ?_, ?_⟩ <;> intro i <;> cases i <;> decide

theorem witness_HardwareResetRestoresTheRegisters :
    ({ running 0x14#32 with agenda := [.hardReset] } : State).agenda = [.hardReset] ∧
      (∀ i : Instr, ({ running 0x16#32 with agenda := [.hardReset] } : State).busyCmd = some (encode i) →
        usesDst i = false) ∧
      ∀ i : Instr, ({ State.reset with agenda := [.hardReset] } : State).busyCmd = some (encode i) →
        usesDst i = false := by
  refine ⟨by decide, ?_, ?_⟩ <;> intro i <;> cases i <;> decide

/-- A byte of S the host has overwritten while a command runs, and each of the host's accesses during one. -/
theorem witness_RacesAnswerOnlyTheRacingValues :
    ((running 0x43#32).hostStore 0x1000 1#8).raced = [(0x1000, 0#8)] ∧ (running 0x43#32).raced = [] ∧
      State.reset.busyCmd = none ∧
      (hostNext (running 0x43#32) (.storeByte 0xFFFFFFFF#32 1#8)).busyCmd = some 0x43#32 ∧
      (hostNext (running 0x43#32) (.storeByte 0xFFFFFFFF#32 1#8)).agenda = [.host (.storeByte 0xFFFFFFFF#32 1#8)] ∧
      (hostNext (running 0x43#32) (.loadByte 0#32)).agenda = [.host (.loadByte 0#32)] ∧
      (hostNext (running 0x43#32) (.copyByte 0#32 0#32)).agenda = [.host (.copyByte 0#32 0#32)] ∧
      (glimpsed.glimpseLegal = true ∧ glimpsed.busyCmd ≠ none ∧ glimpsed.agenda = [] ∧ (∃ t, step glimpsed = .next t) ∧
        (0x2000, 0x10#8) ∈ glimpsed.seen ∧ glimpsed.raced = []) := by
  refine ⟨by decide, by decide, by decide, by decide, by decide, by decide, by decide, ?_⟩
  exact ⟨by decide +kernel, by decide, by decide, afterStep_next test_glimpsed_ends, by decide, rfl⟩

theorem witness_HostMemoryAccessesSeeTheLatestBytes :
    State.reset.busyCmd = none ∧
      (hostNext State.reset (.storeByte 0xFFFFFFFF#32 1#8)).agenda = [.host (.storeByte 0xFFFFFFFF#32 1#8)] ∧
      (hostNext State.reset (.loadByte 0#32)).agenda = [.host (.loadByte 0#32)] ∧
      (hostNext State.reset (.copyByte 1#32 0#32)).agenda = [.host (.copyByte 1#32 0#32)] := by decide

end Sys2Proof.Tests
end

section
/-! SUPPORT. What a command's own rule does to the engine before it reports, said once for every command, and what follows
for the tables: only the commands of 10_state.md R41, R42 and R24 change `HT`, `XS` and the frame-info registers. -/

namespace Sys2Proof.Machine

/-- What the rule of a command does to the state before the command reports its end: one constructor per way in which a
rule changes anything but `STATUS` and the results. -/
inductive RuleEffect : Instr → State → State → Prop
  /-- the command only reports -/
  | reports (i : Instr) (s : State) : RuleEffect i s s
  /-- the command stores bytes in D -/
  | stores {i : Instr} (s : State) (bs : List Byte) (hi : usesDst i = true) : RuleEffect i s (s.writeDst bs)
  /-- `HMT_CLEAR` and `HMT_PROBE` set the table (41_hash_match.md R140, R142) -/
  | setsTable {i : Instr} (s : State) (ht : HashTable) (hi : i = .hmtClear ∨ i = .hmtProbe) :
    RuleEffect i s { s with ht := ht }
  /-- `HMT_COMPRESS` stores its block and sets the table (41_hash_match.md R144) -/
  | compresses (s : State) (b : Block) : RuleEffect .hmtCompress s { s.writeDst b.out with ht := b.ht }
  /-- `HMT_COMPRESS` runs out of room (41_hash_match.md R137) -/
  | discards (s : State) : RuleEffect .hmtCompress s s.discardBlock
  /-- `XXH_INIT` and `XXH_UPDATE` set the stream (44_xxh32.md R240, R241) -/
  | setsStream {i : Instr} (s : State) (xs : Stream) (hi : i = .xxhInit ∨ i = .xxhUpdate) :
    RuleEffect i s { s with xs := xs }
  /-- `FH_PACK` stores a header and records it (43_frame_header.md R200) -/
  | packs (s : State) (bs : List Byte) (flg bd hc : Byte) (size : Nat) (max : Word) :
    RuleEffect .fhPack s ((s.writeDst bs).recordPacked flg bd hc size max)
  /-- `FH_PARSE` records a header (43_frame_header.md R201) -/
  | parses (s : State) (p : Parsed) : RuleEffect .fhParse s (s.recordParsed p)

/-- The command ends (40_control.md R102), after an effect that is one of its own. -/
def EndsAfterEffect (i : Instr) (s : State) (r : Result) : Prop :=
  ∃ u code a b c, RuleEffect i s u ∧ r = .next (u.finish code a b c)

theorem RuleEffect.complete {i : Instr} {s u : State} (h : RuleEffect i s u) (a b c : Word) :
    EndsAfterEffect i s (u.complete a b c) :=
  ⟨u, .ok, a, b, c, h, rfl⟩

theorem RuleEffect.raise {i : Instr} {s u : State} (h : RuleEffect i s u) (e : StatusCode) :
    EndsAfterEffect i s (u.raise e) :=
  ⟨u, e, 0#32, 0#32, 0#32, h, rfl⟩

theorem withSrc_endsAfterEffect {i : Instr} {s : State} {body : Result} (h : EndsAfterEffect i s body) :
    EndsAfterEffect i s (withSrc s body) := by
  rcases withSrc_cases s body with ⟨-, hb⟩ | ⟨-, hb⟩ <;> rw [hb]
  · exact h
  · exact (RuleEffect.reports i s).raise .badOperand

theorem withDst_endsAfterEffect {i : Instr} {s : State} {body : Result} (h : EndsAfterEffect i s body) :
    EndsAfterEffect i s (withDst s body) := by
  rcases withDst_cases s body with ⟨-, hb⟩ | ⟨-, hb⟩ <;> rw [hb]
  · exact h
  · exact (RuleEffect.reports i s).raise .badOperand

theorem withSrcDst_endsAfterEffect {i : Instr} {s : State} {body : Result} (h : EndsAfterEffect i s body) :
    EndsAfterEffect i s (withSrcDst s body) := by
  rcases withSrcDst_cases s body with ⟨-, hb⟩ | ⟨-, hb⟩ <;> rw [hb]
  · exact h
  · exact (RuleEffect.reports i s).raise .badOperand

theorem emitSequence_endsAfterEffect {i : Instr} (s : State) (bs : List Byte) (hi : usesDst i = true) :
    EndsAfterEffect i s (s.emitSequence bs) := by
  rcases s.emitSequence_cases bs with ⟨-, h⟩ | ⟨-, h⟩ <;> rw [h]
  · exact (RuleEffect.reports i s).raise .outputTooSmall
  · exact (RuleEffect.stores s bs hi).complete _ _ _

/-- Every command ends, in every state, after an effect that is one of its own. -/
theorem exec_endsAfterEffect (i : Instr) (s : State) : EndsAfterEffect i s (exec i s) := by
  have same : RuleEffect i s s := .reports i s
  cases i
  case nop => exact same.complete _ _ _
  case hmtClear => exact (RuleEffect.setsTable s _ (.inl rfl)).complete _ _ _
  case hmtHash => exact same.complete _ _ _
  case hmtProbe =>
    refine withSrc_endsAfterEffect ?_
    split
    · exact same.raise _
    · exact (RuleEffect.setsTable s _ (.inr rfl)).complete _ _ _
  case hmtRead =>
    simp only [exec, execHmtRead]
    split
    · exact same.complete _ _ _
    · exact same.raise _
  case hmtCompress =>
    refine withSrcDst_endsAfterEffect ?_
    split
    · exact same.raise _
    · dsimp only
      split
      · exact (RuleEffect.discards s).raise _
      · exact (RuleEffect.compresses s _).complete _ _ _
  case hmtBound =>
    simp only [exec, execHmtBound]
    split
    · exact same.raise _
    · exact same.complete _ _ _
  case tencSeq =>
    refine withSrcDst_endsAfterEffect ?_
    split
    · exact same.raise _
    split
    · exact same.raise _
    split
    · exact same.raise _
    · exact emitSequence_endsAfterEffect s _ rfl
  case tencLast =>
    refine withSrcDst_endsAfterEffect ?_
    split
    · exact same.raise _
    · exact emitSequence_endsAfterEffect s _ rfl
  case fhPack =>
    refine withDst_endsAfterEffect ?_
    split
    · exact same.raise _
    · dsimp only
      split
      · exact same.raise _
      · exact (RuleEffect.packs s _ _ _ _ _ _).complete _ _ _
  case fhParse =>
    refine withSrc_endsAfterEffect ?_
    split
    · exact same.raise _
    · exact (RuleEffect.parses s _).complete _ _ _
    · exact (RuleEffect.parses s _).complete _ _ _
  case fhSize =>
    refine withSrc_endsAfterEffect ?_
    split
    · exact same.raise _
    dsimp only
    split
    · exact same.complete _ _ _
    split
    · exact same.raise _
    split
    · exact same.raise _
    · exact same.complete _ _ _
  case bhPack =>
    refine withDst_endsAfterEffect ?_
    split
    · exact same.raise _
    split
    · exact same.raise _
    · exact (RuleEffect.stores s _ rfl).complete _ _ _
  case bhEnd =>
    refine withDst_endsAfterEffect ?_
    split
    · exact same.raise _
    · exact (RuleEffect.stores s _ rfl).complete _ _ _
  case bhParse =>
    refine withSrc_endsAfterEffect ?_
    split
    · exact same.raise _
    · exact same.complete _ _ _
  case xxhInit => exact (RuleEffect.setsStream s _ (.inl rfl)).complete _ _ _
  case xxhUpdate => exact withSrc_endsAfterEffect ((RuleEffect.setsStream s _ (.inr rfl)).complete _ _ _)
  case xxhDigest => exact same.complete _ _ _
  case xxhOneshot => exact withSrc_endsAfterEffect (same.complete _ _ _)
  case xxhCheckBlock =>
    refine withSrc_endsAfterEffect ?_
    split
    · exact same.raise _
    · exact same.complete _ _ _
  case xxhCheckContent =>
    simp only [exec, execXxhCheckContent]
    split
    · exact same.raise _
    · exact same.complete _ _ _

/-- `HT` changes by `HMT_CLEAR`, `HMT_PROBE` and `HMT_COMPRESS` only (10_state.md R41). -/
theorem RuleEffect.ht_eq {i : Instr} {s u : State} (h : RuleEffect i s u) (hc : i ≠ .hmtClear) (hz : i ≠ .hmtCompress)
    (hp : i ≠ .hmtProbe) : u.ht = s.ht := by
  cases h with
  | setsTable _ _ hi => exact absurd hi (not_or.mpr ⟨hc, hp⟩)
  | compresses => exact absurd rfl hz
  | discards => exact absurd rfl hz
  | parses => simp
  | reports | stores | setsStream | packs => rfl

/-- `XS` changes by `XXH_INIT` and `XXH_UPDATE` only (10_state.md R42). -/
theorem RuleEffect.xs_eq {i : Instr} {s u : State} (h : RuleEffect i s u) (hi : i ≠ .xxhInit) (hu : i ≠ .xxhUpdate) :
    u.xs = s.xs := by
  cases h with
  | setsStream _ _ h => exact absurd h (not_or.mpr ⟨hi, hu⟩)
  | parses => simp
  | reports | stores | setsTable | compresses | discards | packs => rfl

/-- The frame-info registers change by `FH_PACK` and `FH_PARSE` only (10_state.md R24). -/
theorem RuleEffect.sameFrameInfo {i : Instr} {s u : State} (h : RuleEffect i s u) (hk : i ≠ .fhPack)
    (hp : i ≠ .fhParse) : sameFrameInfo s u := by
  cases h with
  | packs => exact absurd rfl hk
  | parses => exact absurd rfl hp
  | reports | stores | setsTable | compresses | discards | setsStream => exact ⟨rfl, rfl, rfl, rfl, rfl, rfl, rfl, rfl⟩

/-- Settles O16: completion itself touches none of the three, and of the effects a rule can have only those of the named
commands do. -/
theorem onlyTheirCommandsChangeTables : Obligations.OnlyTheirCommandsChangeTables := by
  intro i s t ht
  obtain ⟨u, code, a, b, c, hu, he⟩ := exec_endsAfterEffect i s
  obtain rfl : u.finish code a b c = t := by simpa [he] using ht
  exact ⟨hu.ht_eq, hu.xs_eq, hu.sameFrameInfo⟩

end Sys2Proof.Machine
end

section
/-! SUPPORT. The register port and the reset state: what a register reads as, what a host's write stores, and what the
turns of the register port do to the machine (10_state.md R21 to R45). -/

namespace Sys2Proof.Machine

/-! ## The register map -/

/-- The map gives each register back at its own offset (10_state.md R22). -/
@[simp] theorem regAt_regOffset (r : Reg) : regAt (regOffset r) = some r := by cases r <;> rfl

/-- The map lists nothing at `0x3C` and from `0x60` on (10_state.md R22). -/
theorem regAt_eq_none_of_reserved {off : BitVec 8} (h : off = 0x3C#8 ∨ 0x60 ≤ off.toNat) : regAt off = none := by
  rcases h with rfl | h
  · rfl
  · unfold regAt
    split
    case h_24 => rfl
    all_goals omega

theorem accessAligned_iff (off : BitVec 8) : accessAligned off = true ↔ off.toNat % 4 = 0 := by
  simp [accessAligned, BitVec.toNat_eq]

theorem accessAligned_regOffset (r : Reg) : accessAligned (regOffset r) = true := by cases r <;> rfl

theorem checkedAccess_defined {off : BitVec 8} (body : Result) (h : accessAligned off = true) :
    checkedAccess 32 off body = body := by
  simp [checkedAccess, accessWidthOk, h]

theorem checkedAccess_undefined {width : Nat} {off : BitVec 8} (body : Result) (h : width ≠ 32 ∨ off.toNat % 4 ≠ 0) :
    ∃ r, checkedAccess width off body = .refused r := by
  rcases checkedAccess_cases width off body with ⟨hw, ha, -⟩ | hr
  · rcases h with h | h
    · exact absurd (by simpa [accessWidthOk] using hw) h
    · exact absurd ((accessAligned_iff off).mp ha) h
  · exact hr

/-! ## What a read returns -/

/-- Joining two bit vectors adds the upper one, shifted past the lower. -/
theorem toNat_append_eq_add {m n : Nat} (x : BitVec m) (y : BitVec n) :
    (x ++ y).toNat = x.toNat * 2 ^ n + y.toNat := by
  rw [BitVec.toNat_append, ← Nat.shiftLeft_add_eq_or_of_lt y.isLt, Nat.shiftLeft_eq]

theorem StatusCode.number_eq_zero_iff (c : StatusCode) : c.number = 0#8 ↔ c = .ok := by cases c <;> decide

theorem State.err_toNat (s : State) : s.err.toNat = if s.errCode = .ok then 0 else 1 := by
  unfold State.err
  by_cases h : s.errCode = .ok
  · simp [h, StatusCode.number]
  · have hn : s.errCode.number ≠ 0#8 := fun hz => h ((StatusCode.number_eq_zero_iff _).mp hz)
    simp [h, hn]

theorem State.statusWord_toNat (s : State) :
    s.statusWord.toNat =
      s.busy.toNat + 2 * s.done.toNat + 4 * (if s.errCode = .ok then 0 else 1) + 8 * s.cmdRej.toNat +
        256 * s.errCode.number.toNat := by
  simp only [State.statusWord, toNat_append_eq_add, BitVec.toNat_ofBool, ← s.err_toNat, BitVec.toNat_ofNat]
  omega

theorem State.ctrlWord_toNat (s : State) : s.ctrlWord.toNat = s.ie.toNat := by
  simp only [State.ctrlWord, toNat_append_eq_add, BitVec.toNat_ofBool, BitVec.toNat_ofNat]
  omega

theorem FrameCfg.word_toNat (c : FrameCfg) :
    c.word.toNat =
      c.bindep.toNat + 2 * c.bchk.toNat + 4 * c.cchk.toNat + 8 * c.csizeP.toNat + 16 * c.dictIdP.toNat +
        256 * c.bsid.toNat + 4096 * c.ftype.toNat := by
  simp only [FrameCfg.word, toNat_append_eq_add, BitVec.toNat_ofBool, BitVec.toNat_ofNat]
  omega

@[simp] theorem State.readOffset_regOffset (s : State) (r : Reg) : s.readOffset (regOffset r) = s.readReg r := by
  simp [State.readOffset]

theorem State.readOffset_reserved (s : State) {off : BitVec 8} (h : off = 0x3C#8 ∨ 0x60 ≤ off.toNat) :
    s.readOffset off = 0#32 := by
  simp [State.readOffset, regAt_eq_none_of_reserved h]

/-- The turns to come are no register. -/
@[simp] theorem State.readReg_agenda (s : State) (rest : List Turn) (r : Reg) :
    ({ s with agenda := rest } : State).readReg r = s.readReg r := by
  cases r <;> rfl

/-! ## What a host's write stores -/

/-- A write of `FI_CFG` replaces the RW bits, mask `0x707`, and keeps the RO bits, mask `0x1018` (10_state.md R23, R34). -/
theorem FrameCfg.word_write (c : FrameCfg) (v : Word) :
    (c.write v).word = (c.word &&& 0x1018#32) ||| (v &&& 0x707#32) := by
  apply BitVec.eq_of_getLsbD_eq
  intro i hi
  simp only [FrameCfg.write, FrameCfg.word, BitVec.getLsbD_or, BitVec.getLsbD_and, BitVec.getLsbD_append]
  interval_cases i <;> simp

theorem State.storeReg_of_not_operand (s : State) (v : Word) {r : Reg} (h : isOperandReg r = false) :
    s.storeReg v r = s := by
  cases r <;> cases h <;> rfl

theorem State.readReg_storeReg_self (s : State) (v : Word) {r : Reg} (h : isOperandReg r = true) :
    (s.storeReg v r).readReg r = if r = .fiCfg then (s.readReg r &&& 0x1018#32) ||| (v &&& 0x707#32) else v := by
  cases r <;> cases h
  case fiCfg.refl => exact s.fiCfg.word_write v
  all_goals rfl

/-- Storing a register leaves what every other register reads as. -/
theorem State.readReg_storeReg (s : State) (v : Word) (r r' : Reg) :
    (s.storeReg v r).readReg r' = if r' = r then (s.storeReg v r).readReg r else s.readReg r' := by
  cases r <;> cases r' <;> rfl

theorem State.readReg_storeReg_other (s : State) (v : Word) {r r' : Reg} (h : r' ≠ r) :
    (s.storeReg v r).readReg r' = s.readReg r' := by
  rw [s.readReg_storeReg v r r', if_neg h]

@[simp] theorem State.storeReg_busyCmd (s : State) (v : Word) (r : Reg) : (s.storeReg v r).busyCmd = s.busyCmd := by
  cases r <;> rfl
@[simp] theorem State.storeReg_ht (s : State) (v : Word) (r : Reg) : (s.storeReg v r).ht = s.ht := by
  cases r <;> rfl
@[simp] theorem State.storeReg_xs (s : State) (v : Word) (r : Reg) : (s.storeReg v r).xs = s.xs := by
  cases r <;> rfl
@[simp] theorem State.storeReg_mem (s : State) (v : Word) (r : Reg) : (s.storeReg v r).mem = s.mem := by
  cases r <;> rfl
@[simp] theorem State.storeReg_agenda (s : State) (v : Word) (r : Reg) : (s.storeReg v r).agenda = s.agenda := by
  cases r <;> rfl
@[simp] theorem State.storeReg_hostReads (s : State) (v : Word) (r : Reg) :
    (s.storeReg v r).hostReads = s.hostReads := by
  cases r <;> rfl

/-- A write to any register but `CTRL`, `STATUS` and `CMD` is a store, or a fault of the host (70_reset_and_hazards.md
R286). -/
theorem hostWriteReg_other (s : State) (v : Word) {r : Reg} (hctrl : r ≠ .ctrl) (hstatus : r ≠ .status)
    (hcmd : r ≠ .cmd) :
    hostWriteReg s r v =
      if s.busy && isOperandReg r then .fault (.operandWriteWhileBusy r) else .next (s.storeReg v r) := by
  unfold hostWriteReg
  split
  · exact absurd rfl hctrl
  · exact absurd rfl hstatus
  · exact absurd rfl hcmd
  · rfl

/-- A write to an operand register is a store when no command runs, and a fault of the host when one does. -/
theorem hostWriteReg_operand (s : State) (v : Word) {r : Reg} (hr : isOperandReg r = true) :
    hostWriteReg s r v = if s.busy then .fault (.operandWriteWhileBusy r) else .next (s.storeReg v r) := by
  rw [hostWriteReg_other s v (by rintro rfl; cases hr) (by rintro rfl; cases hr) (by rintro rfl; cases hr), hr,
    Bool.and_true]

theorem hostWriteReg_readOnly (s : State) (v : Word) {r : Reg} (hr : isOperandReg r = false) (hctrl : r ≠ .ctrl)
    (hstatus : r ≠ .status) (hcmd : r ≠ .cmd) : hostWriteReg s r v = .next s := by
  rw [hostWriteReg_other s v hctrl hstatus hcmd, hr, Bool.and_false, s.storeReg_of_not_operand v hr]
  rfl

/-- The read-only registers of 10_state.md R22 are no operands, nor any of the three registers a write acts on. -/
theorem isOperandReg_of_readOnly :
    ∀ r ∈ [Reg.id, .r0, .r1, .r2, .fiDesc, .fiBlockMax, .fiSkipLen, .fiMagic],
      isOperandReg r = false ∧ r ≠ .ctrl ∧ r ≠ .status ∧ r ≠ .cmd := by
  decide

theorem hostWriteReg_ctrl_of_not_srst (s : State) {v : Word} (h : v.getLsbD 1 = false) :
    hostWriteReg s .ctrl v = .next { s with ie := v.getLsbD 0 } := by
  rw [hostWriteReg, h]
  rfl

/-! ## The turns of the register port -/

theorem step_of_agenda {s : State} {t : Turn} {rest : List Turn} (h : s.agenda = t :: rest) :
    step s = takeTurn t { s with agenda := rest } := by
  simp [step, h]

theorem step_hostWrite {s : State} {width : Nat} {off : BitVec 8} {v : Word} {rest : List Turn}
    (h : s.agenda = .host (.write width off v) :: rest) : step s = hostWrite { s with agenda := rest } width off v :=
  step_of_agenda h

theorem step_hostRead {s : State} {width : Nat} {off : BitVec 8} {rest : List Turn}
    (h : s.agenda = .host (.read width off) :: rest) : step s = hostRead { s with agenda := rest } width off :=
  step_of_agenda h

theorem hostWrite_regOffset (s : State) (r : Reg) (v : Word) :
    hostWrite s 32 (regOffset r) v = hostWriteReg s r v := by
  simp [hostWrite, checkedAccess_defined _ (accessAligned_regOffset r)]

theorem hostWrite_reserved (s : State) {off : BitVec 8} (v : Word) (ha : off.toNat % 4 = 0)
    (h : off = 0x3C#8 ∨ 0x60 ≤ off.toNat) : hostWrite s 32 off v = .next s := by
  simp [hostWrite, checkedAccess_defined _ ((accessAligned_iff off).mpr ha), regAt_eq_none_of_reserved h]

theorem hostRead_regOffset (s : State) (r : Reg) :
    hostRead s 32 (regOffset r) =
      .next { s with hostReads := .reg (regOffset r) (s.readReg r) :: s.hostReads } := by
  simp [hostRead, checkedAccess_defined _ (accessAligned_regOffset r)]

/-! ## The obligations -/

/-- Settles O1, register by register; `XS` at reset is computed from the seed 0. -/
theorem resetLeavesTheListedValues : Obligations.ResetLeavesTheListedValues := by
  refine ⟨?_, rfl, rfl, rfl, by decide⟩
  intro r
  cases r <;> rfl

/-- Settles O2: each clause of the invariant is a closed fact about the reset values. -/
theorem resetMeetsInvariant : Obligations.ResetMeetsInvariant := by
  unfold Obligations.ResetMeetsInvariant
  decide

/-- Settles O50, field by field and offset by offset. -/
theorem registersReadAsTheMapSays : Obligations.RegistersReadAsTheMapSays := fun s =>
  ⟨s.statusWord_toNat, s.ctrlWord_toNat, s.fiCfg.word_toNat, Bool.and_eq_true_iff, s.readOffset_regOffset,
    fun _ h => s.readOffset_reserved h⟩

/-- Settles O51: the step is `storeReg`, whose rules say what it stores and what it keeps. -/
theorem idleRegisterWritesStoreTheBitsWritten : Obligations.IdleRegisterWritesStoreTheBitsWritten := by
  intro s r v rest hb ha hr
  refine ⟨({ s with agenda := rest } : State).storeReg v r, ?_, ?_, ?_, ?_⟩
  · have hidle : ({ s with agenda := rest } : State).busy = false := by simp [State.busy, hb]
    rw [step_hostWrite ha, hostWrite_regOffset, hostWriteReg_operand _ v hr, hidle]
    rfl
  · rw [State.readReg_storeReg_self _ v hr, State.readReg_agenda]
  · intro r' hne
    rw [State.readReg_storeReg_other _ v hne, State.readReg_agenda]
  · simp [hb]

/-- Settles O52: a reserved offset lists no register, and a read-only register is no operand. -/
theorem readOnlyAndReservedOffsetsIgnoreWrites : Obligations.ReadOnlyAndReservedOffsetsIgnoreWrites := by
  intro s off v rest ha hal h
  rw [step_hostWrite ha]
  rcases h with h | h | ⟨r, hr, rfl⟩
  · exact hostWrite_reserved _ v hal (.inl h)
  · exact hostWrite_reserved _ v hal (.inr h)
  · obtain ⟨ho, hctrl, hstatus, hcmd⟩ := isOperandReg_of_readOnly r hr
    rw [hostWrite_regOffset, hostWriteReg_readOnly _ v ho hctrl hstatus hcmd]

/-- Settles O54: both registers are writable at any time, and without `SRST` a write of `CTRL` is no reset. -/
theorem statusAndControlWritesActAtAnyTime : Obligations.StatusAndControlWritesActAtAnyTime := by
  intro s v rest
  refine ⟨fun ha => ?_, fun ha hv => ?_⟩
  · rw [step_hostWrite ha]
    exact hostWrite_regOffset _ .status v
  · rw [step_hostWrite ha]
    exact (hostWrite_regOffset _ .ctrl v).trans (hostWriteReg_ctrl_of_not_srst _ hv)

/-- Settles O55: the port checks width and alignment before anything else, and a bus error meets a busy engine. -/
theorem undefinedAccessesAreRefused : Obligations.UndefinedAccessesAreRefused := by
  intro s width off v rest
  refine ⟨fun ha hu => ?_, fun ha hb => ?_⟩
  · rcases ha with ha | ha
    · rw [step_hostWrite ha]
      exact checkedAccess_undefined _ hu
    · rw [step_hostRead ha]
      exact checkedAccess_undefined _ hu
  · have hbusy : s.busy = true := Option.isSome_iff_ne_none.mpr hb
    rw [step_of_agenda ha]
    exact if_pos hbusy

/-- Settles O56: a read only extends the record of reads, and the turns to come do not show in the value read. -/
theorem registerReadsChangeNothing : Obligations.RegisterReadsChangeNothing := by
  intro s r rest ha
  rw [step_hostRead ha, hostRead_regOffset, State.readReg_agenda]

end Sys2Proof.Machine
end

section
/-! SUPPORT. What a command does to memory, past the checks of its regions: which checks it makes first (20_memory.md R66,
R67), and that what it stores in D is what it reports (R68). -/

namespace Sys2Proof.Machine

/-! ## The checks of the regions -/

theorem exec_eq_withSrc {i : Instr} (s : State) (hs : usesSrc i = true) (hd : usesDst i = false) :
    ∃ body, exec i s = withSrc s body := by
  cases i <;> cases hs <;> cases hd <;> exact ⟨_, rfl⟩

theorem exec_eq_withDst {i : Instr} (s : State) (hs : usesSrc i = false) (hd : usesDst i = true) :
    ∃ body, exec i s = withDst s body := by
  cases i <;> cases hs <;> cases hd <;> exact ⟨_, rfl⟩

theorem exec_eq_withSrcDst {i : Instr} (s : State) (hs : usesSrc i = true) (hd : usesDst i = true) :
    ∃ body, exec i s = withSrcDst s body := by
  cases i <;> cases hs <;> cases hd <;> exact ⟨_, rfl⟩

theorem Region.valid_eq_false {r : Region} (h : 0x100000000 < r.base + r.len) : r.valid = false := by
  simpa [Region.valid] using h

theorem Region.overlaps_of_common {r q : Region} {a : Nat} (hr : r.base ≤ a) (hr' : a < r.base + r.len)
    (hq : q.base ≤ a) (hq' : a < q.base + q.len) : r.overlaps q = true :=
  (Region.overlaps_iff r q).mpr (by omega)

/-- An end that only reports a code changes nothing else. -/
theorem State.keepsAll_finish (s : State) (code : StatusCode) (a b c : Word) : keepsAll s (s.finish code a b c) := by
  simp [keepsAll, sameOperands, sameFrameInfo, sameHost, sameMemory]

theorem failsWith_of_exec_eq {i : Instr} {s : State} {code : StatusCode}
    (h : exec i s = .next (s.finish code 0#32 0#32 0#32)) : failsWith i s code :=
  ⟨_, h, ⟨rfl, rfl, rfl, rfl, rfl, rfl⟩, s.keepsAll_finish ..⟩

theorem failsWith_badOperand_of_src {i : Instr} {s : State} (hs : usesSrc i = true) (hv : s.src.valid = false) :
    failsWith i s .badOperand := by
  refine failsWith_of_exec_eq ?_
  cases hd : usesDst i with
  | false =>
    obtain ⟨body, hb⟩ := exec_eq_withSrc s hs hd
    simp [hb, withSrc, hv]
  | true =>
    obtain ⟨body, hb⟩ := exec_eq_withSrcDst s hs hd
    simp [hb, withSrcDst, hv]

theorem failsWith_badOperand_of_dst {i : Instr} {s : State} (hd : usesDst i = true) (hv : s.dst.valid = false) :
    failsWith i s .badOperand := by
  refine failsWith_of_exec_eq ?_
  cases hs : usesSrc i with
  | false =>
    obtain ⟨body, hb⟩ := exec_eq_withDst s hs hd
    simp [hb, withDst, hv]
  | true =>
    obtain ⟨body, hb⟩ := exec_eq_withSrcDst s hs hd
    simp [hb, withSrcDst, hv]

theorem failsWith_badOperand_of_overlap {i : Instr} {s : State} (hs : usesSrc i = true) (hd : usesDst i = true)
    (ho : s.src.overlaps s.dst = true) : failsWith i s .badOperand := by
  refine failsWith_of_exec_eq ?_
  obtain ⟨body, hb⟩ := exec_eq_withSrcDst s hs hd
  simp [hb, withSrcDst, ho]

/-- Settles O15: which regions a command uses says which of the three checks it makes before its own rule. -/
theorem badRegionsEndWithBadOperand : Obligations.BadRegionsEndWithBadOperand := by
  rintro i s (⟨hs, hw⟩ | ⟨hd, hw⟩ | ⟨hs, hd, a, hsrc, hsrc', hdst, hdst'⟩)
  · exact failsWith_badOperand_of_src hs (Region.valid_eq_false hw)
  · exact failsWith_badOperand_of_dst hd (Region.valid_eq_false hw)
  · exact failsWith_badOperand_of_overlap hs hd (Region.overlaps_of_common hsrc hsrc' hdst hdst')

/-! ## The store in D -/

/-- A result in which OK means that the bytes stored in D fit there and that `R0` is their number (20_memory.md R68). -/
def ReportsItsStore (s : State) (r : Result) : Prop :=
  ∀ t, r = .next t → t.errCode = .ok →
    ∃ bs, bs.length ≤ s.dstCap.toNat ∧ t.r0 = BitVec.ofNat 32 bs.length ∧ t.mem = (s.writeDst bs).mem

theorem ReportsItsStore.failed {s u : State} {e : StatusCode} (he : e ≠ .ok) : ReportsItsStore s (u.raise e) := by
  intro t ht hok
  cases ht
  exact absurd hok he

theorem ReportsItsStore.stored {s u : State} (bs : List Byte) (b c : Word) (hl : bs.length ≤ s.dstCap.toNat)
    (hu : u.mem = (s.writeDst bs).mem) : ReportsItsStore s (u.complete (BitVec.ofNat 32 bs.length) b c) := by
  intro t ht _
  cases ht
  exact ⟨bs, hl, rfl, hu⟩

theorem ReportsItsStore.withDst {s : State} {body : Result} (h : ReportsItsStore s body) :
    ReportsItsStore s (withDst s body) := by
  rcases withDst_cases s body with ⟨-, hb⟩ | ⟨-, hb⟩ <;> rw [hb]
  · exact h
  · exact .failed (by decide)

theorem ReportsItsStore.withSrcDst {s : State} {body : Result} (h : ReportsItsStore s body) :
    ReportsItsStore s (withSrcDst s body) := by
  rcases withSrcDst_cases s body with ⟨-, hb⟩ | ⟨-, hb⟩ <;> rw [hb]
  · exact h
  · exact .failed (by decide)

theorem emitSequence_reportsItsStore (s : State) (bs : List Byte) : ReportsItsStore s (s.emitSequence bs) := by
  rcases s.emitSequence_cases bs with ⟨-, h⟩ | ⟨hl, h⟩ <;> rw [h]
  · exact .failed (by decide)
  · exact .stored bs _ _ hl rfl

/-- Every command that uses D reports on OK how many bytes it stored there. -/
theorem exec_reportsItsStore {i : Instr} (s : State) (hi : usesDst i = true) : ReportsItsStore s (exec i s) := by
  cases i <;> cases hi
  case hmtCompress =>
    refine .withSrcDst ?_
    dsimp only
    split
    · exact .failed (by decide)
    split
    · exact .failed (by decide)
    · exact .stored _ _ _ (Nat.le_of_not_lt ‹_›) rfl
  case tencSeq =>
    refine .withSrcDst ?_
    split
    · exact .failed (by decide)
    split
    · exact .failed (by decide)
    split
    · exact .failed (by decide)
    · exact emitSequence_reportsItsStore s _
  case tencLast =>
    refine .withSrcDst ?_
    split
    · exact .failed (by decide)
    · exact emitSequence_reportsItsStore s _
  case fhPack =>
    refine .withDst ?_
    split
    · exact .failed (by decide)
    dsimp only
    split
    · exact .failed (by decide)
    · exact .stored _ _ _ (Nat.le_of_not_lt ‹_›) rfl
  case bhPack =>
    refine .withDst ?_
    split
    · exact .failed (by decide)
    split
    · exact .failed (by decide)
    · exact .stored (leBytes 4 _) _ _ (Nat.le_of_not_lt ‹_›) rfl
  case bhEnd =>
    refine .withDst ?_
    split
    · exact .failed (by decide)
    · exact .stored [0#8, 0#8, 0#8, 0#8] _ _ (Nat.le_of_not_lt ‹_›) rfl

theorem MemoryEffect.sameMemory {i : Instr} {s t : State} (h : MemoryEffect i s t) (hi : usesDst i = false) :
    sameMemory s t := by
  rcases h with ⟨-, hm⟩ | ⟨hd, -⟩
  · exact hm
  · simp [hi] at hd

theorem Region.contains_eq_false {r : Region} {a : Nat} (h : a < r.base ∨ r.base + r.len ≤ a) :
    r.contains a = false := by
  cases hc : r.contains a with
  | false => rfl
  | true =>
    simp only [Region.contains, Bool.and_eq_true, decide_eq_true_eq] at hc
    omega

theorem MemoryEffect.read_outside {i : Instr} {s t : State} (h : MemoryEffect i s t) {a : Nat}
    (ha : a < s.dstAddr.toNat ∨ s.dstAddr.toNat + s.dstCap.toNat ≤ a) : t.mem.read a = s.mem.read a := by
  rcases h with ⟨-, hm⟩ | ⟨-, -, hm⟩
  · exact hm a
  · exact hm a (Region.contains_eq_false ha)

/-- Settles O13: the frame is the command's effect on memory; on OK, what it stored is what it reports. -/
theorem commandsWriteOnlyTheDestination : Obligations.CommandsWriteOnlyTheDestination := by
  intro i s t ht
  have he := exec_effect i ht
  refine ⟨he.sameMemory, fun a ha => he.read_outside ha, fun hi hok => ?_⟩
  obtain ⟨bs, hl, hr, hm⟩ := exec_reportsItsStore s hi t ht hok
  have hlen : t.r0.toNat = bs.length := by
    rw [hr, BitVec.toNat_ofNat]
    exact Nat.mod_eq_of_lt (hl.trans_lt s.dstCap.isLt)
  rw [hlen]
  refine ⟨hl, fun a ha => ?_⟩
  rw [hm, State.writeDst_mem]
  exact s.engineWrites_read_outside bs _ _ a ha

end Sys2Proof.Machine
end

section
/-! SUPPORT. A command reads no byte outside S (20_memory.md R61): in two memories that agree on S it ends alike, but for
the bytes of memory it does not write. -/

namespace Sys2Proof.Machine

/-- The state with another memory. -/
def State.withMem (s : State) (m : Memory) : State := { s with mem := m }

@[simp] theorem State.withMem_srcLen (s : State) (m : Memory) : (s.withMem m).srcLen = s.srcLen := rfl
@[simp] theorem State.withMem_accel (s : State) (m : Memory) : (s.withMem m).accel = s.accel := rfl
@[simp] theorem State.withMem_opA (s : State) (m : Memory) : (s.withMem m).opA = s.opA := rfl
@[simp] theorem State.withMem_opB (s : State) (m : Memory) : (s.withMem m).opB = s.opB := rfl
@[simp] theorem State.withMem_fiCfg (s : State) (m : Memory) : (s.withMem m).fiCfg = s.fiCfg := rfl
@[simp] theorem State.withMem_ht (s : State) (m : Memory) : (s.withMem m).ht = s.ht := rfl

/-- Memories `n` and `n'` reached from `s.mem` and from `m`: every byte is equal in both or unchanged in both. -/
def MemoriesAgree (s : State) (m n n' : Memory) : Prop :=
  ∀ a, n'.read a = n.read a ∨ (n'.read a = m.read a ∧ n.read a = s.mem.read a)

/-- Both results are ends of the command, in states that differ at most in the memories reached from `s.mem` and `m`. -/
def EndsAlikeButMemory (s : State) (m : Memory) (r r' : Result) : Prop :=
  ∃ t n', r = .next t ∧ r' = .next (t.withMem n') ∧ MemoriesAgree s m t.mem n'

section
variable {s : State} {m : Memory}

theorem MemoriesAgree.unchanged : MemoriesAgree s m s.mem m := fun _ => .inr ⟨rfl, rfl⟩

theorem MemoriesAgree.stored (bs : List Byte) :
    MemoriesAgree s m (s.writeDst bs).mem ((s.withMem m).writeDst bs).mem :=
  fun a => s.engineWrites_agree (s.withMem m) rfl rfl bs s.mem m s.dstAddr.toNat a

theorem MemoriesAgree.discarded : MemoriesAgree s m s.discardBlock.mem (s.withMem m).discardBlock.mem :=
  fun a => Memory.freeFill_agree s.mem m s.draws s.dst.base s.dst.len a

theorem MemoriesAgree.finish {u : State} {n' : Memory} (h : MemoriesAgree s m u.mem n') (code : StatusCode)
    (a b c : Word) :
    EndsAlikeButMemory s m (.next (u.finish code a b c)) (.next ((u.withMem n').finish code a b c)) :=
  ⟨_, n', rfl, rfl, h⟩

/-- The command only reports, or changes tables and registers only. -/
theorem EndsAlikeButMemory.kept {u : State} (hu : u.mem = s.mem) (code : StatusCode) (a b c : Word) :
    EndsAlikeButMemory s m (.next (u.finish code a b c)) (.next ((u.withMem m).finish code a b c)) :=
  MemoriesAgree.finish (by rw [hu]; exact .unchanged) code a b c

theorem EndsAlikeButMemory.raise (e : StatusCode) : EndsAlikeButMemory s m (s.raise e) ((s.withMem m).raise e) :=
  .kept rfl e _ _ _

theorem EndsAlikeButMemory.complete (a b c : Word) :
    EndsAlikeButMemory s m (s.complete a b c) ((s.withMem m).complete a b c) :=
  .kept rfl .ok a b c

theorem EndsAlikeButMemory.dite {p : Prop} [Decidable p] {r₁ r₁' : p → Result} {r₂ r₂' : ¬p → Result}
    (h₁ : ∀ hp, EndsAlikeButMemory s m (r₁ hp) (r₁' hp)) (h₂ : ∀ hp, EndsAlikeButMemory s m (r₂ hp) (r₂' hp)) :
    EndsAlikeButMemory s m (if hp : p then r₁ hp else r₂ hp) (if hp : p then r₁' hp else r₂' hp) := by
  by_cases hp : p
  · simpa only [dif_pos hp] using h₁ hp
  · simpa only [dif_neg hp] using h₂ hp

theorem EndsAlikeButMemory.ite {p : Prop} [Decidable p] {r₁ r₂ r₁' r₂' : Result}
    (h₁ : p → EndsAlikeButMemory s m r₁ r₁') (h₂ : ¬p → EndsAlikeButMemory s m r₂ r₂') :
    EndsAlikeButMemory s m (if p then r₁ else r₂) (if p then r₁' else r₂') := by
  simpa only [dite_eq_ite] using EndsAlikeButMemory.dite h₁ h₂

theorem EndsAlikeButMemory.withSrc {r r' : Result} (h : EndsAlikeButMemory s m r r') :
    EndsAlikeButMemory s m (withSrc s r) (withSrc (s.withMem m) r') :=
  .ite (fun _ => h) fun _ => .raise _

theorem EndsAlikeButMemory.withDst {r r' : Result} (h : EndsAlikeButMemory s m r r') :
    EndsAlikeButMemory s m (withDst s r) (withDst (s.withMem m) r') :=
  .ite (fun _ => h) fun _ => .raise _

theorem EndsAlikeButMemory.withSrcDst {r r' : Result} (h : EndsAlikeButMemory s m r r') :
    EndsAlikeButMemory s m (withSrcDst s r) (withSrcDst (s.withMem m) r') :=
  .ite (fun _ => .raise _) fun _ => .ite (fun _ => .raise _) fun _ => h

theorem emitSequence_endsAlikeButMemory (bs : List Byte) :
    EndsAlikeButMemory s m (s.emitSequence bs) ((s.withMem m).emitSequence bs) :=
  .ite (fun _ => .raise _) fun _ => (MemoriesAgree.stored bs).finish ..

/-- In memories that agree on S, the command's reads of S answer alike, raced or not. -/
theorem State.readAlike_withMem
    (h : ∀ a : Nat, s.srcAddr.toNat ≤ a → a < s.srcAddr.toNat + s.srcLen.toNat → m.read a = s.mem.read a) :
    ReadAlike s.srcByte (s.withMem m).srcByte s.srcLen.toNat := by
  intro tag i hi
  have hm : m.read (s.srcAddr.toNat + i) = s.mem.read (s.srcAddr.toNat + i) := h _ (by omega) (by omega)
  unfold State.srcByte State.engineRead State.readable
  simp only [State.withMem, hm]
  rfl

end

theorem State.sameInputs_withMem (s : State) (m : Memory) : SameInputs s (s.withMem m) :=
  ⟨rfl, rfl, rfl, rfl, rfl, rfl, rfl, rfl, rfl, rfl, rfl, rfl, rfl, rfl⟩

/-- Every command ends alike in two memories that agree on S. -/
theorem exec_endsAlikeButMemory (i : Instr) (s : State) (m : Memory)
    (hr : usesSrc i = true → ReadAlike s.srcByte (s.withMem m).srcByte s.srcLen.toNat) :
    EndsAlikeButMemory s m (exec i s) (exec i (s.withMem m)) := by
  have hbs (hi : usesSrc i = true) : (s.withMem m).srcBytes 1 = s.srcBytes 1 :=
    State.srcBytes_congr (s.sameInputs_withMem m) (hr hi) 1
  cases i
  case nop => exact .complete ..
  case hmtClear => exact .kept (u := { s with ht := zeroTable }) rfl ..
  case hmtHash => exact .complete ..
  case hmtProbe =>
    refine .withSrc (.ite (fun _ => .raise _) fun hp => ?_)
    have hprobe := probe_congr (hr rfl) s.ht s.opA.toNat (Nat.le_of_not_lt hp)
    rw [State.withMem_ht, State.withMem_opA, hprobe]
    exact .kept (u := { s with ht := _ }) rfl ..
  case hmtRead => exact .dite (fun _ => .complete ..) fun _ => .raise _
  case hmtCompress =>
    refine .withSrcDst (.ite (fun _ => .raise _) fun _ => ?_)
    have hfast := fast_congr (hr rfl) (clampAccel s.accel)
    rw [State.withMem_srcLen, State.withMem_accel, hfast]
    refine .ite (fun _ => MemoriesAgree.discarded.finish ..) fun _ => ?_
    exact (MemoriesAgree.stored _).finish (u := { s.writeDst _ with ht := _ }) ..
  case hmtBound => exact .ite (fun _ => .raise _) fun _ => .complete ..
  case tencSeq =>
    refine .withSrcDst (.ite (fun _ => .raise _) fun _ => .ite (fun _ => .raise _) fun _ => ?_)
    refine .ite (fun _ => .raise _) fun _ => ?_
    rw [hbs rfl]
    exact emitSequence_endsAlikeButMemory _
  case tencLast =>
    refine .withSrcDst (.ite (fun _ => .raise _) fun _ => ?_)
    rw [hbs rfl]
    exact emitSequence_endsAlikeButMemory _
  case fhPack =>
    refine .withDst ?_
    rw [State.withMem_fiCfg]
    split
    · exact .raise _
    · refine .ite (fun _ => .raise _) fun _ => ?_
      exact (MemoriesAgree.stored _).finish (u := (s.writeDst _).recordPacked _ _ _ _ _) ..
  case fhParse =>
    refine .withSrc ?_
    rw [State.withMem_srcLen, parseHeader_congr (hr rfl)]
    split
    · exact .raise _
    · exact .kept (State.recordParsed_mem ..) ..
    · exact .kept (State.recordParsed_mem ..) ..
  case fhSize =>
    refine .withSrc (.ite (fun _ => .raise _) fun hlen => ?_)
    rw [readLe32_congr (hr rfl) 2 0 (Nat.le_of_not_lt hlen)]
    refine .ite (fun _ => .complete ..) fun _ => .ite (fun _ => .raise _) fun _ => ?_
    refine .ite (fun _ => .raise _) fun h5 => ?_
    rw [hr rfl 6 4 (Nat.le_of_not_lt h5)]
    exact .complete ..
  case bhPack =>
    refine .withDst ?_
    rw [State.withMem_opA, State.withMem_opB]
    split
    · exact .raise _
    · exact .ite (fun _ => .raise _) fun _ => (MemoriesAgree.stored _).finish ..
  case bhEnd =>
    exact .withDst (.ite (fun _ => .raise _) fun _ => (MemoriesAgree.stored _).finish ..)
  case bhParse =>
    refine .withSrc (.ite (fun _ => .raise _) fun hlen => ?_)
    rw [readLe32_congr (hr rfl) 1 0 (Nat.le_of_not_lt hlen)]
    exact .complete ..
  case xxhInit => exact .kept (u := { s with xs := Stream.init s.xxhSeed }) rfl ..
  case xxhUpdate =>
    refine .withSrc ?_
    rw [hbs rfl]
    exact .kept (u := { s with xs := _ }) rfl ..
  case xxhDigest => exact .complete ..
  case xxhOneshot =>
    refine .withSrc ?_
    rw [hbs rfl]
    exact .complete ..
  case xxhCheckBlock =>
    refine .withSrc ?_
    rw [hbs rfl]
    exact .ite (fun _ => .raise _) fun _ => .complete ..
  case xxhCheckContent => exact .ite (fun _ => .raise _) fun _ => .complete ..

/-- Settles O14: a command depends on memory through its reads of S only, and what it stores is the same in both runs. -/
theorem commandsReadOnlyTheSource : Obligations.CommandsReadOnlyTheSource := by
  intro i s t m hm ht
  obtain ⟨u, n', hu, hu', ha⟩ := exec_endsAlikeButMemory i s m fun hi => State.readAlike_withMem (hm hi)
  obtain rfl : t = u := by simpa [ht] using hu
  exact ⟨t.withMem n', hu', rfl, ha⟩

end Sys2Proof.Machine
end

section
/-! SUPPORT. The host's accesses of memory: plain ones while no command runs (20_memory.md R71), and what may be read and
what is left where they race with one (R73). -/

namespace Sys2Proof.Machine

/-! ## With no command running -/

theorem State.hostStore_idle {s : State} (h : s.busyCmd = none) (a : Nat) (b : Byte) :
    s.hostStore a b = { s with mem := s.mem.write a b } := by
  simp [State.hostStore, State.busy, h]

theorem State.afterLoad_idle {s : State} (h : s.busyCmd = none) (a : Nat) : s.afterLoad a = s := by
  have hb : s.busy = false := by simp [State.busy, h]
  simp [State.afterLoad, hb, State.glimpseAfter, s.hostLoad_idle h]

theorem step_storeByte {s : State} {addr : Word} {b : Byte} {rest : List Turn}
    (h : s.agenda = .host (.storeByte addr b) :: rest) :
    step s = .next (({ s with agenda := rest } : State).hostStore addr.toNat b) :=
  step_of_agenda h

theorem step_loadByte {s : State} {addr : Word} {rest : List Turn} (h : s.agenda = .host (.loadByte addr) :: rest) :
    step s =
      .next { ({ s with agenda := rest } : State).afterLoad addr.toNat with
        hostReads := .byte addr (({ s with agenda := rest } : State).hostLoad addr.toNat) :: s.hostReads } :=
  step_of_agenda h

theorem step_copyByte {s : State} {dst src : Word} {rest : List Turn}
    (h : s.agenda = .host (.copyByte dst src) :: rest) :
    step s =
      .next ((({ s with agenda := rest } : State).afterLoad src.toNat).hostStore dst.toNat
        (({ s with agenda := rest } : State).hostLoad src.toNat)) :=
  step_of_agenda h

/-- Settles O60: with no command running a host's store is its write alone, and a load returns the byte that stands there
and leaves no trace in the engine. -/
theorem hostMemoryAccessesSeeTheLatestBytes : Obligations.HostMemoryAccessesSeeTheLatestBytes := by
  intro s rest hb
  have hidle : ({ s with agenda := rest } : State).busyCmd = none := hb
  refine ⟨fun addr b ha => ?_, fun addr ha => ?_, fun dst src ha => ?_⟩
  · rw [step_storeByte ha, State.hostStore_idle hidle]
    exact ⟨_, rfl, Memory.read_write_same .., fun a hne => Memory.read_write_other _ _ _ _ hne, rfl⟩
  · rw [step_loadByte ha, State.afterLoad_idle hidle, State.hostLoad_idle _ hidle]
  · rw [step_copyByte ha, State.afterLoad_idle hidle, State.hostLoad_idle _ hidle, State.hostStore_idle hidle]
    exact ⟨_, rfl, Memory.read_write_same .., fun a hne => Memory.read_write_other _ _ _ _ hne, rfl⟩

/-! ## Against a running command -/

theorem State.mem_overwritten_iff (s : State) (a : Nat) (v : Byte) : v ∈ s.overwritten a ↔ (a, v) ∈ s.raced := by
  simp [State.overwritten]

theorem State.overwritten_eq_nil_iff (s : State) (a : Nat) : s.overwritten a = [] ↔ ∀ v, (a, v) ∉ s.raced := by
  simp only [List.eq_nil_iff_forall_not_mem, State.mem_overwritten_iff]

/-- A read of the engine may answer only the byte that stands there or one the host overwrote. -/
theorem State.mem_readable {s : State} {a : Nat} {v : Byte} (h : v ∈ s.readable a) :
    v = s.mem.read a ∨ (a, v) ∈ s.raced := by
  have := List.mem_of_mem_drop h
  rwa [List.mem_cons, s.mem_overwritten_iff] at this

theorem State.engineRead_cases (s : State) (tag a : Nat) :
    s.engineRead tag a = s.mem.read a ∨ (a, s.engineRead tag a) ∈ s.raced := by
  unfold State.engineRead
  split
  · exact .inl rfl
  · rw [List.getD_eq_getElem _ _ (Nat.mod_lt _ (s.readable_ne_nil a))]
    exact State.mem_readable (List.getElem_mem _)

/-- A byte the engine writes ends as the engine's, or, in a race, as the host's. -/
theorem State.engineWrite_read_cases (s : State) (a : Nat) (b : Byte) :
    (s.engineWrite s.mem a b).read a = b ∨
      (s.engineWrite s.mem a b).read a = s.mem.read a ∧ ∃ old, (a, old) ∈ s.raced := by
  by_cases ho : s.overwritten a = []
  · refine .inl ?_
    simp [State.engineWrite, ho]
  · rcases s.engineWrite_cases s.mem a b with h | h <;> rw [h]
    · exact .inl (Memory.read_write_same ..)
    · refine .inr ⟨rfl, ?_⟩
      simpa [s.overwritten_eq_nil_iff] using ho

theorem seesWhileRunning_hostLoad (s : State) (rest : List Turn) (a : Nat) :
    seesWhileRunning s rest a (({ s with agenda := rest } : State).hostLoad a) :=
  State.hostLoad_cases _ a

/-- A host's store during a command writes its byte and records the one it overwrote. -/
theorem State.hostStore_busy {s : State} (h : s.busy = true) (a : Nat) (b : Byte) :
    s.hostStore a b = { s with
      mem := (s.hostStore a b).mem, raced := (a, s.mem.read a) :: s.raced, glimpse := (s.hostStore a b).glimpse } := by
  simp [State.hostStore, h]

/-- A host's load during a command takes a draw and records what it saw. -/
theorem State.afterLoad_busy {s : State} (h : s.busy = true) (a : Nat) :
    s.afterLoad a = { s with draws := s.draws + 1, glimpse := (s.afterLoad a).glimpse } := by
  simp [State.afterLoad, h]

/-- A host's copy during a command does both. -/
theorem State.hostStore_afterLoad_busy {s : State} (h : s.busy = true) (dst src : Nat) (b : Byte) :
    (s.afterLoad src).hostStore dst b = { s with
      mem := ((s.afterLoad src).hostStore dst b).mem, raced := (dst, s.mem.read dst) :: s.raced, draws := s.draws + 1
      glimpse := ((s.afterLoad src).hostStore dst b).glimpse } := by
  have hb : (s.afterLoad src).busy = true := h
  have hd : (s.afterLoad src).draws = s.draws + 1 := if_pos h
  exact (State.hostStore_busy hb dst b).trans (by rw [hd]; rfl)

/-- What the command in flight was seen to write, and the host has not stored to since, its completion leaves. -/
theorem engineTurn_leaves_seen {s t : State} (hl : s.glimpseLegal = true) (hb : s.busyCmd ≠ none)
    (ht : engineTurn s = .next t) {c : Host.Cell} (hc : c ∈ s.seen) (hr : ∀ old, (c.1, old) ∉ s.raced) :
    t.mem.read c.1 = c.2 ∨ t.errCode = .outputTooSmall := by
  obtain ⟨w, hw⟩ := Option.ne_none_iff_exists'.mp hb
  have hrun : runCommand w s.settled = .next t := by simpa [engineTurn, hw] using ht
  refine State.mayWrite_ends (s.settled_mayWrite hl c hc) (by simpa using hw) ?_ hrun
  rw [s.settled_overwritten, s.overwritten_eq_nil_iff]
  exact hr

/-- Settles O59: the values of a race by what a read and a write of the engine can do, the host's accesses by what they
record, and the end by the run of the command that the record names. -/
theorem racesAnswerOnlyTheRacingValues : Obligations.RacesAnswerOnlyTheRacingValues := by
  refine ⟨fun s tag a b => ?_, fun s w rest hw => ?_, fun s t hl hb ha ht c hc hr => ?_⟩
  · exact ⟨s.engineRead_cases tag a, fun hr => s.engineRead_unraced hr tag a, s.engineWrite_read_cases a b,
      s.hostLoad_cases a, fun hb => s.hostLoad_idle hb a⟩
  · have hbusy : ({ s with agenda := rest } : State).busy = true := by simp [State.busy, hw]
    refine ⟨fun addr b ha => ?_, fun addr ha => ?_, fun dst src ha => ?_⟩
    · exact ⟨_, step_storeByte ha, Memory.read_write_same .., fun a hne => Memory.read_write_other _ _ _ _ hne,
        State.hostStore_busy hbusy addr.toNat b, State.hostStore_seen ..⟩
    · refine ⟨_, _, step_loadByte ha, seesWhileRunning_hostLoad s rest addr.toNat, ?_, State.afterLoad_seen ..⟩
      rw [State.afterLoad_busy hbusy]
    · rw [step_copyByte ha]
      refine ⟨_, ?_, rfl, fun a hne => Memory.read_write_other _ _ _ _ hne, ?_, ?_⟩
      · rw [State.hostStore_mem, Memory.read_write_same]
        exact seesWhileRunning_hostLoad s rest src.toNat
      · exact State.hostStore_afterLoad_busy hbusy ..
      · rw [State.hostStore_mem, Memory.read_write_same, State.hostStore_seen]
        exact State.afterLoad_seen ..
  · exact engineTurn_leaves_seen hl hb (by simpa [step, ha] using ht) hc hr

end Sys2Proof.Machine
end

section
/-! SUPPORT. Command words: the decoder and the encoder are inverse to each other on R81's table, and any other word in flight
ends with `IllegalCommand` (30_encoding.md R80 to R82). -/

namespace Sys2Proof.Machine

/-! ## The decoder against the encoder -/

@[simp] theorem decode_encode (i : Instr) : decode (encode i) = .ok i := by cases i <;> rfl

theorem decode_eq_ok_iff {w : Word} {i : Instr} : decode w = .ok i ↔ encode i = w := by
  refine ⟨encode_of_decode, ?_⟩
  rintro rfl
  exact decode_encode i

/-- Settles O5. -/
theorem decodeOfEncodeIsTheCommand : Obligations.DecodeOfEncodeIsTheCommand := decode_encode

/-- Settles O4: each word of the table is the encoding of the command beside it. -/
theorem opcodeMapIsTheTable : Obligations.OpcodeMapIsTheTable :=
  ⟨decode_encode .nop, decode_encode .hmtClear, decode_encode .hmtHash, decode_encode .hmtProbe, decode_encode .hmtRead,
    decode_encode .hmtCompress, decode_encode .hmtBound, decode_encode .tencSeq, decode_encode .tencLast,
    decode_encode .fhPack, decode_encode .fhParse, decode_encode .fhSize, decode_encode .bhPack, decode_encode .bhEnd,
    decode_encode .bhParse, decode_encode .xxhInit, decode_encode .xxhUpdate, decode_encode .xxhDigest,
    decode_encode .xxhOneshot, decode_encode .xxhCheckBlock, decode_encode .xxhCheckContent⟩

/-! ## The words that decode -/

/-- The opcodes of R81's table are those of the commands. -/
theorem mem_listedOpcodes_iff (op : Byte) : op ∈ listedOpcodes ↔ ∃ i, opcodeOf i = op := by
  constructor
  · intro h
    have hmap : ∀ op ∈ listedOpcodes, (decodeOpcode op).map opcodeOf = some op := by decide
    obtain ⟨i, -, hi⟩ := Option.map_eq_some_iff.mp (hmap op h)
    exact ⟨i, hi⟩
  · rintro ⟨i, rfl⟩
    cases i <;> decide

/-- A command's word is its opcode with zeros above it (R80, R95). -/
theorem encode_eq_iff (i : Instr) (w : Word) : encode i = w ↔ w.toNat < 256 ∧ opcodeOf i = w.setWidth 8 := by
  have hop := (opcodeOf i).isLt
  simp only [encode, BitVec.toNat_eq, toNat_append_eq_add, BitVec.toNat_ofNat, BitVec.toNat_setWidth]
  omega

/-- A word decodes exactly when it has zeros in bits 31..8 and a listed opcode in bits 7..0 (R82). -/
theorem decode_ok_iff_listed (w : Word) :
    (w.toNat < 256 ∧ w.setWidth 8 ∈ listedOpcodes) ↔ ∃ i, decode w = .ok i := by
  simp only [decode_eq_ok_iff, encode_eq_iff, mem_listedOpcodes_iff, exists_and_left]

/-! ## Any other word -/

theorem engineTurn_illegal {s : State} {w : Word} (hw : s.busyCmd = some w) (hill : ¬∃ i, decode w = .ok i) :
    engineTurn s = .next (s.settled.finish .illegalCommand 0#32 0#32 0#32) := by
  rcases engineTurn_cases s with ⟨hn, -⟩ | ⟨_, _, -, -, h⟩ | ⟨w', i, hw', hi, -⟩
  · simp [hw] at hn
  · exact h
  · obtain rfl : w = w' := by simpa [hw] using hw'
    exact absurd ⟨i, hi⟩ hill

/-- Settling which free values the reads take, and then only reporting a code, changes nothing else. -/
theorem State.keepsAll_settled_finish (s : State) (code : StatusCode) (a b c : Word) :
    keepsAll s (s.settled.finish code a b c) := by
  rcases s.settled_cases with h | ⟨h, -⟩ <;> rw [h]
  · exact s.keepsAll_finish ..
  · exact ({ s with glimpse := none } : State).keepsAll_finish ..

theorem step_of_agenda_nil {s : State} (h : s.agenda = []) : step s = engineTurn s := by simp [step, h]

/-- Settles O6: the decoder reads the words of R81's table and no others, and a word it does not read only reports its
code. -/
theorem otherWordsAreIllegal : Obligations.OtherWordsAreIllegal := by
  refine fun w => ⟨decode_ok_iff_listed w, fun i => decode_eq_ok_iff, fun hill s hw ha => ?_⟩
  rw [decode_ok_iff_listed] at hill
  refine ⟨_, (step_of_agenda_nil ha).trans (engineTurn_illegal hw hill), ?_, s.keepsAll_settled_finish ..⟩
  exact ⟨rfl, rfl, rfl, rfl, rfl, rfl⟩

end Sys2Proof.Machine
end

section
/-! SUPPORT. The additional bytes of an extended length read back as the length (30_encoding.md R86). -/

namespace Sys2Proof.Machine

theorem extBytes_of_le {v : Nat} (h : 15 ≤ v) :
    extBytes v = List.replicate ((v - 15) / 255) 0xFF#8 ++ [BitVec.ofNat 8 ((v - 15) % 255)] :=
  if_neg (Nat.not_lt.mpr h)

theorem extBytes_of_lt {v : Nat} (h : v < 15) : extBytes v = [] := if_pos h

/-- The reader sums the bytes `0xFF` up to the first other byte, which it adds and stops at. -/
theorem readExt_replicate {b : Byte} (hb : b ≠ 0xFF#8) (k : Nat) (rest : List Byte) :
    readExt (List.replicate k 0xFF#8 ++ b :: rest) = some (255 * k + b.toNat, rest) := by
  induction k with
  | zero => simp [readExt, hb]
  | succ k ih =>
    rw [List.replicate_succ, List.cons_append, readExt, if_pos rfl, ih]
    simp only [Option.some.injEq, Prod.mk.injEq, and_true]
    omega

/-- The last additional byte is below 255, so the reader stops there. -/
theorem readExt_extBytes {v : Nat} (h : 15 ≤ v) (rest : List Byte) :
    readExt (extBytes v ++ rest) = some (v - 15, rest) := by
  have hmod : (v - 15) % 255 < 255 := Nat.mod_lt _ (by decide)
  have hb : (BitVec.ofNat 8 ((v - 15) % 255)).toNat = (v - 15) % 255 := by
    rw [BitVec.toNat_ofNat, Nat.mod_eq_of_lt (by omega)]
  have hne : BitVec.ofNat 8 ((v - 15) % 255) ≠ 0xFF#8 := by
    intro heq
    rw [heq] at hb
    exact absurd hb hmod.ne'
  rw [extBytes_of_le h, List.append_assoc, List.singleton_append, readExt_replicate hne, hb, Nat.div_add_mod]

theorem readLength_extBytes (v : Nat) (rest : List Byte) :
    readLength (min v 15) (extBytes v ++ rest) = some (v, rest) := by
  rcases Nat.lt_or_ge v 15 with h | h
  · rw [extBytes_of_lt h, Nat.min_eq_left h.le]
    exact if_pos h
  · rw [readLength, Nat.min_eq_right h, if_neg (Nat.lt_irrefl 15), readExt_extBytes h]
    simp only [Nat.add_sub_cancel' h]

/-- Settles O46. -/
theorem extendedLengthsReadBack : Obligations.ExtendedLengthsReadBack := fun v rest =>
  ⟨extBytes_of_le, readLength_extBytes v rest, extBytes_length v⟩

end Sys2Proof.Machine
end

section
/-! SUPPORT. The host's `cmd` and `wait`: acceptance, completion, and the read of `STATUS` that ends the wait
(30_encoding.md R95, R96, 40_control.md R100, R102). -/

namespace Sys2Proof.Machine

/-! ## The turns of `cmd` and `wait` -/

/-- A host's write of `CMD` while nothing runs is the acceptance of its word (40_control.md R100). -/
theorem step_cmd_idle {s : State} {w : Word} {rest : List Turn} (hb : s.busyCmd = none)
    (h : s.agenda = .host (.write 32 (regOffset .cmd) w) :: rest) :
    step s = .next { s.accept w with agenda := rest } := by
  have hidle : ({ s with agenda := rest } : State).busy = false := by simp [State.busy, hb]
  rw [step_hostWrite h, hostWrite_regOffset, hostWriteReg, hidle]
  rfl

theorem engineTurn_command {s : State} {w : Word} {i : Instr} (hw : s.busyCmd = some w) (hi : decode w = .ok i) :
    engineTurn s = exec i s.settled := by
  simp [engineTurn, runCommand, hw, hi]

/-- While a command runs, the wait is the engine's turn, and goes on. -/
theorem step_wait_running {s : State} {rest : List Turn} (h : s.agenda = .host .waitDone :: rest)
    (hd : s.done = false) : step s = engineTurn s := by
  have hturn : hostTurn .waitDone { s with agenda := rest } = engineTurn { s with agenda := .host .waitDone :: rest } :=
    if_neg (by simp [hd])
  rw [step_of_agenda h, takeTurn, hturn, ← h]

/-- Once `DONE = 1`, the wait ends with its read of `STATUS`. -/
theorem step_wait_done {s : State} {rest : List Turn} (h : s.agenda = .host .waitDone :: rest) (hd : s.done = true) :
    step s = .next { s with
      agenda := rest, hostReads := .reg (regOffset .status) s.statusWord :: s.hostReads } := by
  have hturn : hostTurn .waitDone { s with agenda := rest } = hostRead { s with agenda := rest } 32 (regOffset .status) :=
    if_pos hd
  rw [step_of_agenda h, takeTurn, hturn, hostRead_regOffset, State.readReg_agenda]
  rfl

/-! ## What a completed command shows -/

theorem State.statusWord_getLsbD_zero (s : State) : s.statusWord.getLsbD 0 = s.busy := by
  simp only [State.statusWord, BitVec.getLsbD_append]
  simp

theorem State.statusWord_getLsbD_one (s : State) : s.statusWord.getLsbD 1 = s.done := by
  simp only [State.statusWord, BitVec.getLsbD_append]
  simp

/-- No command's rule touches the turns to come or what the host has read. -/
theorem RuleEffect.sameHost {i : Instr} {s u : State} (h : RuleEffect i s u) : sameHost s u := by
  cases h with
  | parses => exact ⟨s.recordParsed_agenda _, s.recordParsed_hostReads _⟩
  | reports | stores | setsTable | compresses | discards | setsStream | packs => exact ⟨rfl, rfl⟩

/-- Every command completes, in every state: nothing runs, `DONE = 1`, and the host's side is as it was. -/
theorem exec_completes (i : Instr) (s : State) :
    ∃ t, exec i s = .next t ∧ t.busy = false ∧ t.done = true ∧ sameHost s t := by
  obtain ⟨u, code, a, b, c, hu, he⟩ := exec_endsAfterEffect i s
  exact ⟨_, he, rfl, rfl, hu.sameHost⟩

/-- Settles O10: the three steps are the acceptance, the engine's turn during the wait, and the read that ends it. -/
theorem commandThenWaitReadsDone : Obligations.CommandThenWaitReadsDone := by
  intro s i rest hb ha
  obtain ⟨u, hu, hbusy, hdone, hagenda, -⟩ :=
    exec_completes i { s.accept (encode i) with agenda := .host .waitDone :: rest }
  refine ⟨_, u, _, step_cmd_idle hb ha, ?_, step_wait_done hagenda hdone, hu, rfl, ?_, ?_⟩
  · rw [step_wait_running rfl rfl, engineTurn_command rfl (decode_encode i), State.settled_unseen _ rfl, hu]
  · rw [u.statusWord_getLsbD_zero, hbusy]
  · rw [u.statusWord_getLsbD_one, hdone]

end Sys2Proof.Machine
end

section
/-! SUPPORT. How a command ends (40_control.md R102, R105): every command completes, and one that fails reports its code and
does nothing else, but for an `HMT_COMPRESS` that runs out of room. -/

namespace Sys2Proof.Machine

/-! ## The codes a header parse can fail with -/

/-- An answer of the header parser that, where it is an error, is a code the engine raises. -/
def ErrorsRaisable (r : Except StatusCode Parsed) : Prop := ∀ e, r = .error e → e.raisable = true

theorem ErrorsRaisable.ok (p : Parsed) : ErrorsRaisable (.ok p) := nofun

theorem ErrorsRaisable.error {e : StatusCode} (he : e.raisable = true) : ErrorsRaisable (.error e) := by
  rintro _ ⟨⟩
  exact he

theorem ErrorsRaisable.ite {p : Prop} [Decidable p] {r r' : Except StatusCode Parsed} (h : ErrorsRaisable r)
    (h' : ErrorsRaisable r') : ErrorsRaisable (if p then r else r') := by
  split
  · exact h
  · exact h'

theorem parseRegular_errorsRaisable (rd : Nat → Nat → Byte) (n : Nat) : ErrorsRaisable (parseRegular rd n) :=
  .ite (.error rfl) <| .ite (.error rfl) <| .ite (.error rfl) <| .ite (.error rfl) <| .ite (.error rfl) <|
    .ite (.error rfl) <| .ite (.error rfl) <| .ok _

theorem parseHeader_errorsRaisable (rd : Nat → Nat → Byte) (n : Nat) : ErrorsRaisable (parseHeader rd n) :=
  .ite (.error rfl) <| .ite (.ite (.error rfl) (.ok _)) <| .ite (.error rfl) (parseRegular_errorsRaisable rd n)

/-! ## How a command fails -/

/-- A result that, where its code is not OK, is a code the engine raises, reported with zero results and nothing else done; or
the discarded block of an `HMT_COMPRESS` that runs out of room (41_hash_match.md R137). -/
def FailsByCodeOnly (i : Instr) (s : State) (r : Result) : Prop :=
  ∀ t, r = .next t → t.errCode ≠ .ok →
    (t.errCode.raisable = true ∧ t = s.finish t.errCode 0#32 0#32 0#32) ∨
      (i = .hmtCompress ∧ t = s.discardBlock.finish .outputTooSmall 0#32 0#32 0#32)

theorem FailsByCodeOnly.complete {i : Instr} {s u : State} {a b c : Word} : FailsByCodeOnly i s (u.complete a b c) := by
  rintro _ ⟨⟩ hne
  exact absurd rfl hne

theorem FailsByCodeOnly.raise {i : Instr} {s : State} {e : StatusCode} (he : e.raisable = true) :
    FailsByCodeOnly i s (s.raise e) := by
  rintro _ ⟨⟩ -
  exact .inl ⟨he, rfl⟩

theorem FailsByCodeOnly.discard {s : State} : FailsByCodeOnly .hmtCompress s (s.discardBlock.raise .outputTooSmall) := by
  rintro _ ⟨⟩ -
  exact .inr ⟨rfl, rfl⟩

theorem FailsByCodeOnly.ite {i : Instr} {s : State} {p : Prop} [Decidable p] {r r' : Result} (h : FailsByCodeOnly i s r)
    (h' : FailsByCodeOnly i s r') : FailsByCodeOnly i s (if p then r else r') := by
  split
  · exact h
  · exact h'

theorem FailsByCodeOnly.withSrc {i : Instr} {s : State} {body : Result} (h : FailsByCodeOnly i s body) :
    FailsByCodeOnly i s (withSrc s body) := .ite h (.raise rfl)

theorem FailsByCodeOnly.withDst {i : Instr} {s : State} {body : Result} (h : FailsByCodeOnly i s body) :
    FailsByCodeOnly i s (withDst s body) := .ite h (.raise rfl)

theorem FailsByCodeOnly.withSrcDst {i : Instr} {s : State} {body : Result} (h : FailsByCodeOnly i s body) :
    FailsByCodeOnly i s (withSrcDst s body) := .ite (.raise rfl) (.ite (.raise rfl) h)

theorem emitSequence_failsByCodeOnly {i : Instr} (s : State) (bs : List Byte) :
    FailsByCodeOnly i s (s.emitSequence bs) := .ite (.raise rfl) .complete

/-- Every command that fails does so by its code only: a failed check of its rule raises a code before the rule has done
anything. -/
theorem exec_failsByCodeOnly (i : Instr) (s : State) : FailsByCodeOnly i s (exec i s) := by
  cases i
  case nop => exact .complete
  case hmtClear => exact .complete
  case hmtHash => exact .complete
  case hmtProbe => exact .withSrc <| .ite (.raise rfl) .complete
  case hmtRead =>
    simp only [exec, execHmtRead]
    split
    · exact .complete
    · exact .raise rfl
  case hmtCompress => exact .withSrcDst <| .ite (.raise rfl) <| .ite .discard .complete
  case hmtBound => exact .ite (.raise rfl) .complete
  case tencSeq =>
    exact .withSrcDst <| .ite (.raise rfl) <| .ite (.raise rfl) <| .ite (.raise rfl) (emitSequence_failsByCodeOnly s _)
  case tencLast => exact .withSrcDst <| .ite (.raise rfl) (emitSequence_failsByCodeOnly s _)
  case fhPack =>
    refine .withDst ?_
    split
    · exact .raise rfl
    · exact .ite (.raise rfl) .complete
  case fhParse =>
    refine .withSrc ?_
    split
    · exact .raise (parseHeader_errorsRaisable _ _ _ ‹_›)
    · exact .complete
    · exact .complete
  case fhSize =>
    exact .withSrc <| .ite (.raise rfl) <| .ite .complete <| .ite (.raise rfl) <| .ite (.raise rfl) .complete
  case bhPack =>
    refine .withDst ?_
    split
    · exact .raise rfl
    · exact .ite (.raise rfl) .complete
  case bhEnd => exact .withDst <| .ite (.raise rfl) .complete
  case bhParse => exact .withSrc <| .ite (.raise rfl) .complete
  case xxhInit => exact .complete
  case xxhUpdate => exact .withSrc .complete
  case xxhDigest => exact .complete
  case xxhOneshot => exact .withSrc .complete
  case xxhCheckBlock => exact .withSrc <| .ite (.raise rfl) .complete
  case xxhCheckContent => exact .ite (.raise rfl) .complete

theorem exec_errCode_raisable {i : Instr} {s t : State} (ht : exec i s = .next t) : t.errCode.raisable = true := by
  by_cases hok : t.errCode = .ok
  · rw [hok]; rfl
  · rcases exec_failsByCodeOnly i s t ht hok with ⟨hr, -⟩ | ⟨-, rfl⟩
    · exact hr
    · rfl

/-- No command's rule touches the operand registers, `CTRL`, `CMD` or `CMDREJ` (10_state.md R24). -/
theorem RuleEffect.sameOperands {i : Instr} {s u : State} (h : RuleEffect i s u) : sameOperands s u := by
  cases h with
  | parses => simp [Machine.sameOperands]
  | reports | stores | setsTable | compresses | discards | setsStream | packs =>
    exact ⟨rfl, rfl, rfl, rfl, rfl, rfl, rfl, rfl, rfl, rfl, rfl⟩

theorem State.irq_of_done {s : State} (h : s.done = true) : s.irq = s.ie := by simp [State.irq, h]

/-! ## The obligations -/

/-- Settles O11: a command ends after its rule's effect, which touches neither the operands nor the host's side, with a code
the engine raises. -/
theorem everyCommandCompletes : Obligations.EveryCommandCompletes := by
  intro i s
  obtain ⟨u, code, a, b, c, hu, he⟩ := exec_endsAfterEffect i s
  obtain ⟨hie, -⟩ := hu.sameOperands
  have hirq : (u.finish code a b c).irq = s.ie := (State.irq_of_done rfl).trans hie
  exact ⟨_, he, rfl, rfl, rfl, exec_errCode_raisable he, hirq, hu.sameOperands, hu.sameHost⟩

/-- Settles O12: of the two ways to fail, only the discarded block changes more than the report. -/
theorem failedCommandsReportOnlyTheirCode : Obligations.FailedCommandsReportOnlyTheirCode := by
  intro i s t ht hne
  have hout : ∀ a : Nat, a < s.dstAddr.toNat ∨ s.dstAddr.toNat + s.dstCap.toNat ≤ a → t.mem.read a = s.mem.read a :=
    fun a ha => (exec_effect i ht).read_outside ha
  rcases exec_failsByCodeOnly i s t ht hne with ⟨-, heq⟩ | ⟨rfl, rfl⟩
  · obtain ⟨-, hinfo, -, hmem, hht, hxs⟩ := s.keepsAll_finish t.errCode 0#32 0#32 0#32
    rw [← heq] at hinfo hmem hht hxs
    exact ⟨by rw [heq]; rfl, by rw [heq]; rfl, by rw [heq]; rfl, hinfo, hxs, fun _ => ⟨hht, hmem⟩, hout⟩
  · exact ⟨rfl, rfl, rfl, (RuleEffect.discards s).sameFrameInfo nofun nofun, rfl, fun h => absurd ⟨rfl, rfl⟩ h, hout⟩

/-- Settles O18: `NOP` completes at once, and a completion with `DONE = 1` raises `IRQ` where `CTRL.IE` lets it. -/
theorem nopClearsTheResults : Obligations.NopClearsTheResults := fun s =>
  ⟨s.finish .ok 0#32 0#32 0#32, rfl, ⟨rfl, rfl, rfl, rfl, rfl, rfl⟩, s.keepsAll_finish .., State.irq_of_done rfl⟩

end Sys2Proof.Machine
end

section
/-! SUPPORT. Issue: which writes of `CMD` are accepted, and which steps run the command in flight (40_control.md R100, R102,
R103). -/

namespace Sys2Proof.Machine

/-- A host's write of `CMD` while a command runs only sets `CMDREJ` (40_control.md R103). -/
theorem step_cmd_busy {s : State} {w v : Word} {rest : List Turn} (hb : s.busyCmd = some w)
    (h : s.agenda = .host (.write 32 (regOffset .cmd) v) :: rest) :
    step s = .next { s with cmdRej := true, agenda := rest } := by
  have hbusy : ({ s with agenda := rest } : State).busy = true := by simp [State.busy, hb]
  rw [step_hostWrite h, hostWrite_regOffset, hostWriteReg, hbusy]
  rfl

/-- Settles O7. -/
theorem idleCommandWriteIsAccepted : Obligations.IdleCommandWriteIsAccepted := fun s _ _ hb ha =>
  ⟨_, step_cmd_idle hb ha, rfl, rfl, Bool.and_false s.ie⟩

/-- Settles O8. -/
theorem busyCommandWriteIsRejected : Obligations.BusyCommandWriteIsRejected := fun _ _ _ _ => step_cmd_busy

theorem engineTurn_idle {s : State} (h : s.busyCmd = none) : engineTurn s = .next s := by simp [engineTurn, h]

/-- Where nothing raced, settling which free values the reads take does not matter to the command. -/
theorem exec_settled_unraced (i : Instr) {s : State} (h : s.raced = []) : exec i s.settled = exec i s := by
  rcases s.settled_cases with hs | ⟨hs, -⟩ <;> rw [hs]
  exact exec_glimpse i s none h

/-- A 32-bit word numbers itself. -/
theorem tableWord_toNat (w : Word) : tableWord 32 w.toNat = some w := by
  simp [tableWord, Nat.mod_eq_of_lt w.isLt]

/-- A command's word placed by `withFetchWord` runs at the next step, on the state its acceptance leaves. -/
theorem step_withFetchWord (s : State) (i : Instr) :
    step (s.withFetchWord 32 (encode i).toNat) = exec i (s.accept (encode i)) := by
  have hplace : s.withFetchWord 32 (encode i).toNat = { s.accept (encode i) with agenda := .engine :: s.agenda } := by
    simp [State.withFetchWord, tableWord_toNat]
  have hrun : engineTurn (s.accept (encode i)) = exec i (s.accept (encode i)) := by
    rw [engineTurn_command rfl (decode_encode i), State.settled_unseen _ rfl]
  rw [hplace, step_of_agenda rfl]
  exact hrun

/-- Settles O9: each turn that lets the engine complete is `exec` of the command in flight, on the settled state. -/
theorem stepRunsTheCommandInFlight : Obligations.StepRunsTheCommandInFlight := by
  refine ⟨fun s w i hw hi => ⟨fun ha => ?_, fun rest ha => ?_, fun rest ha hd => ?_⟩, fun s => ?_,
    fun s i => exec_settled_unraced i, step_withFetchWord, fun s hb ha => ?_⟩
  · rw [step_of_agenda_nil ha, engineTurn_command hw hi]
  · exact (step_of_agenda ha).trans (engineTurn_command hw hi)
  · rw [step_wait_running ha hd, engineTurn_command hw hi]
  · exact s.settled_cases.imp_right And.left
  · rw [step_of_agenda_nil ha, engineTurn_idle hb]

end Sys2Proof.Machine
end

section
/-! SUPPORT. The loops of the block compressor (41_hash_match.md R132 to R138): that none is cut short, how far each gets, and
the sequences they make. -/

namespace Sys2Proof.Machine

section
variable {rd : Nat → Nat → Byte} {n : Nat}

/-! ## The match extension -/

theorem extend_of_agree {ip m : Nat} (fuel : Nat)
    (h : ip + Config.lastLiterals < n ∧ rd (readTag ip 3) ip = rd (readTag ip 4) m) :
    extend rd n (fuel + 1) ip m = extend rd n fuel (ip + 1) (m + 1) :=
  if_pos h

theorem extend_of_differ {ip m : Nat} (fuel : Nat)
    (h : ¬(ip + Config.lastLiterals < n ∧ rd (readTag ip 3) ip = rd (readTag ip 4) m)) :
    extend rd n fuel ip m = ip := by
  cases fuel with
  | zero => rfl
  | succ fuel => exact if_neg h

/-- `n - ip` turns suffice for the extension: one more changes nothing. -/
theorem extend_succ_fuel {fuel ip : Nat} (m : Nat) (hf : n ≤ ip + fuel) :
    extend rd n (fuel + 1) ip m = extend rd n fuel ip m := by
  induction fuel generalizing ip m with
  | zero =>
    have hstop : ¬ip + Config.lastLiterals < n := Nat.not_lt.mpr (hf.trans (Nat.le_add_right ip _))
    exact extend_of_differ 1 fun h => hstop h.1
  | succ fuel ih =>
    by_cases h : ip + Config.lastLiterals < n ∧ rd (readTag ip 3) ip = rd (readTag ip 4) m
    · rw [extend_of_agree _ h, ih _ (by omega), extend_of_agree _ h]
    · rw [extend_of_differ _ h, extend_of_differ _ h]

theorem le_extend (fuel ip m : Nat) : ip ≤ extend rd n fuel ip m := by
  induction fuel generalizing ip m with
  | zero => exact le_rfl
  | succ fuel ih =>
    unfold extend
    split
    · exact (Nat.le_succ ip).trans (ih _ _)
    · exact le_rfl

/-- The extension never enters the last five bytes (R134). -/
theorem extend_add_five_le (fuel : Nat) {ip : Nat} (m : Nat) (h : ip + 5 ≤ n) : extend rd n fuel ip m + 5 ≤ n := by
  induction fuel generalizing ip m with
  | zero => exact h
  | succ fuel ih =>
    unfold extend
    split
    · rename_i hgo
      exact ih _ hgo.1
    · exact h

/-- Every byte the extension passed was read equal to the candidate's. -/
theorem extend_agrees {fuel ip m k : Nat} (hk : k < extend rd n fuel ip m - ip) :
    ∃ tag tag', rd tag (ip + k) = rd tag' (m + k) := by
  induction fuel generalizing ip m k with
  | zero => simp [extend] at hk
  | succ fuel ih =>
    by_cases h : ip + Config.lastLiterals < n ∧ rd (readTag ip 3) ip = rd (readTag ip 4) m
    · cases k with
      | zero => exact ⟨_, _, h.2⟩
      | succ k =>
        rw [extend_of_agree _ h] at hk
        have hk' : k < extend rd n fuel (ip + 1) (m + 1) - (ip + 1) := by omega
        simpa only [Nat.add_assoc, Nat.add_comm 1 k] using ih hk'
    · rw [extend_of_differ _ h] at hk
      omega

/-- With turns enough, the extension stops only at `n - 5` or where the bytes read differ. -/
theorem extend_stops {fuel ip : Nat} (m : Nat) (hf : n ≤ ip + fuel) (h : ip + 5 ≤ n) :
    extend rd n fuel ip m + 5 = n ∨
      rd (readTag (extend rd n fuel ip m) 3) (extend rd n fuel ip m) ≠
        rd (readTag (extend rd n fuel ip m) 4) (m + (extend rd n fuel ip m - ip)) := by
  induction fuel generalizing ip m with
  | zero => omega
  | succ fuel ih =>
    by_cases hgo : ip + Config.lastLiterals < n ∧ rd (readTag ip 3) ip = rd (readTag ip 4) m
    · have hle : ip + 1 ≤ extend rd n fuel (ip + 1) (m + 1) := le_extend fuel _ _
      rw [extend_of_agree _ hgo]
      have hsub : m + (extend rd n fuel (ip + 1) (m + 1) - ip) =
          m + 1 + (extend rd n fuel (ip + 1) (m + 1) - (ip + 1)) := by omega
      rw [hsub]
      exact ih _ (by omega) hgo.1
    · rw [extend_of_differ _ hgo, Nat.sub_self, Nat.add_zero]
      rcases Nat.eq_or_lt_of_le h with heq | hlt
      · exact .inl heq
      · exact .inr fun heq => hgo ⟨hlt, heq⟩

/-! ## The search -/

/-- What a valid probe says of its candidate (R126). -/
theorem probe_valid_iff {ht : HashTable} {p : Nat} :
    (probe rd ht p).valid = true ↔
      0 < (probe rd ht p).cand.toNat ∧ (probe rd ht p).cand.toNat < p ∧ p - (probe rd ht p).cand.toNat ≤ 65535 ∧
        readLe32 rd (readTag p 1) (probe rd ht p).cand.toNat = readLe32 rd (readTag p 2) p := by
  simp [probe, and_assoc]

/-- A search that starts within the last twelve bytes finds nothing. -/
theorem search_of_end (fuel : Nat) (ht : HashTable) (nb : Nat) {ip : Nat} (h : n < ip + 12) :
    search rd n fuel ht nb ip = ⟨none, ht⟩ := by
  cases fuel with
  | zero => rfl
  | succ fuel => exact if_pos h

theorem search_succ (fuel : Nat) (ht : HashTable) (nb ip : Nat) :
    search rd n (fuel + 1) ht nb ip =
      if ip + 12 > n then ⟨none, ht⟩
      else if (probe rd ht ip).valid then ⟨some (ip, (probe rd ht ip).cand.toNat), (probe rd ht ip).ht⟩
      else search rd n fuel (probe rd ht ip).ht (nb + 1) (ip + nb / 64) := by
  rw [search, Nat.shiftRight_eq_div_pow]
  rfl

/-- `n - ip` turns suffice for the search, since every turn moves on: one more changes nothing. -/
theorem search_succ_fuel {fuel : Nat} (ht : HashTable) {nb ip : Nat} (hnb : 64 ≤ nb) (hf : n ≤ ip + fuel) :
    search rd n (fuel + 1) ht nb ip = search rd n fuel ht nb ip := by
  induction fuel generalizing ht nb ip with
  | zero => rw [search_of_end _ _ _ (by omega), search_of_end _ _ _ (by omega)]
  | succ fuel ih =>
    have hmove : n ≤ ip + nb / 64 + fuel := by omega
    rw [search_succ (fuel + 1) ht nb ip, search_succ fuel ht nb ip, ih _ (hnb.trans (Nat.le_succ nb)) hmove]

/-- A hit of the search is a valid probe, at or after the position it started from. -/
theorem search_hit {fuel : Nat} {ht : HashTable} {nb ip p c : Nat}
    (h : (search rd n fuel ht nb ip).hit = some (p, c)) :
    ip ≤ p ∧ p + 12 ≤ n ∧ ∃ ht', (probe rd ht' p).valid = true ∧ (probe rd ht' p).cand.toNat = c := by
  induction fuel generalizing ht nb ip with
  | zero => simp [search] at h
  | succ fuel ih =>
    rw [search_succ] at h
    split at h
    · cases h
    split at h
    · rename_i hend hv
      obtain ⟨rfl, rfl⟩ : ip = p ∧ (probe rd ht ip).cand.toNat = c := by simpa using h
      exact ⟨le_rfl, Nat.le_of_not_lt hend, ht, hv, rfl⟩
    · obtain ⟨hip, hrest⟩ := ih h
      exact ⟨(Nat.le_add_right ..).trans hip, hrest⟩

/-! ## The outer loop -/

theorem fastFrom_of_miss {acc ip : Nat} {ht : HashTable} (fuel anchor : Nat)
    (h : (search rd n n ht (acc * 64) ip).hit = none) :
    fastFrom rd n acc (fuel + 1) ht anchor ip =
      ⟨lastBytes (literals rd anchor n), (search rd n n ht (acc * 64) ip).ht⟩ := by
  rw [fastFrom, Nat.shiftLeft_eq]
  rcases hs : search rd n n ht (acc * 64) ip with ⟨hit, ht'⟩
  obtain rfl : hit = none := by simpa [hs] using h
  rfl

theorem fastFrom_of_hit {acc ip p c e : Nat} {ht : HashTable} (fuel anchor : Nat)
    (h : (search rd n n ht (acc * 64) ip).hit = some (p, c)) (he : extend rd n n (p + 4) (c + 4) = e) :
    fastFrom rd n acc (fuel + 1) ht anchor ip =
      ⟨seqBytes (literals rd anchor p) (e - p) (p - c) ++
          (fastFrom rd n acc fuel (search rd n n ht (acc * 64) ip).ht e e).out,
        (fastFrom rd n acc fuel (search rd n n ht (acc * 64) ip).ht e e).ht⟩ := by
  subst he
  rw [fastFrom, Nat.shiftLeft_eq]
  rcases hs : search rd n n ht (acc * 64) ip with ⟨hit, ht'⟩
  obtain rfl : hit = some (p, c) := by simpa [hs] using h
  rfl

/-- `n - ip` turns suffice for the outer loop, since every match moves on: one more changes nothing. -/
theorem fastFrom_succ_fuel {acc fuel : Nat} (ht : HashTable) (anchor : Nat) {ip : Nat} (hf : n ≤ ip + fuel) :
    fastFrom rd n acc (fuel + 1) ht anchor ip = fastFrom rd n acc fuel ht anchor ip := by
  induction fuel generalizing ht anchor ip with
  | zero =>
    have hs : search rd n n ht (acc * 64) ip = ⟨none, ht⟩ := search_of_end _ _ _ (by omega)
    rw [fastFrom_of_miss _ _ (by rw [hs]), hs, fastFrom]
  | succ fuel ih =>
    cases h : (search rd n n ht (acc * 64) ip).hit with
    | none => rw [fastFrom_of_miss _ _ h, fastFrom_of_miss _ _ h]
    | some hit =>
      obtain ⟨p, c⟩ := hit
      have hip : ip ≤ p := (search_hit h).1
      have he : p + 4 ≤ extend rd n n (p + 4) (c + 4) := le_extend ..
      rw [fastFrom_of_hit _ _ h rfl, ih _ _ (by omega), fastFrom_of_hit _ _ h rfl]

end

/-- Settles O44: `n` turns are never too few, so a loop's equation at `n + 1` turns is its equation at `n`. -/
theorem compressorLoopsRunToTheirOwnEnd : Obligations.CompressorLoopsRunToTheirOwnEnd := by
  refine fun rd n => ⟨fun ht nb ip hnb => ?_, fun ip m => ?_, fun acc ht anchor ip _ => ?_⟩
  · rw [← search_succ, search_succ_fuel ht hnb (Nat.le_add_left n ip)]
  · rw [← extend_succ_fuel m (Nat.le_add_left n ip)]
    rfl
  · rw [← fastFrom_succ_fuel ht anchor (Nat.le_add_left n ip)]
    cases h : (search rd n n ht (acc * 64) ip).hit with
    | none => exact fastFrom_of_miss n anchor h
    | some hit => exact fastFrom_of_hit n anchor h rfl

/-- Settles O45: what the extension passed was read equal, and `n` turns let it run to where it stops. -/
theorem matchExtensionIsTheLongest : Obligations.MatchExtensionIsTheLongest := by
  rintro f n ip m _ h rfl
  refine ⟨le_extend .., extend_add_five_le n m h, fun k hk => ?_, extend_stops m (Nat.le_add_left n ip) h⟩
  obtain ⟨_, _, heq⟩ := extend_agrees hk
  exact heq

end Sys2Proof.Machine
end

section
/-! SUPPORT. The block the compressor makes is a row of sequences that cover the input (41_hash_match.md R132), whatever its
reads answer; so it stays within the bound (R138), and read by the block rules it gives the input back (R139). -/

namespace Sys2Proof.Machine

/-! ## The sequences of a block -/

/-- `rd` answered alike, in some read, at `k` positions from `p` on and from `c` on. -/
def ReadEqual (rd : Nat → Nat → Byte) (p c k : Nat) : Prop := ∀ j < k, ∃ tag tag', rd tag (p + j) = rd tag' (c + j)

/-- `IN[p .. e)` can be copied from `c`: a match by the block rules (30_encoding.md R88, 41_hash_match.md R134). -/
structure MatchAt (rd : Nat → Nat → Byte) (n p c e : Nat) : Prop where
  before : c < p
  near : p - c ≤ 65535
  long : p + 4 ≤ e
  ends : e + 5 ≤ n
  equal : ReadEqual rd p c (e - p)

/-- A block that covers `IN[anchor .. n)`: sequences, each of literals and a match, and then the final literals. -/
inductive CoversFrom (rd : Nat → Nat → Byte) (n : Nat) : Nat → List Byte → Prop
  | last {anchor : Nat} (h : anchor ≤ n) : CoversFrom rd n anchor (lastBytes (literals rd anchor n))
  | seq {anchor p c e : Nat} {bs : List Byte} (hp : anchor ≤ p) (hm : MatchAt rd n p c e) (hr : CoversFrom rd n e bs) :
      CoversFrom rd n anchor (seqBytes (literals rd anchor p) (e - p) (p - c) ++ bs)

section
variable {rd : Nat → Nat → Byte} {n : Nat}

theorem le32_inj {a b c d a' b' c' d' : Byte} (h : le32 a b c d = le32 a' b' c' d') :
    a = a' ∧ b = b' ∧ c = c' ∧ d = d' := by
  simp only [le32, BitVec.toNat_eq, toNat_append_eq_add] at h ⊢
  omega

theorem readLe32_equal {p c tag tag' : Nat} (h : readLe32 rd tag c = readLe32 rd tag' p) : ReadEqual rd p c 4 := by
  obtain ⟨h0, h1, h2, h3⟩ := le32_inj h
  intro j hj
  match j, hj with
  | 0, _ => exact ⟨_, _, h0.symm⟩
  | 1, _ => exact ⟨_, _, h1.symm⟩
  | 2, _ => exact ⟨_, _, h2.symm⟩
  | 3, _ => exact ⟨_, _, h3.symm⟩

theorem matchAt_of_search_hit {fuel : Nat} {ht : HashTable} {nb ip p c : Nat}
    (h : (search rd n fuel ht nb ip).hit = some (p, c)) : MatchAt rd n p c (extend rd n n (p + 4) (c + 4)) := by
  obtain ⟨-, hend, ht', hv, hc⟩ := search_hit h
  obtain ⟨-, hlt, hnear, heq⟩ := probe_valid_iff.mp hv
  rw [hc] at hlt hnear heq
  refine ⟨hlt, hnear, le_extend .., extend_add_five_le n _ (by omega), fun j hj => ?_⟩
  rcases Nat.lt_or_ge j 4 with h4 | h4
  · exact readLe32_equal heq j h4
  · have hj' : j - 4 < extend rd n n (p + 4) (c + 4) - (p + 4) := by omega
    obtain ⟨tag, tag', he⟩ := extend_agrees hj'
    exact ⟨tag, tag', by simpa only [Nat.add_assoc, Nat.add_sub_cancel' h4] using he⟩

/-- The outer loop makes a block that covers what is left of the input. -/
theorem fastFrom_covers (acc fuel : Nat) (ht : HashTable) {anchor ip : Nat} (ha : anchor ≤ ip) (hn : anchor ≤ n) :
    CoversFrom rd n anchor (fastFrom rd n acc fuel ht anchor ip).out := by
  induction fuel generalizing ht anchor ip with
  | zero => exact .last hn
  | succ fuel ih =>
    cases h : (search rd n n ht (acc * 64) ip).hit with
    | none =>
      rw [fastFrom_of_miss _ _ h]
      exact .last hn
    | some hit =>
      obtain ⟨p, c⟩ := hit
      obtain ⟨hip, -⟩ := search_hit h
      have hm := matchAt_of_search_hit h
      have he : extend rd n n (p + 4) (c + 4) ≤ n := (Nat.le_add_right ..).trans hm.ends
      rw [fastFrom_of_hit _ _ h rfl]
      exact .seq (ha.trans hip) hm (ih _ le_rfl he)

theorem fast_zero (acc : Nat) : fast rd 0 acc = ⟨[], zeroTable⟩ := rfl

theorem fast_covers (acc : Nat) (hn : n ≠ 0) : CoversFrom rd n 0 (fast rd n acc).out := by
  rw [fast, if_neg hn]
  exact fastFrom_covers acc n zeroTable (Nat.zero_le 1) (Nat.zero_le n)

/-! ## The bound -/

/-- A sequence is longer than what it covers by at most one byte in 255. -/
theorem seqSize_le (l : Nat) {m : Nat} (h : 4 ≤ m) : seqSize l m ≤ l + m + (l + m) / 255 := by
  have hm : extLen (m - Config.minMatch) ≤ m - 4 := extLen_le _
  have hl : extLen l ≤ 1 + l / 255 := by
    unfold extLen
    split <;> omega
  unfold seqSize
  omega

theorem lastSize_le (l : Nat) : lastSize l ≤ l + l / 255 + 2 := by
  unfold lastSize extLen
  split <;> omega

theorem CoversFrom.length_le {anchor : Nat} {bs : List Byte} (h : CoversFrom rd n anchor bs) :
    anchor ≤ n ∧ bs.length ≤ (n - anchor) + (n - anchor) / 255 + 2 := by
  induction h with
  | @last anchor h =>
    rw [lastBytes_length, literals_length]
    exact ⟨h, lastSize_le _⟩
  | @seq anchor p c e bs hp hm _ ih =>
    have hlong := hm.long
    have hs := seqSize_le (p - anchor) (m := e - p) (by omega)
    rw [List.length_append, seqBytes_length, literals_length]
    omega

end

/-- Settles O43: the sequences' excess adds up to at most one byte in 255, and the final sequence adds at most 2. -/
theorem compressedBlockIsWithinTheBound : Obligations.CompressedBlockIsWithinTheBound := by
  intro rd n acc _ _
  rcases Nat.eq_zero_or_pos n with rfl | hn
  · rw [fast_zero]
    exact Nat.zero_le _
  · obtain ⟨-, hle⟩ := (fast_covers (rd := rd) acc hn.ne').length_le
    omega

/-! ## Reading a block -/

theorem tokenByte_toNat {hi lo : Nat} (hhi : hi < 16) (hlo : lo < 16) : (tokenByte hi lo).toNat = 16 * hi + lo := by
  rw [tokenByte, toNat_append_eq_add, BitVec.toNat_ofNat, BitVec.toNat_ofNat]
  omega

theorem nib_eq_min (v : Nat) : nib v = min v 15 := by
  unfold nib
  split <;> omega

theorem nib_lt (v : Nat) : nib v < 16 := by
  rw [nib_eq_min]
  omega

/-- The token's high nibble and what follows it read back as the literals' length. -/
theorem readLength_token_hi {lo : Nat} (hlo : lo < 16) (v : Nat) (rest : List Byte) :
    readLength ((tokenByte (nib v) lo).toNat / 16) (extBytes v ++ rest) = some (v, rest) := by
  have hnib : (16 * nib v + lo) / 16 = min v 15 := by rw [nib_eq_min]; omega
  rw [tokenByte_toNat (nib_lt v) hlo, hnib, readLength_extBytes]

/-- The token's low nibble and what follows the offset read back as the match's length. -/
theorem readLength_token_lo {hi : Nat} (hhi : hi < 16) (v : Nat) (rest : List Byte) :
    readLength ((tokenByte hi (nib v)).toNat % 16) (extBytes v ++ rest) = some (v, rest) := by
  have hnib : (16 * hi + nib v) % 16 = min v 15 := by rw [nib_eq_min]; omega
  rw [tokenByte_toNat hhi (nib_lt v), hnib, readLength_extBytes]

theorem readBlock_lastBytes (fuel : Nat) (out lits : List Byte) :
    readBlock (fuel + 1) out (lastBytes lits) = some (out ++ lits) := by
  have htok : (tokenByte (nib lits.length) 0).toNat % 16 = 0 := by
    rw [tokenByte_toNat (nib_lt _) (by decide)]
    omega
  simp [lastBytes, readBlock, readLength_token_hi, htok]

/-- A sequence is read as its literals and then its match's copy (30_encoding.md R88). -/
theorem readBlock_seqBytes (fuel : Nat) (out lits rest : List Byte) {m off : Nat} (hm : 4 ≤ m) (h0 : 0 < off)
    (hoff : off ≤ 65535) (hout : off ≤ out.length + lits.length) :
    readBlock (fuel + 1) out (seqBytes lits m off ++ rest) = readBlock fuel (copyBack off m (out ++ lits)) rest := by
  have hbytes : off % 256 + 256 * (off / 256 % 256) = off := by omega
  have hcopy : ¬(off = 0 ∨ out.length + lits.length < off) := by omega
  have hm' : m - Config.minMatch + Config.minMatch = m := Nat.sub_add_cancel hm
  simp only [seqBytes, leBytes, List.cons_append, List.append_assoc, List.nil_append, readBlock,
    readLength_token_hi (nib_lt _)]
  simp [readLength_token_lo (nib_lt _), hbytes, hcopy, hm']

/-- Copying from a candidate that agrees with what follows extends the input read so far. -/
theorem copyBack_extends_input {f : Nat → Byte} {p c k : Nat} (hc : c < p) (h : ∀ j < k, f (p + j) = f (c + j)) :
    copyBack (p - c) k ((List.range p).map f) = (List.range (p + k)).map f := by
  induction k generalizing p c with
  | zero => rfl
  | succ k ih =>
    have hbyte : ((List.range p).map f).getD (((List.range p).map f).length - (p - c)) 0#8 = f p := by
      have h0 : f p = f c := h 0 (Nat.succ_pos k)
      simp [Nat.sub_sub_self hc.le, hc, h0]
    have hnext : (List.range p).map f ++ [f p] = (List.range (p + 1)).map f := by simp [List.range_succ]
    have hrec := ih (p := p + 1) (c := c + 1) (Nat.succ_lt_succ hc) fun j hj => by
      simpa only [Nat.add_assoc, Nat.add_comm 1 j] using h (j + 1) (Nat.succ_lt_succ hj)
    rw [copyBack, hbyte, hnext, ← Nat.add_sub_add_right p 1 c, hrec, Nat.add_assoc, Nat.add_comm 1 k]

theorem input_append_literals (f : Nat → Byte) {a b : Nat} (h : a ≤ b) :
    (List.range a).map f ++ literals (fun _ i => f i) a b = (List.range b).map f := by
  obtain ⟨d, rfl⟩ := Nat.exists_eq_add_of_le h
  simp [literals, List.range_add]

theorem CoversFrom.ne_nil {rd : Nat → Nat → Byte} {n anchor : Nat} {bs : List Byte} (h : CoversFrom rd n anchor bs) :
    bs ≠ [] := by
  cases h <;> simp [lastBytes, seqBytes]

/-- A block that covers the input from `anchor` on, read after the input up to `anchor`, completes the input. -/
theorem CoversFrom.readBlock_eq {f : Nat → Byte} {n anchor fuel : Nat} {bs : List Byte}
    (h : CoversFrom (fun _ i => f i) n anchor bs) (hf : bs.length ≤ fuel) :
    readBlock fuel ((List.range anchor).map f) bs = some ((List.range n).map f) := by
  induction h generalizing fuel with
  | @last anchor h =>
    rw [lastBytes_length, lastSize] at hf
    obtain ⟨fuel, rfl⟩ := Nat.exists_eq_add_of_le' (show 1 ≤ fuel by omega)
    rw [readBlock_lastBytes, input_append_literals f h]
  | @seq anchor p c e bs hp hm _ ih =>
    rw [List.length_append, seqBytes_length, seqSize] at hf
    obtain ⟨fuel, rfl⟩ := Nat.exists_eq_add_of_le' (show 1 ≤ fuel by omega)
    obtain ⟨hbefore, hnear, hlong, -, hequal⟩ := hm
    have hbytes : ∀ j < e - p, f (p + j) = f (c + j) := fun j hj => by
      obtain ⟨_, _, heq⟩ := hequal j hj
      exact heq
    have hout : p - c ≤ ((List.range anchor).map f).length + (literals (fun _ i => f i) anchor p).length := by
      simp only [List.length_map, List.length_range, literals_length]
      omega
    rw [readBlock_seqBytes _ _ _ _ (by omega) (by omega) hnear hout, input_append_literals f hp,
      copyBack_extends_input hbefore hbytes, Nat.add_sub_cancel' (by omega)]
    exact ih (by omega)

theorem decodeBlock_of_ne_nil {bs : List Byte} (h : bs ≠ []) : decodeBlock bs = readBlock bs.length [] bs := by
  cases bs with
  | nil => exact absurd rfl h
  | cons => rfl

/-- Settles O42: the block covers the input, so its sequences read one after another give the input. -/
theorem compressedBlockDecodesToItsInput : Obligations.CompressedBlockDecodesToItsInput := by
  intro f n acc _ _
  rcases Nat.eq_zero_or_pos n with rfl | hn
  · rfl
  · have hc := fast_covers (rd := fun _ i => f i) acc hn.ne'
    rw [decodeBlock_of_ne_nil hc.ne_nil]
    exact hc.readBlock_eq le_rfl

end Sys2Proof.Machine
end

section
/-! SUPPORT. The commands of the hash-match table unit (41_hash_match.md R140 to R145). -/

namespace Sys2Proof.Machine

/-! ## How the commands begin and end -/

theorem State.endedWith_finish (s : State) (code : StatusCode) (a b c : Word) :
    endedWith (s.finish code a b c) code a b c :=
  ⟨rfl, rfl, rfl, rfl, rfl, rfl⟩

theorem State.srcByte_unraced (s : State) (h : s.raced = []) : s.srcByte = fun _ i => s.inByte i := by
  funext tag i
  exact s.engineRead_unraced h tag _

theorem State.wroteExactly_writeDst (s : State) (h : s.raced = []) (bs : List Byte) :
    wroteExactly s (s.writeDst bs) s.dstAddr.toNat bs :=
  ⟨fun i hi => s.engineWrites_read_inside h bs s.mem _ i hi, fun a ha => s.engineWrites_read_outside bs s.mem _ a ha⟩

theorem withSrc_of_valid {s : State} (body : Result) (h : s.srcAddr.toNat + s.srcLen.toNat ≤ 0x100000000) :
    withSrc s body = body :=
  if_pos ((Region.valid_iff s.src).mpr h)

theorem State.regionsOk_iff (s : State) :
    s.regionsOk ↔ s.src.valid = true ∧ s.dst.valid = true ∧ s.src.overlaps s.dst = false := by
  rw [Region.valid_iff, Region.valid_iff, ← Bool.not_eq_true, Region.overlaps_iff]
  simp only [State.regionsOk, State.src_base, State.src_len, State.dst_base, State.dst_len, BitVec.toNat_eq,
    BitVec.toNat_ofNat, Config.addrSpace]
  omega

theorem withSrcDst_of_regionsOk {s : State} (body : Result) (h : s.regionsOk) : withSrcDst s body = body := by
  obtain ⟨hs, hd, ho⟩ := s.regionsOk_iff.mp h
  simp [withSrcDst, hs, hd, ho]

theorem failsWith_badOperand_of_not_regionsOk {i : Instr} {s : State} (hs : usesSrc i = true) (hd : usesDst i = true)
    (h : ¬s.regionsOk) : failsWith i s .badOperand := by
  rw [s.regionsOk_iff, not_and_or, not_and_or, Bool.not_eq_true, Bool.not_eq_true, Bool.not_eq_false] at h
  rcases h with h | h | h
  · exact failsWith_badOperand_of_src hs h
  · exact failsWith_badOperand_of_dst hd h
  · exact failsWith_badOperand_of_overlap hs hd h

/-! ## `HMT_CLEAR`, `HMT_HASH`, `HMT_READ` and `HMT_BOUND` -/

/-- Settles O19: the table is `zeroTable`, and completion touches nothing else. -/
theorem hmtClearZeroesTheTable : Obligations.HmtClearZeroesTheTable := by
  intro s
  have he : RuleEffect .hmtClear s { s with ht := zeroTable } := .setsTable s zeroTable (.inl rfl)
  have hzero (j : Fin 16384) : zeroTable[j] = 0#32 := Vector.getElem_replicate j.isLt
  exact ⟨_, rfl, State.endedWith_finish .., hzero, he.sameOperands, he.sameFrameInfo nofun nofun, he.sameHost,
    fun _ => rfl, rfl⟩

/-- Settles O20: `R0` is `hashWord` of `OPA`, which is below the table size. -/
theorem hmtHashGivesTheHash : Obligations.HmtHashGivesTheHash := fun s =>
  ⟨_, rfl, s.endedWith_finish .ok (hashWord s.opA) 0#32 0#32, hashWord_lt s.opA, s.keepsAll_finish ..⟩

/-- Settles O22: the index in range is the one check, and the command only reports. -/
theorem hmtReadGivesTheEntry : Obligations.HmtReadGivesTheEntry := by
  refine ⟨fun s j hj => ?_, fun s hbig => failsWith_of_exec_eq (dif_neg (Nat.not_lt.mpr hbig))⟩
  obtain ⟨j, hlt⟩ := j
  obtain rfl : s.opA.toNat = j := hj
  exact ⟨_, dif_pos hlt, s.endedWith_finish .., s.keepsAll_finish ..⟩

/-- Settles O24: the bound of the longest input is below `2^32`, so the word reported is the bound. -/
theorem hmtBoundGivesTheBound : Obligations.HmtBoundGivesTheBound := by
  refine ⟨fun s hle => ?_, fun s hbig => failsWith_of_exec_eq (if_pos hbig)⟩
  have hr : (BitVec.ofNat 32 (compressBound s.opA.toNat)).toNat = s.opA.toNat + s.opA.toNat / 255 + 16 := by
    rw [BitVec.toNat_ofNat, compressBound]
    omega
  refine ⟨_, if_neg (Nat.not_lt.mpr hle), s.endedWith_finish .., hr, ?_, s.keepsAll_finish ..⟩
  rw [State.finish_r0, hr]
  omega

/-! ## `HMT_PROBE` -/

/-- A probe replaces the entry at the hash of the word at `p` by `p` (R126). -/
theorem probe_ht_getElem (rd : Nat → Nat → Byte) (ht : HashTable) (p : Word) (j : Fin 16384) :
    (probe rd ht p.toNat).ht[j] = if j.val = (probe rd ht p.toNat).index.toNat then p else ht[j] := by
  have hp : BitVec.ofNat 32 p.toNat = p := by rw [BitVec.ofNat_toNat, BitVec.setWidth_eq]
  exact (Vector.getElem_set (hashIndex _).isLt j.isLt).trans (if_congr eq_comm hp rfl)

theorem exec_hmtProbe_unraced {s : State} {r : Probe} (hr : s.raced = [])
    (hsrc : s.srcAddr.toNat + s.srcLen.toNat ≤ 0x100000000) (hp : s.opA.toNat + 4 ≤ s.srcLen.toNat)
    (hprobe : probe (fun _ i => s.inByte i) s.ht s.opA.toNat = r) :
    exec .hmtProbe s =
      .next (({ s with ht := r.ht } : State).finish .ok r.cand r.index (if r.valid then 1#32 else 0#32)) := by
  rw [← s.srcByte_unraced hr] at hprobe
  subst hprobe
  exact (withSrc_of_valid _ hsrc).trans (if_neg (Nat.not_lt.mpr hp))

/-- Settles O21: the probe is made on the bytes of S, which nothing races. -/
theorem hmtProbeReadsThenUpdates : Obligations.HmtProbeReadsThenUpdates := by
  refine ⟨fun s x h cand hr hsrc hp hx hh hcand => ?_, fun s hbad => ?_⟩
  · subst hx hh
    have hc : (probe (fun _ i => s.inByte i) s.ht s.opA.toNat).cand = cand := hcand (hashIndex (s.in32 s.opA.toNat)) rfl
    have hv := probe_valid_iff (rd := fun _ i => s.inByte i) (ht := s.ht) (p := s.opA.toNat)
    have he : RuleEffect .hmtProbe s { s with ht := (probe (fun _ i => s.inByte i) s.ht s.opA.toNat).ht } :=
      .setsTable s _ (.inr rfl)
    rw [hc] at hv
    exact ⟨_, exec_hmtProbe_unraced hr hsrc hp rfl, ⟨rfl, rfl, rfl, hc, rfl, if_congr hv rfl rfl⟩,
      hashWord_lt (s.in32 s.opA.toNat), probe_ht_getElem _ s.ht s.opA, he.sameOperands, he.sameFrameInfo nofun nofun,
      he.sameHost, fun _ => rfl, rfl⟩
  · rcases Nat.lt_or_ge 0x100000000 (s.srcAddr.toNat + s.srcLen.toNat) with hsrc | hsrc
    · exact failsWith_badOperand_of_src rfl (Region.valid_eq_false hsrc)
    · have hp : s.srcLen.toNat < s.opA.toNat + 4 := hbad.resolve_left (Nat.not_lt.mpr hsrc)
      exact failsWith_of_exec_eq ((withSrc_of_valid _ hsrc).trans (if_pos hp))

/-! ## `HMT_COMPRESS` -/

theorem clampAccel_eq (accel : Word) : clampAccel accel = max 1 (min 65537 accel.toNat) := by
  unfold clampAccel Config.accelMin Config.accelMax
  split
  · omega
  · split <;> omega

/-- Past the checks, the block of S is written to D where it fits, and discarded where it does not. -/
theorem exec_hmtCompress_unraced {s : State} {b : Block} (hr : s.raced = []) (hok : s.regionsOk)
    (hlen : s.srcLen.toNat ≤ 0x7E000000)
    (hb : fast (fun _ i => s.inByte i) s.srcLen.toNat (max 1 (min 65537 s.accel.toNat)) = b) :
    exec .hmtCompress s =
      if b.out.length > s.dstCap.toNat then s.discardBlock.raise .outputTooSmall
      else ({ s.writeDst b.out with ht := b.ht } : State).complete (BitVec.ofNat 32 b.out.length) 0#32 0#32 := by
  rw [← s.srcByte_unraced hr, ← clampAccel_eq] at hb
  subst hb
  exact (withSrcDst_of_regionsOk _ hok).trans (if_neg (Nat.not_lt.mpr hlen))

/-- Settles O23: past the checks the command stores or discards its block; before them it only reports a code. -/
theorem hmtCompressWritesTheBlock : Obligations.HmtCompressWritesTheBlock := by
  refine ⟨fun s b hr hok hlen hb => ⟨fun hfit => ?_, fun hbig => ?_⟩, fun s => ⟨?_, fun hok hbig => ?_⟩⟩
  · have he : RuleEffect .hmtCompress s { s.writeDst b.out with ht := b.ht } := .compresses s b
    have hr0 : (BitVec.ofNat 32 b.out.length).toNat = b.out.length := by
      rw [BitVec.toNat_ofNat]
      exact Nat.mod_eq_of_lt (hfit.trans_lt s.dstCap.isLt)
    exact ⟨_, (exec_hmtCompress_unraced hr hok hlen hb.symm).trans (if_neg (Nat.not_lt.mpr hfit)),
      State.endedWith_finish .., hr0, s.wroteExactly_writeDst hr b.out, rfl, he.sameOperands,
      he.sameFrameInfo nofun nofun, he.sameHost, rfl⟩
  · have hexec := (exec_hmtCompress_unraced hr hok hlen hb.symm).trans (if_pos hbig)
    have he := RuleEffect.discards s
    exact ⟨_, hexec, State.endedWith_finish .., fun a ha => (exec_effect _ hexec).read_outside ha, he.sameOperands,
      he.sameFrameInfo nofun nofun, he.sameHost, rfl⟩
  · exact failsWith_badOperand_of_not_regionsOk rfl rfl
  · exact failsWith_of_exec_eq ((withSrcDst_of_regionsOk _ hok).trans (if_pos hbig))

end Sys2Proof.Machine
end

section
/-! SUPPORT. The token encoder unit: the bytes of a sequence part by part (42_token_encoder.md R161 to R163), and the
commands that write one (R170, R171). -/

namespace Sys2Proof.Machine

/-! ## The bytes of a sequence -/

/-- A token is the number whose hexadecimal digits are its two nibbles (30_encoding.md R85). -/
theorem tokenByte_eq_ofNat {hi lo : Nat} (hhi : hi < 16) (hlo : lo < 16) :
    tokenByte hi lo = BitVec.ofNat 8 (16 * hi + lo) := by
  rw [← tokenByte_toNat hhi hlo, BitVec.ofNat_toNat, BitVec.setWidth_eq]

theorem seqBytes_layout (lits : List Byte) (m off : Nat) :
    seqBytes lits m off =
      [BitVec.ofNat 8 (16 * min lits.length 15 + min (m - 4) 15)] ++ extBytes lits.length ++ lits ++
        [BitVec.ofNat 8 off, BitVec.ofNat 8 (off / 256)] ++ extBytes (m - 4) := by
  rw [seqBytes, tokenByte_eq_ofNat (nib_lt _) (nib_lt _), nib_eq_min, nib_eq_min]
  rfl

theorem lastBytes_layout (lits : List Byte) :
    lastBytes lits = [BitVec.ofNat 8 (16 * min lits.length 15)] ++ extBytes lits.length ++ lits := by
  rw [lastBytes, tokenByte_eq_ofNat (nib_lt _) (by decide), nib_eq_min]
  rfl

/-- Settles O47: a token is its nibbles' number, and the lengths are R163's, whose `EXT` counts the extension bytes. -/
theorem sequencesAreLaidOutAsTheRulesSay : Obligations.SequencesAreLaidOutAsTheRulesSay := by
  refine ⟨fun lits m off _ => ⟨seqBytes_layout lits m off, ?_⟩, fun lits => ⟨lastBytes_layout lits, ?_⟩⟩
  · rw [seqBytes_length, extBytes_length, extBytes_length]
    rfl
  · rw [lastBytes_length, extBytes_length]
    rfl

/-! ## How a command that writes a sequence ends -/

theorem State.srcBytes_unraced {s : State} (h : s.raced = []) (tag : Nat) :
    s.srcBytes tag = s.inBytes 0 s.srcLen.toNat := by
  simp [State.srcBytes, State.inBytes, s.srcByte_unraced h]

/-- A command that stores bytes in D and reports changes nothing else, where nothing races. -/
theorem State.keepsAllButStore_finish_writeDst {s : State} (h : s.raced = []) (bs : List Byte) (code : StatusCode)
    (a b c : Word) : keepsAllButStore s ((s.writeDst bs).finish code a b c) bs :=
  ⟨by simp [sameOperands], by simp [sameFrameInfo], by simp [sameHost], s.wroteExactly_writeDst h bs, rfl, rfl⟩

section
variable {i : Instr} {s : State} {bs : List Byte} (he : exec i s = s.emitSequence bs)
include he

/-- A sequence that fits in D is stored, and its length and token byte are reported (R165). -/
theorem writesSequence_of_fits (hr : s.raced = []) (hfit : bs.length ≤ s.dstCap.toNat) :
    ∃ t, exec i s = .next t ∧
      endedWith t .ok (BitVec.ofNat 32 bs.length) ((bs.getD 0 0#8).setWidth 32) 0#32 ∧ keepsAllButStore s t bs := by
  have hhead : bs.getD 0 0#8 = bs.headD 0#8 := by cases bs <;> rfl
  rw [hhead]
  exact ⟨_, he.trans (if_neg (Nat.not_lt.mpr hfit)), State.endedWith_finish ..,
    State.keepsAllButStore_finish_writeDst hr ..⟩

/-- A sequence that does not fit in D is not written (R165). -/
theorem failsWith_outputTooSmall_of_exceeds (hbig : s.dstCap.toNat < bs.length) : failsWith i s .outputTooSmall :=
  failsWith_of_exec_eq (he.trans (if_pos hbig))

end

/-! ## `TENC_SEQ` -/

/-- The command's check of the match length is R170's `M ∉ 4 … 0x7E000004`. -/
theorem matchLength_refused_iff (m : Nat) :
    m < Config.minMatch ∨ m - Config.minMatch > Config.maxInput ↔ m < 4 ∨ 0x7E000004 < m := by
  simp only [Config.minMatch, Config.maxInput]
  omega

theorem failsWith_tencSeq_of_matchLength {s : State} (hok : s.regionsOk)
    (hm : s.opA.toNat < 4 ∨ 0x7E000004 < s.opA.toNat) : failsWith .tencSeq s .badOperand :=
  failsWith_of_exec_eq ((withSrcDst_of_regionsOk _ hok).trans (if_pos ((matchLength_refused_iff _).mpr hm)))

/-- The offset is checked after the match length, and both checks answer `BadOperand`. -/
theorem failsWith_tencSeq_of_offset {s : State} (hok : s.regionsOk)
    (ho : s.opB.toNat = 0 ∨ 65535 < s.opB.toNat) : failsWith .tencSeq s .badOperand := by
  by_cases hm : s.opA.toNat < 4 ∨ 0x7E000004 < s.opA.toNat
  · exact failsWith_tencSeq_of_matchLength hok hm
  · have hM := mt (matchLength_refused_iff _).mp hm
    exact failsWith_of_exec_eq ((withSrcDst_of_regionsOk _ hok).trans ((if_neg hM).trans (if_pos ho)))

/-- R170 past the checks of the regions, of the match length and of the offset. -/
theorem exec_tencSeq_of_operandsOk {s : State} (hok : s.regionsOk) (hm : 4 ≤ s.opA.toNat)
    (hm' : s.opA.toNat ≤ 0x7E000004) (ho : 1 ≤ s.opB.toNat) (ho' : s.opB.toNat ≤ 65535) :
    exec .tencSeq s =
      if s.srcLen.toNat > Config.maxInput then s.raise .inputTooLarge
      else s.emitSequence (seqBytes (s.srcBytes 1) s.opA.toNat s.opB.toNat) := by
  have hM : ¬(s.opA.toNat < 4 ∨ 0x7E000004 < s.opA.toNat) := by omega
  have hO : ¬(s.opB.toNat = 0 ∨ 65535 < s.opB.toNat) := by omega
  exact (withSrcDst_of_regionsOk _ hok).trans ((if_neg (mt (matchLength_refused_iff _).mp hM)).trans (if_neg hO))

/-- Settles O25: past the checks the command packs the bytes of S, and R163 says whether they fit. -/
theorem tencSeqWritesOneSequence : Obligations.TencSeqWritesOneSequence := by
  refine ⟨fun s bs hr hok hm hm' ho ho' hl hbs hfit => ?fits,
    fun s => failsWith_badOperand_of_not_regionsOk rfl rfl, fun s hok =>
    ⟨failsWith_tencSeq_of_matchLength hok, failsWith_tencSeq_of_offset hok, fun hm hm' ho ho' =>
      ⟨fun hl => ?tooLarge, fun hl hbig => ?tooSmall⟩⟩⟩
  case fits =>
    rw [← State.srcBytes_unraced hr 1] at hbs
    have hsize : bs.length = seqSize s.srcLen.toNat s.opA.toNat := by
      rw [hbs, seqBytes_length, State.srcBytes_length]
    have he := (exec_tencSeq_of_operandsOk hok hm hm' ho ho').trans (if_neg (Nat.not_lt.mpr hl))
    rw [← hsize]
    exact writesSequence_of_fits (hbs ▸ he) hr hfit
  case tooLarge => exact failsWith_of_exec_eq ((exec_tencSeq_of_operandsOk hok hm hm' ho ho').trans (if_pos hl))
  case tooSmall =>
    refine failsWith_outputTooSmall_of_exceeds
      ((exec_tencSeq_of_operandsOk hok hm hm' ho ho').trans (if_neg (Nat.not_lt.mpr hl))) ?_
    rwa [seqBytes_length, State.srcBytes_length]

/-! ## `TENC_LAST` -/

/-- R171 past the checks of the regions and of the length. -/
theorem exec_tencLast_of_length_le {s : State} (hok : s.regionsOk) (hl : s.srcLen.toNat ≤ 0x7E000000) :
    exec .tencLast s = s.emitSequence (lastBytes (s.srcBytes 1)) :=
  (withSrcDst_of_regionsOk _ hok).trans (if_neg (Nat.not_lt.mpr hl))

/-- Settles O26: past the checks the command packs the bytes of S, and R163 says whether they fit. -/
theorem tencLastWritesTheFinalSequence : Obligations.TencLastWritesTheFinalSequence := by
  refine ⟨fun s bs hr hok hl hbs hfit => ?fits, fun s => failsWith_badOperand_of_not_regionsOk rfl rfl,
    fun s hok => ⟨fun hl => ?tooLarge, fun hl hbig => ?tooSmall⟩⟩
  case fits =>
    rw [← State.srcBytes_unraced hr 1] at hbs
    have hsize : bs.length = lastSize s.srcLen.toNat := by rw [hbs, lastBytes_length, State.srcBytes_length]
    rw [← hsize]
    exact writesSequence_of_fits (hbs ▸ exec_tencLast_of_length_le hok hl) hr hfit
  case tooLarge => exact failsWith_of_exec_eq ((withSrcDst_of_regionsOk _ hok).trans (if_pos hl))
  case tooSmall =>
    refine failsWith_outputTooSmall_of_exceeds (exec_tencLast_of_length_le hok hl) ?_
    rwa [lastBytes_length, State.srcBytes_length]

end Sys2Proof.Machine
end

section
/-! SUPPORT. The frame header as a byte string (43_frame_header.md R180 to R187): how `PACK_HDR` lays it out, what each
check of `PARSE_HDR` answers, and that the parser reads back what was packed. -/

namespace Sys2Proof.Machine

/-! ## Little-endian fields of a byte string -/

theorem leBytes_add (m n v : Nat) : leBytes (m + n) v = leBytes m v ++ leBytes n (v / 256 ^ m) := by
  induction m generalizing v with
  | zero => simp [leBytes]
  | succ m ih => rw [Nat.succ_add, leBytes, ih, leBytes, List.cons_append, Nat.div_div_eq_div_mul, Nat.pow_succ']

theorem le32_ofNat (v : Nat) :
    le32 (BitVec.ofNat 8 v) (BitVec.ofNat 8 (v / 256)) (BitVec.ofNat 8 (v / 256 / 256))
      (BitVec.ofNat 8 (v / 256 / 256 / 256)) = BitVec.ofNat 32 v := by
  refine BitVec.eq_of_toNat_eq ?_
  simp only [le32, toNat_append_eq_add, BitVec.toNat_ofNat]
  omega

/-- A byte string as the input of the header parser: every read of a position answers the same byte. -/
def listReader (h : List Byte) (_tag i : Nat) : Byte := h.getD i 0#8

theorem readLe32_leBytes {h pre post : List Byte} {v i : Nat} (hh : h = pre ++ leBytes 4 v ++ post)
    (hi : i = pre.length) (tag : Nat) : readLe32 (listReader h) tag i = BitVec.ofNat 32 v := by
  subst hh hi
  rw [← le32_ofNat v]
  simp [readLe32, listReader, leBytes]

theorem readLe64_leBytes {h pre post : List Byte} {v : DWord} {i : Nat} (hh : h = pre ++ leBytes 8 v.toNat ++ post)
    (hi : i = pre.length) (tag : Nat) : readLe64 (listReader h) tag i = v := by
  rw [leBytes_add 4 4] at hh
  have hlo : readLe32 (listReader h) tag i = BitVec.ofNat 32 v.toNat :=
    readLe32_leBytes (pre := pre) (post := leBytes 4 (v.toNat / 256 ^ 4) ++ post) (by simp [hh]) hi tag
  have hhi : readLe32 (listReader h) tag (i + 4) = BitVec.ofNat 32 (v.toNat / 256 ^ 4) :=
    readLe32_leBytes (pre := pre ++ leBytes 4 v.toNat) (post := post) (by simp [hh]) (by simp [hi]) tag
  rw [readLe64, hlo, hhi]
  refine BitVec.eq_of_toNat_eq ?_
  rw [toNat_append_eq_add, BitVec.toNat_ofNat, BitVec.toNat_ofNat]
  omega

theorem readRange_listReader (h : List Byte) (tag a b : Nat) (hb : b ≤ h.length) :
    readRange (listReader h) tag a b = (h.take b).drop a := by
  refine List.ext_getElem ?_ fun i hi _ => ?_
  · simp [readRange, hb]
  · have hlt : a + i < h.length := by simp [readRange] at hi; omega
    simp [readRange, listReader, hlt]

/-! ## Block-size ids, magic numbers and header sizes -/

/-- The legal ids are 4 to 7, and each step of the id is a factor of 4 (R180). -/
theorem blockMax_of_four_le {id : BitVec 3} (h : 4 ≤ id.toNat) :
    ∃ max, blockMax id = some max ∧ max.toNat = 2 ^ (8 + 2 * id.toNat) := by
  refine ⟨BitVec.ofNat 32 (2 ^ (8 + 2 * id.toNat)), by revert id; decide, ?_⟩
  rw [BitVec.toNat_ofNat]
  exact Nat.mod_eq_of_lt (Nat.pow_lt_pow_right (by omega) (by omega))

theorem blockMax_of_lt_four {id : BitVec 3} (h : id.toNat < 4) : blockMax id = none := by
  revert id
  decide

theorem blockMax_ne_none {id : BitVec 3} (h : 4 ≤ id.toNat) : blockMax id ≠ none := by
  obtain ⟨max, hmax, -⟩ := blockMax_of_four_le h
  rw [hmax]
  exact Option.some_ne_none max

theorem isSkipMagic_iff (magic : Word) :
    isSkipMagic magic = true ↔ 0x184D2A50 ≤ magic.toNat ∧ magic.toNat ≤ 0x184D2A5F := by
  simp [isSkipMagic, Config.skipMagicLo, Config.skipMagicHi, BitVec.le_def]

theorem isSkipMagic_frameMagic : ¬isSkipMagic Config.frameMagic = true := by decide

theorem headerSize_eq (flg : Byte) :
    headerSize flg = 7 + (if flg.getLsbD 3 then 8 else 0) + (if flg.getLsbD 0 then 4 else 0) := by
  unfold headerSize
  cases flg.getLsbD 3 <;> cases flg.getLsbD 0 <;> rfl

theorem seven_le_headerSize (flg : Byte) : 7 ≤ headerSize flg := by
  unfold headerSize
  omega

theorem headerSize_le (flg : Byte) : headerSize flg ≤ 19 := by
  rw [headerSize_eq]
  split <;> split <;> omega

/-! ## What `PARSE_HDR` answers (R187) -/

section
variable {rd : Nat → Nat → Byte} {n : Nat}

theorem parseHeader_incomplete (h : n < 4) : parseHeader rd n = .error .frameHeaderIncomplete := if_pos h

section
variable (h4 : 4 ≤ n)
include h4

theorem parseHeader_of_skipMagic (hm : isSkipMagic (readLe32 rd 2 0) = true) :
    parseHeader rd n =
      if n < 8 then .error .frameHeaderIncomplete else .ok (.skippable (readLe32 rd 2 0) (readLe32 rd 3 4)) :=
  (if_neg (Nat.not_lt.mpr h4)).trans (if_pos hm)

theorem parseHeader_unknown (hs : ¬isSkipMagic (readLe32 rd 2 0) = true) (hm : readLe32 rd 2 0 ≠ Config.frameMagic) :
    parseHeader rd n = .error .frameTypeUnknown :=
  (if_neg (Nat.not_lt.mpr h4)).trans ((if_neg hs).trans (if_pos hm))

theorem parseHeader_of_frameMagic (hm : readLe32 rd 2 0 = Config.frameMagic) :
    parseHeader rd n = parseRegular rd n :=
  (if_neg (Nat.not_lt.mpr h4)).trans ((if_neg (hm ▸ isSkipMagic_frameMagic)).trans (if_neg (not_not.mpr hm)))

end

/-- Checks 7 to 9 of R187 on FLG and BD: the version, and every reserved bit 0. -/
structure FlagsOk (flg bd : Byte) : Prop where
  version : flg.extractLsb' 6 2 = 0b01#2
  flgReserved : flg.getLsbD 1 = false
  bdTop : bd.getLsbD 7 = false
  bdLow : bd.extractLsb' 0 4 = 0#4

theorem parseRegular_incomplete (h : n < 7) : parseRegular rd n = .error .frameHeaderIncomplete := if_pos h

section
variable (h7 : 7 ≤ n)
include h7

theorem parseRegular_wrongVersion (hv : (rd 6 4).extractLsb' 6 2 ≠ 0b01#2) :
    parseRegular rd n = .error .headerVersionWrong :=
  (if_neg (Nat.not_lt.mpr h7)).trans (if_pos hv)

/-- Checks 8 and 9, on FLG and on BD, answer the same code. -/
theorem parseRegular_reserved (hv : (rd 6 4).extractLsb' 6 2 = 0b01#2)
    (hr : (rd 6 4).getLsbD 1 = true ∨ (rd 6 5).getLsbD 7 = true ∨ (rd 6 5).extractLsb' 0 4 ≠ 0#4) :
    parseRegular rd n = .error .reservedFlagSet := by
  refine (if_neg (Nat.not_lt.mpr h7)).trans ((if_neg (not_not.mpr hv)).trans ?_)
  by_cases hf : (rd 6 4).getLsbD 1 = true
  · exact if_pos hf
  · exact (if_neg hf).trans (if_pos (hr.resolve_left hf))

/-- Checks 10 to 13, once those of FLG and BD are passed. -/
theorem parseRegular_of_flagsOk (hf : FlagsOk (rd 6 4) (rd 6 5)) :
    parseRegular rd n =
      if blockMax ((rd 6 5).extractLsb' 4 3) = none then .error .maxBlockSizeInvalid
      else if n < headerSize (rd 6 4) then .error .frameHeaderIncomplete
      else if rd 12 (headerSize (rd 6 4) - 1) ≠ headerChecksum (readRange rd 11 4 (headerSize (rd 6 4) - 1)) then
        .error .headerChecksumInvalid
      else
        .ok (.regular (rd 6 4) (rd 6 5) (rd 12 (headerSize (rd 6 4) - 1)) (headerSize (rd 6 4))
          (if (rd 6 4).getLsbD 3 then readLe64 rd 13 6 else 0#64)
          (if (rd 6 4).getLsbD 0 then readLe32 rd 14 (6 + 8 * ((rd 6 4).getLsbD 3).toNat) else 0#32)) := by
  obtain ⟨hv, hr, ht, hl⟩ := hf
  have hbd : ¬((rd 6 5).getLsbD 7 = true ∨ (rd 6 5).extractLsb' 0 4 ≠ 0#4) :=
    not_or.mpr ⟨ne_true_of_eq_false ht, not_not.mpr hl⟩
  exact (if_neg (Nat.not_lt.mpr h7)).trans ((if_neg (not_not.mpr hv)).trans
    ((if_neg (ne_true_of_eq_false hr)).trans (if_neg hbd)))

section
variable (hf : FlagsOk (rd 6 4) (rd 6 5))
include hf

theorem parseRegular_badBlockSize (hb : ((rd 6 5).extractLsb' 4 3).toNat < 4) :
    parseRegular rd n = .error .maxBlockSizeInvalid :=
  (parseRegular_of_flagsOk h7 hf).trans (if_pos (blockMax_of_lt_four hb))

variable (hb : 4 ≤ ((rd 6 5).extractLsb' 4 3).toNat)
include hb

theorem parseRegular_truncated (ht : n < headerSize (rd 6 4)) :
    parseRegular rd n = .error .frameHeaderIncomplete :=
  (parseRegular_of_flagsOk h7 hf).trans ((if_neg (blockMax_ne_none hb)).trans (if_pos ht))

variable (hn : headerSize (rd 6 4) ≤ n)
include hn

theorem parseRegular_badChecksum
    (hc : rd 12 (headerSize (rd 6 4) - 1) ≠ headerChecksum (readRange rd 11 4 (headerSize (rd 6 4) - 1))) :
    parseRegular rd n = .error .headerChecksumInvalid :=
  (parseRegular_of_flagsOk h7 hf).trans
    ((if_neg (blockMax_ne_none hb)).trans ((if_neg (Nat.not_lt.mpr hn)).trans (if_pos hc)))

end
end

/-- A regular header of which every check of R187 passes. -/
theorem parseHeader_accepts {flg bd : Byte} {size : Nat} (hm : readLe32 rd 2 0 = Config.frameMagic)
    (hflg : rd 6 4 = flg) (hbd : rd 6 5 = bd) (hf : FlagsOk flg bd) (hb : 4 ≤ (bd.extractLsb' 4 3).toNat)
    (hsize : headerSize flg = size) (hn : size ≤ n)
    (hc : rd 12 (size - 1) = headerChecksum (readRange rd 11 4 (size - 1))) :
    parseHeader rd n =
      .ok (.regular flg bd (rd 12 (size - 1)) size (if flg.getLsbD 3 then readLe64 rd 13 6 else 0#64)
        (if flg.getLsbD 0 then readLe32 rd 14 (6 + 8 * (flg.getLsbD 3).toNat) else 0#32)) := by
  subst hflg hbd hsize
  have h7 : 7 ≤ n := (seven_le_headerSize _).trans hn
  exact (parseHeader_of_frameMagic (by omega) hm).trans ((parseRegular_of_flagsOk h7 hf).trans
    ((if_neg (blockMax_ne_none hb)).trans ((if_neg (Nat.not_lt.mpr hn)).trans (if_neg (not_not.mpr hc)))))

end

/-! ## How `PACK_HDR` lays the header out (R181, R185, R186) -/

/-- The content size and the dictionary ID, each only where it is not 0. -/
def optionalFields (csize : DWord) (dictId : Word) : List Byte :=
  (if csize = 0#64 then [] else leBytes 8 csize.toNat) ++ (if dictId = 0#32 then [] else leBytes 4 dictId.toNat)

theorem optionalFields_length (csize : DWord) (dictId : Word) :
    (optionalFields csize dictId).length = (if csize = 0#64 then 0 else 8) + (if dictId = 0#32 then 0 else 4) := by
  unfold optionalFields
  split <;> split <;> simp

section
variable (cfg : FrameCfg) (csize : DWord) (dictId : Word)

theorem descriptor_eq :
    descriptor cfg csize dictId = packFlg cfg csize dictId :: packBd cfg.bsid :: optionalFields csize dictId := by
  simp only [descriptor, optionalFields, ne_eq, ite_not]

theorem packHeader_eq :
    packHeader cfg csize dictId =
      [0x04#8, 0x22#8, 0x4D#8, 0x18#8] ++ descriptor cfg csize dictId ++
        [headerChecksum (descriptor cfg csize dictId)] := rfl

theorem packHeader_eq_fields :
    packHeader cfg csize dictId =
      [0x04#8, 0x22#8, 0x4D#8, 0x18#8, packFlg cfg csize dictId, packBd cfg.bsid] ++ optionalFields csize dictId ++
        [headerChecksum (descriptor cfg csize dictId)] := by
  rw [packHeader_eq, List.append_left_inj, descriptor_eq]
  rfl

theorem packHeader_length :
    (packHeader cfg csize dictId).length = 7 + (if csize = 0#64 then 0 else 8) + (if dictId = 0#32 then 0 else 4) := by
  rw [packHeader_eq_fields]
  simp only [List.length_append, List.length_cons, List.length_nil, optionalFields_length]
  omega

theorem packFlg_toNat :
    (packFlg cfg csize dictId).toNat =
      64 + 32 * cfg.bindep.toNat + 16 * cfg.bchk.toNat + (if csize = 0#64 then 0 else 8) +
        4 * cfg.cchk.toNat + (if dictId = 0#32 then 0 else 1) := by
  simp only [packFlg, toNat_append_eq_add, BitVec.toNat_ofBool, BitVec.toNat_ofNat, bne, beq_eq_decide]
  split <;> split <;> simp [*] <;> omega

theorem packBd_toNat (id : BitVec 3) : (packBd id).toNat = 16 * id.toNat := by
  simp only [packBd, toNat_append_eq_add, BitVec.toNat_ofNat]
  omega

theorem packFlg_getLsbD_three : (packFlg cfg csize dictId).getLsbD 3 = (csize != 0#64) := by
  simp only [packFlg, BitVec.getLsbD_append]
  simp

theorem packFlg_getLsbD_zero : (packFlg cfg csize dictId).getLsbD 0 = (dictId != 0#32) := by
  simp only [packFlg, BitVec.getLsbD_append]
  simp

theorem packFlg_getLsbD_one : (packFlg cfg csize dictId).getLsbD 1 = false := by
  simp only [packFlg, BitVec.getLsbD_append]
  simp

theorem packFlg_version : (packFlg cfg csize dictId).extractLsb' 6 2 = 0b01#2 := by
  unfold packFlg
  generalize cfg.bindep = a, cfg.bchk = b, cfg.cchk = c, (csize != 0#64) = d, (dictId != 0#32) = e
  revert a b c d e
  decide

theorem packBd_fields :
    ∀ id : BitVec 3, (packBd id).getLsbD 7 = false ∧ (packBd id).extractLsb' 0 4 = 0#4 ∧
      (packBd id).extractLsb' 4 3 = id := by
  decide

/-- The flags of a packed header pass checks 7 to 9. -/
theorem flagsOk_packed : FlagsOk (packFlg cfg csize dictId) (packBd cfg.bsid) := by
  obtain ⟨htop, hlow, -⟩ := packBd_fields cfg.bsid
  exact ⟨packFlg_version cfg csize dictId, packFlg_getLsbD_one cfg csize dictId, htop, hlow⟩

theorem headerSize_packFlg : headerSize (packFlg cfg csize dictId) = (packHeader cfg csize dictId).length := by
  rw [headerSize_eq, packFlg_getLsbD_three, packFlg_getLsbD_zero, packHeader_length]
  simp

end

/-- Settles O48: the descriptor is FLG, BD and the optional fields, and FLG and BD are the numbers of their bits. -/
theorem packedHeaderIsLaidOutAsTheRulesSay : Obligations.PackedHeaderIsLaidOutAsTheRulesSay := by
  rintro cfg csize dictId _ _ _ rfl rfl rfl
  refine ⟨?_, packHeader_length cfg csize dictId, packFlg_toNat cfg csize dictId, packBd_toNat cfg.bsid⟩
  rw [packHeader_eq_fields, descriptor_eq]
  rfl

/-! ## Reading a packed header -/

section
variable (cfg : FrameCfg) (csize : DWord) (dictId : Word)

theorem readLe32_packHeader_magic (tag : Nat) :
    readLe32 (listReader (packHeader cfg csize dictId)) tag 0 = Config.frameMagic :=
  readLe32_leBytes (pre := []) (List.append_assoc ..) rfl tag

theorem packHeader_getD_flg : (packHeader cfg csize dictId).getD 4 0#8 = packFlg cfg csize dictId := rfl

theorem packHeader_getD_bd : (packHeader cfg csize dictId).getD 5 0#8 = packBd cfg.bsid := rfl

theorem packHeader_getD_last :
    (packHeader cfg csize dictId).getD ((packHeader cfg csize dictId).length - 1) 0#8 =
      headerChecksum (descriptor cfg csize dictId) := by
  simp [packHeader]

theorem readRange_packHeader (tag : Nat) :
    readRange (listReader (packHeader cfg csize dictId)) tag 4 ((packHeader cfg csize dictId).length - 1) =
      descriptor cfg csize dictId := by
  rw [readRange_listReader _ _ _ _ (Nat.sub_le _ _), packHeader_eq]
  simp

/-- A content size of 0 is absent, and one that is not stands after BD. -/
theorem readCsize_packHeader (tag : Nat) :
    (if csize != 0#64 then readLe64 (listReader (packHeader cfg csize dictId)) tag 6 else 0#64) = csize := by
  by_cases h : csize = 0#64
  · simp [h]
  · rw [if_pos (bne_iff_ne.mpr h)]
    refine readLe64_leBytes (pre := [0x04#8, 0x22#8, 0x4D#8, 0x18#8, packFlg cfg csize dictId, packBd cfg.bsid])
      (post := optionalFields 0#64 dictId ++ [headerChecksum (descriptor cfg csize dictId)]) ?_ rfl tag
    simp [packHeader_eq_fields, optionalFields, h]

/-- A dictionary ID of 0 is absent, and one that is not stands after the content size, if there is one. -/
theorem readDictId_packHeader (tag : Nat) :
    (if dictId != 0#32 then
      readLe32 (listReader (packHeader cfg csize dictId)) tag (6 + 8 * (csize != 0#64).toNat) else 0#32) = dictId := by
  by_cases h : dictId = 0#32
  · simp [h]
  · rw [if_pos (bne_iff_ne.mpr h), ← BitVec.setWidth_eq dictId, ← BitVec.ofNat_toNat]
    refine readLe32_leBytes (pre := [0x04#8, 0x22#8, 0x4D#8, 0x18#8, packFlg cfg csize dictId, packBd cfg.bsid] ++
      optionalFields csize 0#32) (post := [headerChecksum (descriptor cfg csize dictId)]) ?_ ?_ tag
    · simp [packHeader_eq_fields, optionalFields, h]
    · by_cases h' : csize = 0#64 <;> simp [optionalFields_length, bne, beq_eq_decide, h']

end

/-- Settles O49: a packed header passes each check of R187, and each field is read where it was put. -/
theorem packedHeaderParsesBack : Obligations.PackedHeaderParsesBack := by
  rintro cfg csize dictId _ hb rfl
  obtain ⟨-, -, hid⟩ := packBd_fields cfg.bsid
  have hc := (packHeader_getD_last cfg csize dictId).trans
    (congrArg headerChecksum (readRange_packHeader cfg csize dictId 11).symm)
  have hp := parseHeader_accepts (readLe32_packHeader_magic cfg csize dictId 2) (packHeader_getD_flg cfg csize dictId)
    (packHeader_getD_bd cfg csize dictId) (flagsOk_packed cfg csize dictId) (by rwa [hid])
    (headerSize_packFlg cfg csize dictId) le_rfl hc
  rwa [packFlg_getLsbD_three, packFlg_getLsbD_zero, readCsize_packHeader, readDictId_packHeader] at hp

end Sys2Proof.Machine
end

section
/-! SUPPORT. The commands of the frame header unit (43_frame_header.md R200 to R205). -/

namespace Sys2Proof.Machine

/-! ## How the commands begin and read S -/

theorem withDst_of_dstOk {s : State} (body : Result) (h : s.dstOk) : withDst s body = body :=
  if_pos ((Region.valid_iff s.dst).mpr h)

theorem failsWith_badOperand_of_not_srcOk {i : Instr} {s : State} (hs : usesSrc i = true) (h : ¬s.srcOk) :
    failsWith i s .badOperand :=
  failsWith_badOperand_of_src hs (Region.valid_eq_false (Nat.not_le.mp h))

theorem failsWith_badOperand_of_not_dstOk {i : Instr} {s : State} (hd : usesDst i = true) (h : ¬s.dstOk) :
    failsWith i s .badOperand :=
  failsWith_badOperand_of_dst hd (Region.valid_eq_false (Nat.not_le.mp h))

theorem State.readLe32_srcByte {s : State} (hr : s.raced = []) (tag i : Nat) : readLe32 s.srcByte tag i = s.in32 i := by
  rw [s.srcByte_unraced hr]
  rfl

/-! ## `FH_PARSE` -/

/-- Nothing but the frame-info registers is changed by what `FH_PARSE` records and reports. -/
theorem State.recordParsed_frame (s : State) (p : Parsed) (code : StatusCode) (a b c : Word) :
    sameOperands s ((s.recordParsed p).finish code a b c) ∧ sameHost s ((s.recordParsed p).finish code a b c) ∧
      sameMemory s ((s.recordParsed p).finish code a b c) ∧ ((s.recordParsed p).finish code a b c).ht = s.ht ∧
      ((s.recordParsed p).finish code a b c).xs = s.xs := by
  simp [sameOperands, sameHost, sameMemory]

section
variable {s : State} (hr : s.raced = []) (hs : s.srcOk)
include hr hs

theorem failsWith_fhParse_of_error {e : StatusCode}
    (h : parseHeader (fun _ i => s.inByte i) s.srcLen.toNat = .error e) : failsWith .fhParse s e :=
  failsWith_of_exec_eq ((withSrc_of_valid _ hs).trans (by rw [s.srcByte_unraced hr, h]; rfl))

theorem exec_fhParse_of_regular {flg bd hc : Byte} {size : Nat} {csize : DWord} {dictId : Word}
    (h : parseHeader (fun _ i => s.inByte i) s.srcLen.toNat = .ok (.regular flg bd hc size csize dictId)) :
    exec .fhParse s =
      .next ((s.recordParsed (.regular flg bd hc size csize dictId)).finish .ok (BitVec.ofNat 32 size)
        (headerWord flg bd hc 0) 0#32) :=
  (withSrc_of_valid _ hs).trans (by rw [s.srcByte_unraced hr, h]; rfl)

theorem exec_fhParse_of_skippable {magic len : Word}
    (h : parseHeader (fun _ i => s.inByte i) s.srcLen.toNat = .ok (.skippable magic len)) :
    exec .fhParse s = .next ((s.recordParsed (.skippable magic len)).finish .ok 8#32 len 1#32) :=
  (withSrc_of_valid _ hs).trans (by rw [s.srcByte_unraced hr, h]; rfl)

end

/-- Settles O30: each check of R187, once those before it are passed, answers its own code. -/
theorem fhParseReportsTheFirstFailingCheck : Obligations.FhParseReportsTheFirstFailingCheck := by
  intro s flg bd size hr hs hflg hbd hsize
  rw [← headerSize_eq] at hsize
  subst hflg hbd hsize
  have fails {e : StatusCode} := failsWith_fhParse_of_error hr hs (e := e)
  refine ⟨fun h => fails (parseHeader_incomplete h), fun h4 h8 hlo hhi => fails ?skip,
    fun h4 hskip hm => fails ?unknown, fun h4 hm => ?_⟩
  case skip =>
    exact (parseHeader_of_skipMagic (rd := fun _ i => s.inByte i) h4
      ((isSkipMagic_iff (s.in32 0)).mpr ⟨hlo, hhi⟩)).trans (if_pos h8)
  case unknown =>
    exact parseHeader_unknown (rd := fun _ i => s.inByte i) h4 (mt (isSkipMagic_iff (s.in32 0)).mp hskip) hm
  have regular {e : StatusCode} (h : parseRegular (fun _ i => s.inByte i) s.srcLen.toNat = .error e) :
      failsWith .fhParse s e :=
    fails ((parseHeader_of_frameMagic (rd := fun _ i => s.inByte i) h4 hm).trans h)
  refine ⟨fun h => regular (parseRegular_incomplete h), fun h7 =>
    ⟨fun hv => regular (parseRegular_wrongVersion h7 hv), fun hv =>
      ⟨fun hres => regular (parseRegular_reserved h7 hv hres), fun hf ht hl => ?_⟩⟩⟩
  have hok : FlagsOk (s.inByte 4) (s.inByte 5) := ⟨hv, hf, ht, hl⟩
  exact ⟨fun hb => regular (parseRegular_badBlockSize h7 hok hb), fun hb =>
    ⟨fun hn => regular (parseRegular_truncated h7 hok hb hn), fun hn hc =>
      regular (parseRegular_badChecksum h7 hok hb hn hc)⟩⟩

theorem State.csizeField_lo (s : State) (present : Bool) (tag : Nat) :
    (if present then readLe64 (fun _ i => s.inByte i) tag 6 else 0#64).extractLsb' 0 32 =
      if present then s.in32 6 else 0#32 := by
  cases present
  · rfl
  · exact BitVec.extractLsb'_append_eq_right

theorem State.csizeField_hi (s : State) (present : Bool) (tag : Nat) :
    (if present then readLe64 (fun _ i => s.inByte i) tag 6 else 0#64).extractLsb' 32 32 =
      if present then s.in32 10 else 0#32 := by
  cases present
  · exact BitVec.extractLsb'_zero
  · exact BitVec.extractLsb'_append_eq_left

/-- Settles O28: the header passes every check, and what is recorded are its fields. -/
theorem fhParseAcceptsARegularHeader : Obligations.FhParseAcceptsARegularHeader := by
  intro s flg bd hc size hr hs hflg hbd hsize hhc hn hm hv hf ht hl hb hsum
  rw [← headerSize_eq] at hsize
  subst hhc
  have hp := parseHeader_accepts (rd := fun _ i => s.inByte i) hm hflg.symm hbd.symm ⟨hv, hf, ht, hl⟩ hb hsize.symm
    hn hsum
  obtain ⟨max, hmax, hmaxNat⟩ := blockMax_of_four_le hb
  refine ⟨_, exec_fhParse_of_regular hr hs hp, State.endedWith_finish .., rfl, ?lo, ?hi, ?dict, rfl, ?max, rfl, rfl,
    s.recordParsed_frame ..⟩
  case lo => exact s.csizeField_lo (flg.getLsbD 3) 13
  case hi => exact s.csizeField_hi (flg.getLsbD 3) 13
  case dict => cases flg.getLsbD 3 <;> rfl
  case max =>
    show ((blockMax (bd.extractLsb' 4 3)).getD 0#32).toNat = _
    rw [hmax]
    exact hmaxNat

/-- Settles O29: eight bytes are the whole header, and its length is the word after the magic. -/
theorem fhParseAcceptsASkippableFrame : Obligations.FhParseAcceptsASkippableFrame := by
  intro s hr hs h8 hlo hhi
  have hp := (parseHeader_of_skipMagic (rd := fun _ i => s.inByte i) (by omega)
    ((isSkipMagic_iff (s.in32 0)).mpr ⟨hlo, hhi⟩)).trans (if_neg (Nat.not_lt.mpr h8))
  exact ⟨_, exec_fhParse_of_skippable hr hs hp, State.endedWith_finish .., rfl, rfl, rfl, rfl, rfl, rfl, rfl, rfl,
    s.recordParsed_frame ..⟩

/-! ## `FH_PACK` -/

theorem exec_fhPack_of_blockMax {s : State} {max : Word} (hd : s.dstOk) (hmax : blockMax s.fiCfg.bsid = some max) :
    exec .fhPack s =
      if (packHeader s.fiCfg s.csize s.fiDictId).length > s.dstCap.toNat then s.raise .outputTooSmall
      else
        ((s.writeDst (packHeader s.fiCfg s.csize s.fiDictId)).recordPacked (packFlg s.fiCfg s.csize s.fiDictId)
          (packBd s.fiCfg.bsid) (headerChecksum (descriptor s.fiCfg s.csize s.fiDictId))
          (packHeader s.fiCfg s.csize s.fiDictId).length max).complete
            (BitVec.ofNat 32 (packHeader s.fiCfg s.csize s.fiDictId).length)
            (headerWord (packFlg s.fiCfg s.csize s.fiDictId) (packBd s.fiCfg.bsid)
              (headerChecksum (descriptor s.fiCfg s.csize s.fiDictId)) 0) 0#32 := by
  refine (withDst_of_dstOk _ hd).trans ?_
  rw [hmax]

theorem failsWith_fhPack_of_bsid {s : State} (hd : s.dstOk) (hb : s.fiCfg.bsid.toNat < 4) :
    failsWith .fhPack s .maxBlockSizeInvalid := by
  refine failsWith_of_exec_eq ((withDst_of_dstOk _ hd).trans ?_)
  rw [blockMax_of_lt_four hb]
  rfl

/-- Settles O27: the bytes reported are those the header has at offsets 4 and 5 and at its end. -/
theorem fhPackWritesTheHeader : Obligations.FhPackWritesTheHeader := by
  refine ⟨fun s h hr hd hb hh hfit => ?_, fun s => failsWith_badOperand_of_not_dstOk rfl, fun s hd =>
    ⟨failsWith_fhPack_of_bsid hd, fun hb hbig => ?_⟩⟩
  · subst hh
    obtain ⟨max, hmax, hmaxNat⟩ := blockMax_of_four_le hb
    rw [packHeader_getD_last]
    exact ⟨_, (exec_fhPack_of_blockMax hd hmax).trans (if_neg (Nat.not_lt.mpr hfit)), State.endedWith_finish .., rfl,
      hmaxNat, s.wroteExactly_writeDst hr _, by simp [sameOperands], by simp [sameHost], rfl, rfl, rfl, rfl, rfl, rfl,
      rfl, rfl⟩
  · obtain ⟨max, hmax, -⟩ := blockMax_of_four_le hb
    exact failsWith_of_exec_eq ((exec_fhPack_of_blockMax hd hmax).trans (if_pos hbig))

/-! ## `FH_SIZE` -/

theorem exec_fhSize_unraced {s : State} (hr : s.raced = []) (hs : s.srcOk) :
    exec .fhSize s =
      if s.srcLen.toNat < 4 then s.raise .frameHeaderIncomplete
      else if isSkipMagic (s.in32 0) then s.complete 8#32 0#32 1#32
      else if s.in32 0 ≠ Config.frameMagic then s.raise .frameTypeUnknown
      else if s.srcLen.toNat < 5 then s.raise .frameHeaderIncomplete
      else s.complete (BitVec.ofNat 32 (headerSize (s.inByte 4))) 0#32 0#32 := by
  refine (withSrc_of_valid _ hs).trans ?_
  rw [s.srcByte_unraced hr]
  rfl

/-- Settles O31: the checks are those of the magic number and of the length, and the size is read off FLG. -/
theorem fhSizeGivesTheHeaderSize : Obligations.FhSizeGivesTheHeaderSize := by
  refine ⟨fun s => failsWith_badOperand_of_not_srcOk rfl, fun s hr hs => ?_⟩
  have he := exec_fhSize_unraced hr hs
  have past (h4 : 4 ≤ s.srcLen.toNat) := he.trans (if_neg (Nat.not_lt.mpr h4))
  have regular (h4 : 4 ≤ s.srcLen.toNat) (hm : s.in32 0 = Config.frameMagic) :=
    ((past h4).trans (if_neg (hm ▸ isSkipMagic_frameMagic))).trans (if_neg (not_not.mpr hm))
  refine ⟨fun h5 hm => ?size, fun h4 hlo hhi => ?skippable, fun h => failsWith_of_exec_eq (he.trans (if_pos h)),
    fun h4 hm => ?short, fun h4 hskip hm => ?unknown⟩
  case size =>
    refine ⟨_, (regular (by omega) hm).trans (if_neg (Nat.not_lt.mpr h5)), State.endedWith_finish .., ?_,
      s.keepsAll_finish ..⟩
    have hle := headerSize_le (s.inByte 4)
    rw [State.finish_r0, BitVec.toNat_ofNat, ← headerSize_eq]
    omega
  case skippable =>
    exact ⟨_, (past h4).trans (if_pos ((isSkipMagic_iff (s.in32 0)).mpr ⟨hlo, hhi⟩)), s.endedWith_finish ..,
      s.keepsAll_finish ..⟩
  case short => exact failsWith_of_exec_eq ((regular h4.ge hm).trans (if_pos (by omega)))
  case unknown =>
    exact failsWith_of_exec_eq ((past h4).trans
      ((if_neg (mt (isSkipMagic_iff (s.in32 0)).mp hskip)).trans (if_pos hm)))

/-! ## `BH_PACK`, `BH_END` and `BH_PARSE` -/

/-- A block word whose length fits its 31 bits is the number of its two fields (R189). -/
theorem blockFields_eq_ofNat (raw : Bool) {len : Word} (h : len.toNat ≤ 0x7FFFFFFF) :
    bit raw ++ len.extractLsb' 0 31 = BitVec.ofNat 32 ((if raw then 0x80000000 else 0) + len.toNat) := by
  refine BitVec.eq_of_toNat_eq ?_
  rw [toNat_append_eq_add, BitVec.toNat_ofBool, BitVec.extractLsb'_toNat, BitVec.toNat_ofNat]
  cases raw <;> simp <;> omega

section
variable {c r : Word} {len : Nat} (hlen : len = if r.toNat ≤ c.toNat then r.toNat else c.toNat)
include hlen

/-- The length R189 chooses, as a number. -/
theorem blockLength_toNat : (if decide (r ≤ c) then r else c).toNat = len := by
  rw [hlen, apply_ite BitVec.toNat]
  simp only [decide_eq_true_eq, BitVec.le_def]

theorem blockLength_refused_iff :
    ((if decide (r ≤ c) then r else c) = 0#32 ∨ 0x7FFFFFFF#32 < if decide (r ≤ c) then r else c) ↔
      len = 0 ∨ 0x7FFFFFFF < len := by
  rw [← blockLength_toNat hlen, BitVec.toNat_eq, BitVec.lt_def]
  rfl

theorem blockWord_refused (h : len = 0 ∨ 0x7FFFFFFF < len) : blockWord c r = none :=
  if_pos ((blockLength_refused_iff hlen).mpr h)

theorem blockWord_accepted (h : 1 ≤ len) (h' : len ≤ 0x7FFFFFFF) :
    blockWord c r = some (BitVec.ofNat 32 (if r.toNat ≤ c.toNat then 0x80000000 + len else len)) := by
  have hbits := blockFields_eq_ofNat (decide (r ≤ c)) ((blockLength_toNat hlen).le.trans h')
  have hok : ¬(len = 0 ∨ 0x7FFFFFFF < len) := by omega
  refine (if_neg (mt (blockLength_refused_iff hlen).mp hok)).trans (congrArg some (hbits.trans ?_))
  rw [blockLength_toNat hlen]
  by_cases hraw : r.toNat ≤ c.toNat <;> simp [BitVec.le_def, hraw]

end

theorem exec_bhPack_of_blockWord {s : State} {word : Word} (hd : s.dstOk) (hw : blockWord s.opA s.opB = some word) :
    exec .bhPack s =
      if s.dstCap.toNat < 4 then s.raise .outputTooSmall
      else (s.writeDst (leBytes 4 word.toNat)).complete 4#32 word (word >>> 31) := by
  refine (withDst_of_dstOk _ hd).trans ?_
  rw [hw]

theorem failsWith_bhPack_of_blockWord {s : State} (hd : s.dstOk) (hw : blockWord s.opA s.opB = none) :
    failsWith .bhPack s .badOperand := by
  refine failsWith_of_exec_eq ((withDst_of_dstOk _ hd).trans ?_)
  rw [hw]
  rfl

/-- Settles O32: the length is checked before the capacity, and the word's top bit is the flag. -/
theorem bhPackWritesTheBlockWord : Obligations.BhPackWritesTheBlockWord := by
  refine ⟨fun s => failsWith_badOperand_of_not_dstOk rfl, fun s len word hd hlen hword => ⟨fun hr h1 h31 h4 => ?_,
    fun hbad => failsWith_bhPack_of_blockWord hd (blockWord_refused hlen hbad), fun h1 h31 h4 => ?_⟩⟩
  · have he := exec_bhPack_of_blockWord hd (blockWord_accepted hlen h1 h31)
    rw [← hword] at he
    have hlt : word < 2 ^ 32 := by rw [hword]; split <;> omega
    have hnat : (BitVec.ofNat 32 word).toNat = word := Nat.mod_eq_of_lt hlt
    have hflag : BitVec.ofNat 32 word >>> 31 = if s.opB.toNat ≤ s.opA.toNat then 1#32 else 0#32 := by
      refine BitVec.eq_of_toNat_eq ?_
      rw [BitVec.toNat_ushiftRight, hnat, Nat.shiftRight_eq_div_pow, hword, apply_ite BitVec.toNat]
      split <;> simp <;> omega
    rw [hnat] at he
    rw [← hflag]
    exact ⟨_, he.trans (if_neg (Nat.not_lt.mpr h4)), State.endedWith_finish ..,
      State.keepsAllButStore_finish_writeDst hr ..⟩
  · exact failsWith_of_exec_eq ((exec_bhPack_of_blockWord hd (blockWord_accepted hlen h1 h31)).trans (if_pos h4))

/-- Settles O33: the capacity is the one check. -/
theorem bhEndWritesTheEndMarker : Obligations.BhEndWritesTheEndMarker := by
  refine ⟨fun s => failsWith_badOperand_of_not_dstOk rfl, fun s hd => ⟨fun hr h4 => ?_, fun h => ?_⟩⟩
  · exact ⟨_, (withDst_of_dstOk _ hd).trans (if_neg (Nat.not_lt.mpr h4)), State.endedWith_finish ..,
      State.keepsAllButStore_finish_writeDst hr ..⟩
  · exact failsWith_of_exec_eq ((withDst_of_dstOk _ hd).trans (if_pos h))

/-- Settles O34: the word's low 31 bits and its top bit are its remainder and quotient by `2^31`. -/
theorem bhParseReadsTheBlockWord : Obligations.BhParseReadsTheBlockWord := by
  refine ⟨fun s => failsWith_badOperand_of_not_srcOk rfl, fun s hs => ⟨fun hr h4 => ?_, fun h => ?_⟩⟩
  · refine ⟨_, (withSrc_of_valid _ hs).trans (if_neg (Nat.not_lt.mpr h4)), State.endedWith_finish .., ?_, ?_,
      s.keepsAll_finish ..⟩
    · rw [State.finish_r0, State.readLe32_srcByte hr, BitVec.toNat_and]
      exact Nat.and_two_pow_sub_one_eq_mod _ 31
    · rw [State.finish_r1, State.readLe32_srcByte hr, BitVec.toNat_ushiftRight, Nat.shiftRight_eq_div_pow]
  · exact failsWith_of_exec_eq ((withSrc_of_valid _ hs).trans (if_pos h))

end Sys2Proof.Machine
end

section
/-! SUPPORT. The invariant of the machine: the parts of it a command can break, one by one, and that every turn keeps the
whole (10_state.md R38, R39, 20_memory.md R73, 40_control.md R100, R102, 44_xxh32.md R231, 60_exceptions.md R261). -/

namespace Sys2Proof.Machine

/-! ## The invariant, taken apart -/

/-- `FI_BLOCKMAX` and `FI_MAGIC` hold values their rules give them (10_state.md R38, R39). -/
structure State.FrameInfoLegal (s : State) : Prop where
  blockMax : s.blockMaxLegal = true
  magic : s.magicLegal = true

/-- The part of the invariant that speaks of what a command computes: memory, the stream and the frame-info registers. -/
structure State.DataLegal (s : State) : Prop where
  mem : s.mem.wf = true
  stream : s.xs.wf = true
  frameInfo : s.FrameInfoLegal

theorem State.inv_iff (s : State) :
    s.inv = true ↔ s.DataLegal ∧ s.statusLegal = true ∧ s.racesOnlyBusy = true ∧ s.glimpseLegal = true := by
  simp only [State.inv, Bool.and_eq_true]
  constructor
  · rintro ⟨⟨⟨⟨⟨⟨hm, hx⟩, hs⟩, hb⟩, hg⟩, hr⟩, hl⟩
    exact ⟨⟨hm, hx, ⟨hb, hg⟩⟩, hs, hr, hl⟩
  · rintro ⟨⟨hm, hx, ⟨hb, hg⟩⟩, hs, hr, hl⟩
    exact ⟨⟨⟨⟨⟨⟨hm, hx⟩, hs⟩, hb⟩, hg⟩, hr⟩, hl⟩

theorem State.dataLegal_of_inv {s : State} (h : s.inv = true) : s.DataLegal := (s.inv_iff.mp h).1

/-- While no command runs, nothing races and nothing was seen. -/
theorem State.inv_iff_of_idle {s : State} (h : s.busy = false) :
    s.inv = true ↔ s.DataLegal ∧ s.errCode.raisable = true ∧ s.raced = [] ∧ s.glimpse = none := by
  have hg : s.glimpseLegal = true ↔ s.glimpse = none := by
    unfold State.glimpseLegal
    cases s.glimpse <;> simp [h]
  simp [State.inv_iff, State.statusLegal, State.racesOnlyBusy, h, hg]

/-- The data a command's end reports on are those its rule left. -/
theorem State.inv_finish {u : State} {code : StatusCode} (hu : u.DataLegal) (hc : code.raisable = true) (a b c : Word) :
    (u.finish code a b c).inv = true :=
  (State.inv_iff_of_idle rfl).mpr ⟨⟨hu.mem, hu.stream, hu.frameInfo.1, hu.frameInfo.2⟩, hc, rfl, rfl⟩

/-- What only the host sees, and `STATUS.DONE` where it is cleared, has no part in the invariant. -/
theorem State.inv_hostSide {s : State} (h : s.inv = true) (ie done cmdRej : Bool) (agenda : List Turn)
    (hostReads : List HostRead) (hd : done = true → s.done = true) :
    ({ s with ie := ie, done := done, cmdRej := cmdRej, agenda := agenda, hostReads := hostReads } : State).inv =
      true := by
  obtain ⟨⟨hm, hx, hf⟩, hs, hr, hl⟩ := s.inv_iff.mp h
  refine (State.inv_iff _).mpr ⟨⟨hm, hx, hf.1, hf.2⟩, ?_, hr, ?_⟩
  · cases done with
    | false =>
      simp only [State.statusLegal, Bool.and_eq_true, Bool.or_eq_true] at hs ⊢
      obtain ⟨hc, hidle | ⟨-, hok⟩⟩ := hs
      · exact ⟨hc, .inl hidle⟩
      · exact ⟨hc, .inr ⟨rfl, hok⟩⟩
    | true =>
      rw [State.statusLegal, hd rfl] at hs
      exact hs
  · exact State.glimpseLegal_congr (s := s) ⟨rfl, rfl, rfl, rfl, rfl, rfl, rfl, rfl, rfl, rfl, rfl, rfl, rfl, rfl⟩ rfl id rfl
      (fun _ _ => rfl) hl

/-! ## Memory, the stream and the frame-info registers after a command -/

theorem RuleEffect.mem_eq {i : Instr} {s u : State} (h : RuleEffect i s u) (hi : usesDst i = false) :
    u.mem = s.mem := by
  cases h with
  | stores _ _ hd => simp [hi] at hd
  | parses => simp
  | compresses | discards | packs => cases hi
  | reports | setsTable | setsStream => rfl

/-- A command that uses D and ends with OK has found D valid. -/
theorem dst_valid_of_ok {i : Instr} {s t : State} (hi : usesDst i = true) (ht : exec i s = .next t)
    (hok : t.errCode = .ok) : s.dst.valid = true := by
  by_contra hv
  obtain ⟨u, hu, ⟨-, -, hc, -⟩, -⟩ := failsWith_badOperand_of_dst hi (Bool.eq_false_of_not_eq_true hv)
  obtain rfl : t = u := by simpa [ht] using hu
  simp [hok] at hc

/-- A command keeps memory's canonical form: what it stores fits in D, and D lies in the address space. -/
theorem exec_mem_wf {i : Instr} {s t : State} (hm : s.mem.wf = true) (ht : exec i s = .next t) : t.mem.wf = true := by
  by_cases hok : t.errCode = .ok
  · cases hi : usesDst i with
    | false =>
      obtain ⟨u, code, a, b, c, hu, he⟩ := exec_endsAfterEffect i s
      obtain rfl : u.finish code a b c = t := by simpa [he] using ht
      rw [State.finish_mem, hu.mem_eq hi]
      exact hm
    | true =>
      obtain ⟨bs, hl, -, hmem⟩ := exec_reportsItsStore s hi t ht hok
      have hv : s.dstAddr.toNat + s.dstCap.toNat ≤ Config.addrSpace :=
        (Region.valid_iff _).mp (dst_valid_of_ok hi ht hok)
      rw [hmem]
      exact s.engineWrites_wf bs s.mem s.dstAddr.toNat (by omega) hm
  · rcases exec_failsByCodeOnly i s t ht hok with ⟨-, heq⟩ | ⟨-, rfl⟩
    · rw [heq]
      exact hm
    · exact Memory.freeFill_wf _ _ _ _ hm

theorem Stream.wf_iff (xs : Stream) : xs.wf = true ↔ xs.buf.length = xs.total.toNat % 16 := by simp [Stream.wf]

/-- Feeding bytes keeps in `buf` what is left over from whole stripes (R231). -/
theorem Stream.update_wf {xs : Stream} (h : xs.wf = true) (d : List Byte) : (xs.update d).wf = true := by
  rw [Stream.wf_iff] at h ⊢
  simp only [Stream.update, List.length_drop, List.length_append, BitVec.toNat_add, BitVec.toNat_ofNat]
  omega

theorem exec_stream_wf {i : Instr} {s t : State} (hx : s.xs.wf = true) (ht : exec i s = .next t) : t.xs.wf = true := by
  by_cases hi : i = .xxhInit ∨ i = .xxhUpdate
  · rcases hi with rfl | rfl
    · cases ht
      rfl
    · rcases withSrc_cases s _ with ⟨-, hb⟩ | ⟨-, hb⟩
      · cases hb.symm.trans ht
        exact Stream.update_wf hx _
      · cases hb.symm.trans ht
        exact hx
  · obtain ⟨hi, hu⟩ := not_or.mp hi
    obtain ⟨-, hkeep, -⟩ := onlyTheirCommandsChangeTables i s t ht
    rw [hkeep hi hu]
    exact hx

/-- The block maximum of a header is a value `FI_BLOCKMAX` can hold (R38, R180). -/
theorem blockMax_legal (id : BitVec 3) :
    [0#32, 65536#32, 262144#32, 1048576#32, 4194304#32].contains ((blockMax id).getD 0#32) = true := by
  revert id
  decide

theorem parseRegular_ne_skippable (rd : Nat → Nat → Byte) (n : Nat) (magic len : Word) :
    parseRegular rd n ≠ .ok (.skippable magic len) := by
  unfold parseRegular
  dsimp only
  split_ifs <;> nofun

/-- A header parses as a skippable frame's only with one of its magic numbers (R187, R188). -/
theorem isSkipMagic_of_parseHeader {rd : Nat → Nat → Byte} {n : Nat} {magic len : Word}
    (h : parseHeader rd n = .ok (.skippable magic len)) : isSkipMagic magic = true := by
  rcases Nat.lt_or_ge n 4 with h4 | h4
  · rw [parseHeader_incomplete h4] at h
    cases h
  by_cases hs : isSkipMagic (readLe32 rd 2 0) = true
  · rw [parseHeader_of_skipMagic h4 hs] at h
    split at h <;> cases h
    exact hs
  by_cases hm : readLe32 rd 2 0 = Config.frameMagic
  · rw [parseHeader_of_frameMagic h4 hm] at h
    exact absurd h (parseRegular_ne_skippable rd n magic len)
  · rw [parseHeader_unknown h4 hs hm] at h
    cases h

theorem State.FrameInfoLegal.congr {s t : State} (h : s.FrameInfoLegal) (hb : t.fiBlockMax = s.fiBlockMax)
    (hm : t.fiMagic = s.fiMagic) : t.FrameInfoLegal := by
  obtain ⟨hb', hm'⟩ := h
  rw [State.blockMaxLegal, ← hb] at hb'
  rw [State.magicLegal, ← hm] at hm'
  exact ⟨hb', hm'⟩

theorem exec_fhPack_frameInfoLegal {s t : State} (h : s.FrameInfoLegal) (ht : exec .fhPack s = .next t) :
    t.FrameInfoLegal := by
  rcases withDst_cases s _ with ⟨-, hb⟩ | ⟨-, hb⟩ <;> replace ht := hb.symm.trans ht
  · split at ht
    · cases ht
      exact h.congr rfl rfl
    · rename_i max hmax
      dsimp only at ht
      split at ht <;> cases ht
      · exact h.congr rfl rfl
      · have hl := blockMax_legal s.fiCfg.bsid
        rw [hmax] at hl
        exact ⟨hl, h.magic⟩
  · cases ht
    exact h.congr rfl rfl

theorem exec_fhParse_frameInfoLegal {s t : State} (h : s.FrameInfoLegal) (ht : exec .fhParse s = .next t) :
    t.FrameInfoLegal := by
  rcases withSrc_cases s _ with ⟨-, hb⟩ | ⟨-, hb⟩ <;> replace ht := hb.symm.trans ht
  · split at ht
    · cases ht
      exact h.congr rfl rfl
    · rename_i bd _ _ _ _ _
      cases ht
      exact ⟨blockMax_legal (bd.extractLsb' 4 3), rfl⟩
    · rename_i hp
      cases ht
      have hskip := isSkipMagic_of_parseHeader hp
      exact ⟨rfl, by simp [State.magicLegal, State.recordParsed, hskip]⟩
  · cases ht
    exact h.congr rfl rfl

/-- Only `FH_PACK` and `FH_PARSE` write the frame-info registers, from a legal id and a magic number they have checked. -/
theorem exec_frameInfoLegal {i : Instr} {s t : State} (h : s.FrameInfoLegal) (ht : exec i s = .next t) :
    t.FrameInfoLegal := by
  by_cases hk : i = .fhPack
  · subst hk
    exact exec_fhPack_frameInfoLegal h ht
  by_cases hp : i = .fhParse
  · subst hp
    exact exec_fhParse_frameInfoLegal h ht
  obtain ⟨-, -, hkeep⟩ := onlyTheirCommandsChangeTables i s t ht
  obtain ⟨-, -, -, -, -, hb, -, hm⟩ := hkeep hk hp
  exact h.congr hb hm

/-! ## The turns -/

theorem exec_inv {i : Instr} {s t : State} (h : s.DataLegal) (ht : exec i s = .next t) : t.inv = true := by
  have hd : t.DataLegal :=
    ⟨exec_mem_wf h.mem ht, exec_stream_wf h.stream ht, exec_frameInfoLegal h.frameInfo ht⟩
  have hc := exec_errCode_raisable ht
  obtain ⟨u, code, a, b, c, -, he⟩ := exec_endsAfterEffect i s
  obtain rfl : u.finish code a b c = t := by simpa [he] using ht
  exact (State.inv_iff_of_idle rfl).mpr ⟨hd, hc, rfl, rfl⟩

/-- Which free values the reads take is no part of the data. -/
theorem State.settled_dataLegal {s : State} (h : s.DataLegal) : s.settled.DataLegal := by
  rcases s.settled_cases with hs | ⟨hs, -⟩ <;> rw [hs]
  · exact h
  · exact ⟨h.mem, h.stream, h.frameInfo.1, h.frameInfo.2⟩

theorem engineTurn_inv {s t : State} (h : s.inv = true) (ht : engineTurn s = .next t) : t.inv = true := by
  have hd : s.settled.DataLegal := State.settled_dataLegal (State.dataLegal_of_inv h)
  rcases engineTurn_cases s with ⟨-, he⟩ | ⟨w, e, -, -, he⟩ | ⟨w, i, -, -, he⟩ <;> rw [he] at ht
  · cases ht
    exact h
  · cases ht
    exact State.inv_finish hd rfl ..
  · exact exec_inv hd ht

theorem State.abandonedMem_wf {s : State} (h : s.mem.wf = true) : s.abandonedMem.wf = true := by
  unfold State.abandonedMem
  split
  · exact Memory.freeFill_wf _ _ _ _ h
  · exact h

/-- Either reset leaves the reset values and a memory in canonical form. -/
theorem State.resetWith_inv {s : State} {m : Memory} (ht : HashTable) (hm : m.wf = true) :
    (s.resetWith ht m).inv = true :=
  (State.inv_iff_of_idle rfl).mpr ⟨⟨hm, rfl, rfl, rfl⟩, rfl, rfl, rfl⟩

theorem State.accept_inv {s : State} (h : s.inv = true) (w : Word) : (s.accept w).inv = true := by
  obtain ⟨⟨hm, hx, hf⟩, -⟩ := s.inv_iff.mp h
  exact (State.inv_iff _).mpr ⟨⟨hm, hx, hf.1, hf.2⟩, rfl, rfl, rfl⟩

/-- Nothing is seen and nothing races while no command runs, so its operands may change. -/
theorem State.storeReg_inv {s : State} (hi : s.busy = false) (h : s.inv = true) (v : Word) (r : Reg) :
    (s.storeReg v r).inv = true := by
  obtain ⟨⟨hm, hx, hf⟩, hc, hr, hg⟩ := (State.inv_iff_of_idle hi).mp h
  have hb : (s.storeReg v r).busy = false := by simpa [State.busy] using hi
  refine (State.inv_iff_of_idle hb).mpr ?_
  cases r <;> exact ⟨⟨hm, hx, hf.1, hf.2⟩, hc, hr, hg⟩

theorem hostWriteReg_inv {s t : State} {r : Reg} {v : Word} (h : s.inv = true) (ht : hostWriteReg s r v = .next t) :
    t.inv = true := by
  rcases hostWriteReg_cases s t r v ht with ⟨-, -, rfl⟩ | ⟨-, -, rfl⟩ | ⟨-, rfl⟩ | ⟨-, -, rfl⟩ | ⟨-, -, rfl⟩ |
    ⟨hi, rfl⟩
  · exact State.resetWith_inv _ (State.abandonedMem_wf (State.dataLegal_of_inv h).mem)
  · exact State.inv_hostSide h _ _ _ _ _ id
  · exact State.inv_hostSide h s.ie (s.done && !v.getLsbD 1) _ s.agenda s.hostReads (by simp +contextual)
  · exact State.inv_hostSide h _ _ _ _ _ id
  · exact State.accept_inv h v
  · rcases hi with hi | hi
    · exact State.storeReg_inv hi h v r
    · rw [s.storeReg_of_not_operand v hi]
      exact h

/-- A register access that answers a next state is one the port defines. -/
theorem checkedAccess_next {width : Nat} {off : BitVec 8} {body : Result} {t : State}
    (h : checkedAccess width off body = .next t) : body = .next t := by
  rcases checkedAccess_cases width off body with ⟨-, -, hb⟩ | ⟨r, hr⟩
  · exact hb.symm.trans h
  · cases hr.symm.trans h

theorem hostWrite_inv {s t : State} {width : Nat} {off : BitVec 8} {v : Word} (h : s.inv = true)
    (ht : hostWrite s width off v = .next t) : t.inv = true := by
  have hb := checkedAccess_next ht
  split at hb
  · exact hostWriteReg_inv h hb
  · cases hb
    exact h

theorem hostRead_inv {s t : State} {width : Nat} {off : BitVec 8} (h : s.inv = true)
    (ht : hostRead s width off = .next t) : t.inv = true := by
  cases checkedAccess_next ht
  exact State.inv_hostSide h _ _ _ _ _ id

/-- A host's write inside the address space races with a command only while it runs. -/
theorem State.hostStore_inv {s : State} (h : s.inv = true) {a : Nat} (ha : a < Config.addrSpace) (b : Byte) :
    (s.hostStore a b).inv = true := by
  obtain ⟨⟨hm, hx, hf⟩, hs, hr, hl⟩ := s.inv_iff.mp h
  have hr' : (s.hostStore a b).racesOnlyBusy = true := by
    have hbusy : (s.hostStore a b).busy = s.busy := rfl
    unfold State.racesOnlyBusy at hr ⊢
    cases hb : s.busy with
    | true => simp [hbusy, hb]
    | false => simpa [hbusy, hb] using hr
  exact (State.inv_iff _).mpr
    ⟨⟨Memory.write_wf _ _ _ ha hm, hx, hf.1, hf.2⟩, hs, hr', s.hostStore_glimpseLegal a b hl⟩

theorem State.afterLoad_inv {s : State} (h : s.inv = true) (a : Nat) : (s.afterLoad a).inv = true := by
  obtain ⟨⟨hm, hx, hf⟩, hs, hr, hl⟩ := s.inv_iff.mp h
  exact (State.inv_iff _).mpr ⟨⟨hm, hx, hf.1, hf.2⟩, hs, hr, s.afterLoad_glimpseLegal a hl⟩

theorem hostTurn_inv {a : HostAct} {s t : State} (h : s.inv = true) (ht : hostTurn a s = .next t) : t.inv = true := by
  cases a with
  | write width off v => exact hostWrite_inv h ht
  | read width off => exact hostRead_inv h ht
  | storeByte addr b =>
    cases ht
    exact State.hostStore_inv h addr.isLt b
  | loadByte addr =>
    cases ht
    exact State.inv_hostSide (State.afterLoad_inv h addr.toNat) _ _ _ _ _ id
  | copyByte dst src =>
    cases ht
    exact State.hostStore_inv (State.afterLoad_inv h src.toNat) dst.isLt _
  | waitDone =>
    simp only [hostTurn] at ht
    split at ht
    · exact hostRead_inv h ht
    · exact engineTurn_inv (State.inv_hostSide h _ _ _ _ _ id) ht

theorem takeTurn_inv {t : Turn} {s s' : State} (h : s.inv = true) (ht : takeTurn t s = .next s') : s'.inv = true := by
  cases t with
  | host a => exact hostTurn_inv h ht
  | engine => exact engineTurn_inv h ht
  | hardReset =>
    cases ht
    exact State.resetWith_inv _ (State.abandonedMem_wf (State.dataLegal_of_inv h).mem)
  | busError =>
    simp only [takeTurn] at ht
    split at ht <;> cases ht
    exact h

/-- Settles O3: a step is a turn, and every turn keeps the invariant. -/
theorem stepKeepsInvariant : Obligations.StepKeepsInvariant := by
  intro s t h ht
  rcases step_cases s with ⟨-, he⟩ | ⟨turn, rest, -, he⟩ <;> rw [he] at ht
  · exact engineTurn_inv h ht
  · exact takeTurn_inv (State.inv_hostSide h _ _ _ _ _ id) ht

end Sys2Proof.Machine
end

section
/-! SUPPORT. The one-shot checksums do not see the stream (44_xxh32.md R229): from states that differ only in `XS`, their
commands end in states that differ only in `XS`. -/

namespace Sys2Proof.Machine

/-- The state with another stream. -/
def State.withStream (s : State) (x : Stream) : State := { s with xs := x }

/-- Both results are ends of a command, in states that differ at most in the stream, which is `x` in the second. -/
def EndsAlikeButStream (x : Stream) (r r' : Result) : Prop := ∃ t, r = .next t ∧ r' = .next (t.withStream x)

section
variable {s : State} {x : Stream}

theorem EndsAlikeButStream.finish (u : State) (code : StatusCode) (a b c : Word) :
    EndsAlikeButStream x (.next (u.finish code a b c)) (.next ((u.withStream x).finish code a b c)) :=
  ⟨_, rfl, rfl⟩

theorem EndsAlikeButStream.ite {p : Prop} [Decidable p] {r₁ r₂ r₁' r₂' : Result} (h₁ : EndsAlikeButStream x r₁ r₁')
    (h₂ : EndsAlikeButStream x r₂ r₂') :
    EndsAlikeButStream x (if p then r₁ else r₂) (if p then r₁' else r₂') := by
  by_cases hp : p
  · simpa only [if_pos hp] using h₁
  · simpa only [if_neg hp] using h₂

theorem EndsAlikeButStream.withSrc {r r' : Result} (h : EndsAlikeButStream x r r') :
    EndsAlikeButStream x (withSrc s r) (withSrc (s.withStream x) r') :=
  .ite h (.finish s ..)

theorem EndsAlikeButStream.withDst {r r' : Result} (h : EndsAlikeButStream x r r') :
    EndsAlikeButStream x (withDst s r) (withDst (s.withStream x) r') :=
  .ite h (.finish s ..)

/-- The engine's stores do not look at the stream. -/
theorem State.engineWrites_withStream (m : Memory) (a : Nat) (bs : List Byte) :
    (s.withStream x).engineWrites m a bs = s.engineWrites m a bs := by
  induction bs generalizing m a with
  | nil => rfl
  | cons b bs ih => exact ih (s.engineWrite m a b) (a + 1)

theorem State.writeDst_withStream (bs : List Byte) :
    (s.withStream x).writeDst bs = (s.writeDst bs).withStream x := by
  unfold State.writeDst
  rw [State.engineWrites_withStream]
  rfl

theorem State.recordParsed_withStream (p : Parsed) :
    (s.withStream x).recordParsed p = (s.recordParsed p).withStream x := by
  cases p <;> rfl

end

/-- No command whose checksum is one-shot looks at the stream or changes it (R229). -/
theorem exec_endsAlikeButStream {i : Instr} (s : State) (x : Stream)
    (hi : i = .xxhOneshot ∨ i = .xxhCheckBlock ∨ i = .fhPack ∨ i = .fhParse) :
    EndsAlikeButStream x (exec i s) (exec i (s.withStream x)) := by
  rcases hi with rfl | rfl | rfl | rfl
  · exact .withSrc (.finish s ..)
  · exact .withSrc (.ite (.finish s ..) (.finish s ..))
  · refine .withDst ?_
    have hcfg : (s.withStream x).fiCfg = s.fiCfg := rfl
    rw [hcfg]
    split
    · exact .finish s ..
    · refine .ite (.finish s ..) ?_
      rw [State.writeDst_withStream]
      exact .finish ((s.writeDst _).recordPacked ..) ..
  · refine .withSrc ?_
    have hread : parseHeader (s.withStream x).srcByte (s.withStream x).srcLen.toNat =
        parseHeader s.srcByte s.srcLen.toNat := rfl
    rw [hread]
    split
    · exact .finish s ..
    · rw [State.recordParsed_withStream]
      exact .finish (s.recordParsed _) ..
    · rw [State.recordParsed_withStream]
      exact .finish (s.recordParsed _) ..

/-- Settles O17: the two ends differ in the stream only. -/
theorem oneShotChecksumsIgnoreTheStream : Obligations.OneShotChecksumsIgnoreTheStream := by
  intro i s t x hi ht
  obtain ⟨u, hu, hu'⟩ := exec_endsAlikeButStream s x hi
  obtain rfl : t = u := by simpa [ht] using hu
  exact hu'

end Sys2Proof.Machine
end

section
/-! SUPPORT. The stream law (44_xxh32.md R233): after any feeds, the stream is what the one-shot XXH32 has computed of the
bytes fed so far. -/

namespace Sys2Proof.Machine

/-! ## Stripes of a byte string -/

theorem lane_append {d : List Byte} (e : List Byte) {i : Nat} (h : i + 4 ≤ d.length) : lane (d ++ e) i = lane d i := by
  unfold lane
  rw [List.getD_append _ _ _ _ (by omega), List.getD_append _ _ _ _ (by omega), List.getD_append _ _ _ _ (by omega),
    List.getD_append _ _ _ _ (by omega)]

theorem Lanes.stripe_append (v : Lanes) {d : List Byte} (e : List Byte) (h : 16 ≤ d.length) :
    v.stripe (d ++ e) = v.stripe d := by
  unfold Lanes.stripe
  rw [lane_append e (by omega), lane_append e (by omega), lane_append e (by omega), lane_append e (by omega)]

/-- Whole stripes of a byte string do not see what follows them. -/
theorem Lanes.stripes_append {k : Nat} (v : Lanes) {d : List Byte} (e : List Byte) (h : 16 * k ≤ d.length) :
    Lanes.stripes k v (d ++ e) = Lanes.stripes k v d := by
  induction k generalizing v d with
  | zero => rfl
  | succ k ih =>
    rw [Lanes.stripes, Lanes.stripes, v.stripe_append e (by omega), List.drop_append_of_le_length (by omega),
      ih _ (by rw [List.length_drop]; omega)]

theorem Lanes.stripes_add (j k : Nat) (v : Lanes) (d : List Byte) :
    Lanes.stripes (j + k) v d = Lanes.stripes k (Lanes.stripes j v d) (d.drop (16 * j)) := by
  induction j generalizing v d with
  | zero => rw [Nat.zero_add]; rfl
  | succ j ih =>
    rw [Nat.succ_add, Lanes.stripes, Lanes.stripes, ih, List.drop_drop, Nat.mul_succ, Nat.add_comm 16]

/-! ## The stream after the bytes fed -/

/-- The stream that a seed and the bytes fed since determine. -/
def Stream.ofBytes (seed : Word) (d : List Byte) : Stream :=
  let v := Lanes.stripes (d.length / 16) (Lanes.start seed) d
  { seed := seed, v1 := v.v1, v2 := v.v2, v3 := v.v3, v4 := v.v4, buf := d.drop (16 * (d.length / 16))
    total := BitVec.ofNat 64 d.length }

theorem Stream.init_eq_ofBytes (seed : Word) : Stream.init seed = Stream.ofBytes seed [] := rfl

/-- Feeding more bytes goes on as if they had stood after those fed before: `buf` and the new bytes hold the stripes that
follow the ones consumed. -/
theorem Stream.update_ofBytes (seed : Word) (d e : List Byte) :
    (Stream.ofBytes seed d).update e = Stream.ofBytes seed (d ++ e) := by
  obtain ⟨q, hq⟩ : ∃ q, d.length / 16 = q := ⟨_, rfl⟩
  obtain ⟨b, hb⟩ : ∃ b, (d ++ e).drop (16 * q) = b := ⟨_, rfl⟩
  have hbuf : d.drop (16 * q) ++ e = b := by rw [← hb, List.drop_append_of_le_length (by omega)]
  have hcount : (d ++ e).length / 16 = q + b.length / 16 := by
    rw [← hb, List.length_drop, List.length_append]
    omega
  have hlanes : Lanes.stripes (b.length / 16) (Lanes.stripes q (Lanes.start seed) d) b =
      Lanes.stripes ((d ++ e).length / 16) (Lanes.start seed) (d ++ e) := by
    rw [hcount, Lanes.stripes_add, Lanes.stripes_append _ e (by omega), hb]
  have hrest : b.drop (16 * (b.length / 16)) = (d ++ e).drop (16 * ((d ++ e).length / 16)) := by
    rw [hcount, Nat.mul_add, ← List.drop_drop, hb]
  have htotal : BitVec.ofNat 64 d.length + BitVec.ofNat 64 e.length = BitVec.ofNat 64 (d ++ e).length := by
    rw [List.length_append, BitVec.ofNat_add]
  simp only [Stream.update, Stream.ofBytes, Stream.lanes, hq, hbuf, hlanes, hrest, htotal]

theorem Stream.foldl_update_ofBytes (seed : Word) (d : List Byte) (ds : List (List Byte)) :
    ds.foldl Stream.update (Stream.ofBytes seed d) = Stream.ofBytes seed (d ++ ds.flatten) := by
  induction ds generalizing d with
  | nil => simp
  | cons e ds ih => rw [List.foldl_cons, Stream.update_ofBytes, ih, List.flatten_cons, List.append_assoc]

/-- While the byte count has not wrapped, the digest ends the computation as the one-shot XXH32 does (R223, R232). -/
theorem Stream.digest_ofBytes (seed : Word) {d : List Byte} (h : d.length < 2 ^ 64) :
    (Stream.ofBytes seed d).digest = xxh32 d seed := by
  have htotal : (BitVec.ofNat 64 d.length).toNat = d.length := Nat.mod_eq_of_lt h
  have hlow : (BitVec.ofNat 64 d.length).setWidth 32 = BitVec.ofNat 32 d.length := by
    rw [BitVec.setWidth_ofNat_of_le (by omega)]
  simp only [Stream.digest, Stream.ofBytes, Stream.lanes, xxh32, htotal, hlow]

/-- Settles O41, by induction on the list of feeds: each keeps the stream that of the bytes fed so far. -/
theorem streamDigestIsTheOneShotChecksum : Obligations.StreamDigestIsTheOneShotChecksum := by
  intro seed ds h
  rw [Stream.init_eq_ofBytes, Stream.foldl_update_ofBytes, List.nil_append, Stream.digest_ofBytes seed h]

end Sys2Proof.Machine
end

section
/-! SUPPORT. The commands of the XXH32 checksum unit (44_xxh32.md R240 to R245). -/

namespace Sys2Proof.Machine

/-! ## The commands of the stream -/

/-- Settles O35: the stream is set from `XXH_SEED` alone. -/
theorem xxhInitStartsTheStream : Obligations.XxhInitStartsTheStream := by
  intro s
  have he : RuleEffect .xxhInit s { s with xs := Stream.init s.xxhSeed } := .setsStream s _ (.inl rfl)
  exact ⟨_, rfl, State.endedWith_finish .., rfl, he.sameOperands, he.sameFrameInfo nofun nofun, he.sameHost,
    fun _ => rfl, rfl⟩

theorem Stream.update_total_toNat (xs : Stream) (d : List Byte) :
    (xs.update d).total.toNat = (xs.total.toNat + d.length) % 2 ^ 64 := by
  simp [Stream.update]

/-- A feed of no bytes completes no stripe, since less than one is buffered. -/
theorem Stream.update_nil {xs : Stream} (h : xs.buf.length < 16) : xs.update [] = xs := by
  have hcount : xs.buf.length / 16 = 0 := Nat.div_eq_of_lt h
  simp [Stream.update, hcount, Lanes.stripes, Stream.lanes]

/-- Settles O36: the bytes fed are those of S, and their number is `SRC_LEN`. -/
theorem xxhUpdateFeedsTheStream : Obligations.XxhUpdateFeedsTheStream := by
  refine ⟨fun s => failsWith_badOperand_of_not_srcOk rfl, fun s hr hs => ?_⟩
  have he : RuleEffect .xxhUpdate s { s with xs := s.xs.update (s.srcBytes 1) } := .setsStream s _ (.inr rfl)
  refine ⟨_, withSrc_of_valid _ hs, State.endedWith_finish .., ?_, ?_, fun h0 hbuf => ?_, he.sameOperands,
    he.sameFrameInfo nofun nofun, he.sameHost, fun _ => rfl, rfl⟩
  · rw [← State.srcBytes_unraced hr 1]
    rfl
  · exact (s.xs.update_total_toNat _).trans (by rw [State.srcBytes_length])
  · have hnil : s.srcBytes 1 = [] := List.length_eq_zero_iff.mp (by rw [State.srcBytes_length, h0]; rfl)
    exact (congrArg s.xs.update hnil).trans (Stream.update_nil hbuf)

/-- Settles O37: the command only reports. -/
theorem xxhDigestReadsTheStream : Obligations.XxhDigestReadsTheStream := fun s =>
  ⟨_, rfl, s.endedWith_finish .., s.keepsAll_finish ..⟩

/-- Settles O40: the digest is compared before it is reported. -/
theorem xxhCheckContentComparesWithOpa : Obligations.XxhCheckContentComparesWithOpa := by
  refine fun s => ⟨fun heq => ?_, fun hne => failsWith_of_exec_eq (if_pos hne)⟩
  rw [← heq]
  exact ⟨_, if_neg (not_not.mpr heq), s.endedWith_finish .., s.keepsAll_finish ..⟩

/-! ## The one-shot commands -/

/-- Settles O38: the bytes read are those of S, which nothing races. -/
theorem xxhOneshotChecksTheSource : Obligations.XxhOneshotChecksTheSource := by
  refine ⟨fun s => failsWith_badOperand_of_not_srcOk rfl, fun s hr hs => ?_⟩
  rw [← State.srcBytes_unraced hr 1]
  exact ⟨_, withSrc_of_valid _ hs, s.endedWith_finish .., s.keepsAll_finish ..⟩

/-- Settles O39: the checksum of S is compared before it is reported. -/
theorem xxhCheckBlockComparesWithOpa : Obligations.XxhCheckBlockComparesWithOpa := by
  refine ⟨fun s => failsWith_badOperand_of_not_srcOk rfl, fun s hr hs => ?_⟩
  rw [← State.srcBytes_unraced hr 1]
  refine ⟨fun heq => ?_, fun hne => failsWith_of_exec_eq ((withSrc_of_valid _ hs).trans (if_pos hne))⟩
  rw [← heq]
  exact ⟨_, (withSrc_of_valid _ hs).trans (if_neg (not_not.mpr heq)), s.endedWith_finish .., s.keepsAll_finish ..⟩

end Sys2Proof.Machine
end

section
/-! SUPPORT. The resets (70_reset_and_hazards.md R280, R282): what both leave, and what they leave of memory; and the host's
write of an operand register while a command runs (R286). -/

namespace Sys2Proof.Machine

/-- No register shows what a reset keeps or sets on its own: the table, memory and the host's turns and reads. -/
@[simp] theorem State.readReg_resetWith (s : State) (ht : HashTable) (m : Memory) (r : Reg) :
    (s.resetWith ht m).readReg r = State.reset.readReg r := by
  cases r <;> rfl

/-- `XS` at reset is the stream that `XXH_INIT` starts from the seed 0 (10_state.md R45). -/
theorem Stream.reset_eq_init : Stream.reset = Stream.init 0#32 := by
  obtain ⟨-, -, -, -, hxs⟩ := resetLeavesTheListedValues
  exact hxs

/-- Abandoning a command leaves every byte outside D alone. -/
theorem State.abandonedMem_read_outside (s : State) (a : Nat)
    (h : a < s.dstAddr.toNat ∨ s.dstAddr.toNat + s.dstCap.toNat ≤ a) : s.abandonedMem.read a = s.mem.read a := by
  unfold State.abandonedMem
  split
  · exact Memory.freeFill_read_outside _ _ _ _ _ h
  · rfl

/-- The soft reset keeps `HT` when no command runs. -/
theorem State.softReset_ht_of_idle {s : State} (h : s.busyCmd = none) : s.softReset.ht = s.ht := by
  simp [State.softReset, State.busy, h]

theorem hostWriteReg_ctrl_of_srst (s : State) {v : Word} (h : v.getLsbD 1 = true) :
    hostWriteReg s .ctrl v = .next s.softReset := by
  rw [hostWriteReg, h]
  rfl

/-- Settles O53: the turns to come do not show in `BUSY`, and a write of an operand register while busy is a fault. -/
theorem busyOperandWriteIsAHostFault : Obligations.BusyOperandWriteIsAHostFault := by
  intro s w v r rest hb ha hr
  have hbusy : ({ s with agenda := rest } : State).busy = true := by simp [State.busy, hb]
  rw [step_hostWrite ha, hostWrite_regOffset, hostWriteReg_operand _ v hr, if_pos hbusy]

/-- Settles O57: the write is a soft reset, which keeps `HT` of an idle engine and abandons the command of a busy one. -/
theorem softResetRestoresTheRegisters : Obligations.SoftResetRestoresTheRegisters := by
  intro s v rest ha hv
  have hstep : step s = .next ({ s with agenda := rest } : State).softReset := by
    rw [step_hostWrite ha]
    exact (hostWrite_regOffset _ .ctrl v).trans (hostWriteReg_ctrl_of_srst _ hv)
  exact ⟨_, hstep, State.readReg_resetWith _ _ _, Stream.reset_eq_init, rfl, rfl, rfl, rfl, State.softReset_ht_of_idle,
    State.abandonedMem_eq _, State.abandonedMem_read_outside _⟩

/-- Settles O58: the turn is a hardware reset, which abandons the command in flight. -/
theorem hardwareResetRestoresTheRegisters : Obligations.HardwareResetRestoresTheRegisters := by
  intro s rest ha
  exact ⟨_, step_of_agenda ha, State.readReg_resetWith _ _ _, Stream.reset_eq_init, rfl, rfl, rfl, rfl,
    State.abandonedMem_eq _, State.abandonedMem_read_outside _⟩

end Sys2Proof.Machine
end
